-- ==== Sys2Proof/Word.lean ====
section
/-!
DEFINITION. Word.lean: the words and plain data the engine is made of (spec/00_scope.md R11, R13, R14;
spec/20_memory.md R61).
-/

namespace Sys2Proof

/-- One cell of 8 bits: a character code, or one 8-position bit string (R61). CHAR_W = 8. -/
abbrev Byte := BitVec 8

/-- A string: its leftmost character is element 0 (R13, R64). -/
abbrev Str := List Byte

/-- The string of a Lean literal whose characters have codes below 256. -/
def strOf (s : String) : Str := s.toList.map fun c => BitVec.ofNat 8 c.toNat

/-- A symbol: an integer 0 to 25 standing for a letter (R19). -/
abbrev Symbol := Fin 26

/-- A row vector of three symbols, and a 3×3 matrix as its rows from top to bottom (R18, R32). -/
abbrev Row := Vector Symbol 3
abbrev Matrix := Vector Row 3

/-- A table of `m` positions over an `n`-position bit string. The spec numbers positions from 1
(R16); entry `p : Fin n` stands for the spec's position `p + 1` (log 21). -/
abbrev Table (n m : Nat) := Vector (Fin n) m

/-- An S-box: four rows of four cells, each 0 to 3 (R32). -/
abbrev SBox := Vector (Vector (Fin 4) 4) 4

/-- A partial map from strings, as a list of pairs with strictly rising keys (log 18). -/
abbrev NameMap (α : Type) := List (Str × α)

/-- A partial map from natural numbers, as a list of pairs with strictly rising keys (log 18).
A buffer of cells is `NatMap Byte`, a list of Host cells. -/
abbrev NatMap (α : Type) := List (Nat × α)

end Sys2Proof
end

