-- ==== Sys2Proof/Syntax.lean ====
section
/-!
DEFINITION. Syntax.lean: the instructions, one constructor per row of spec/opcode_table.json
(spec/30_encoding.md R80, R82, R92). The operands are the fields of the encodings: FLOW and SINK of 8
bits, IMM24, REF of 4 bits.
-/

namespace Sys2Proof

inductive Instr where
  -- Commands, format H (R82).
  /-- EXEC f -/
  | exec (flow : BitVec 8)
  /-- SUB f, s -/
  | sub (flow sink : BitVec 8)
  /-- FSUB s, the name in NAME -/
  | fsub (sink : BitVec 8)
  /-- FADD f, the name in NAME -/
  | fadd (flow : BitVec 8)
  /-- FREM, the name in NAME -/
  | frem
  /-- PSET imm, the name in NAME -/
  | pset (imm : BitVec 24)
  | pclr
  /-- CLOCK imm -/
  | clock (imm : BitVec 24)
  /-- CUNLOCK imm -/
  | cunlock (imm : BitVec 24)
  | vlock
  | vunlock
  | plock
  | punlock
  | hlock
  | hunlock
  | slock
  | sunlock
  -- Micro-operations, format T (R92).
  | ident
  | upper
  | a2v
  | cadd
  | v2a
  | vfix
  | vmkkey
  | vneg
  | vxlt (ref : BitVec 4)
  | pffix
  | pfufix
  | pfkey
  | pfenc (ref : BitVec 4)
  | pfdec (ref : BitVec 4)
  | hfix
  | hmulk
  | hmulu
  | hv2a
  | sframe
  | skeys
  | sip (ref : BitVec 4)
  | sfk1 (ref : BitVec 4)
  | sfk2 (ref : BitVec 4)
  | ssw
  | srip
  | sunfr
  deriving DecidableEq, Repr

/-- Is it a command (format H), not a micro-operation (format T)? (R80) -/
def Instr.isCommand : Instr → Bool
  | .exec _ | .sub _ _ | .fsub _ | .fadd _ | .frem | .pset _ | .pclr | .clock _ | .cunlock _
  | .vlock | .vunlock | .plock | .punlock | .hlock | .hunlock | .slock | .sunlock => true
  | .ident | .upper | .a2v | .cadd | .v2a | .vfix | .vmkkey | .vneg | .vxlt _ | .pffix | .pfufix
  | .pfkey | .pfenc _ | .pfdec _ | .hfix | .hmulk | .hmulu | .hv2a | .sframe | .skeys | .sip _
  | .sfk1 _ | .sfk2 _ | .ssw | .srip | .sunfr => false

/-- The REF operand of a micro-operation that has one (R92). -/
def Instr.ref? : Instr → Option (BitVec 4)
  | .vxlt r | .pfenc r | .pfdec r | .sip r | .sfk1 r | .sfk2 r => some r
  | .exec _ | .sub _ _ | .fsub _ | .fadd _ | .frem | .pset _ | .pclr | .clock _ | .cunlock _
  | .vlock | .vunlock | .plock | .punlock | .hlock | .hunlock | .slock | .sunlock
  | .ident | .upper | .a2v | .cadd | .v2a | .vfix | .vmkkey | .vneg | .pffix | .pfufix
  | .pfkey | .hfix | .hmulk | .hmulu | .hv2a | .sframe | .skeys | .ssw | .srip | .sunfr => none

end Sys2Proof
end

