-- ==== Sys2Proof/WellFormed.lean ====
section
/-!
DEFINITION. WellFormed.lean: where an instruction may stand (spec/10_state.md R35; spec/30_encoding.md
R80, R91). Every operand field of `Instr` has the width of its encoding, so what is left to check is
the place: a command in CMD, a micro-operation at a position of a flow that comes after the task its
REF names. The conditions on whole flows and configurations are in Machine/Build.lean.
-/

namespace Sys2Proof

/-- May `i` be the task at position `pos` of a flow? It is a micro-operation, and its REF, if it has
one, is less than its own position (R35). -/
def Instr.wfTask (i : Instr) (pos : Nat) : Bool :=
  !i.isCommand && (match i.ref? with
    | some r => decide (r.toNat < pos)
    | none => true)

/-- May `i` be written to CMD? It is a command (R80). -/
def Instr.wfCommand (i : Instr) : Bool := i.isCommand

end Sys2Proof
end

