-- ==== Sys2Proof/Decode.lean ====
section
/-!
DEFINITION. Decode.lean: the decoders of command words and task words, total and rejecting by name,
and the encoder (spec/30_encoding.md R81 to R85, R90 to R93).
-/

namespace Sys2Proof

/-- Why a word is no defined encoding. -/
inductive DecodeError where
  /-- OP is not one of the 17 of R82 (R85). -/
  | reservedOp
  /-- a bit that the command's sub-format shows as 0 is 1 (R85) -/
  | nonzeroField
  /-- UOP is not one of the 26 of R92 (R91). -/
  | reservedUop
  /-- bits [3:0] of a task word are not 0 (R91) -/
  | nonzeroLow
  /-- REF is not 0 and the micro-operation has no REF operand (R91) -/
  | unusedRef
  /-- the word has neither the length of a command nor of a task word (R80) -/
  | badLength
  deriving DecidableEq, Repr

/-- `i` if the bits that must be 0 are 0. -/
def zeroField {n : Nat} (z : BitVec n) (i : Instr) : Except DecodeError Instr :=
  if z = 0 then .ok i else .error .nonzeroField

/-- The command decoder (R81, R82). -/
def decodeCommand (w : BitVec 32) : Except DecodeError Instr :=
  let arg := w.extractLsb' 0 24
  let flow := w.extractLsb' 16 8
  let sink := w.extractLsb' 8 8
  let low := w.extractLsb' 0 8
  match (w.extractLsb' 24 8).toNat with
  | 0x01 => zeroField (sink ++ low) (.exec flow)
  | 0x02 => zeroField low (.sub flow sink)
  | 0x03 => zeroField (flow ++ low) (.fsub sink)
  | 0x04 => zeroField (sink ++ low) (.fadd flow)
  | 0x05 => zeroField arg .frem
  | 0x06 => .ok (.pset arg)
  | 0x07 => zeroField arg .pclr
  | 0x10 => .ok (.clock arg)
  | 0x11 => .ok (.cunlock arg)
  | 0x20 => zeroField arg .vlock
  | 0x21 => zeroField arg .vunlock
  | 0x30 => zeroField arg .plock
  | 0x31 => zeroField arg .punlock
  | 0x40 => zeroField arg .hlock
  | 0x41 => zeroField arg .hunlock
  | 0x50 => zeroField arg .slock
  | 0x51 => zeroField arg .sunlock
  | _ => .error .reservedOp

/-- A micro-operation without a REF operand: REF must be 0 (R91). -/
def noRef (ref : BitVec 4) (i : Instr) : Except DecodeError Instr :=
  if ref = 0 then .ok i else .error .unusedRef

/-- The micro-operation of a UOP and a REF field (R92). -/
def decodeUop (uop : Nat) (ref : BitVec 4) : Except DecodeError Instr :=
  match uop with
  | 0x00 => noRef ref .ident
  | 0x10 => noRef ref .upper
  | 0x11 => noRef ref .a2v
  | 0x12 => noRef ref .cadd
  | 0x13 => noRef ref .v2a
  | 0x20 => noRef ref .vfix
  | 0x21 => noRef ref .vmkkey
  | 0x22 => noRef ref .vneg
  | 0x23 => .ok (.vxlt ref)
  | 0x30 => noRef ref .pffix
  | 0x31 => noRef ref .pfufix
  | 0x32 => noRef ref .pfkey
  | 0x33 => .ok (.pfenc ref)
  | 0x34 => .ok (.pfdec ref)
  | 0x40 => noRef ref .hfix
  | 0x41 => noRef ref .hmulk
  | 0x42 => noRef ref .hmulu
  | 0x43 => noRef ref .hv2a
  | 0x50 => noRef ref .sframe
  | 0x51 => noRef ref .skeys
  | 0x52 => .ok (.sip ref)
  | 0x53 => .ok (.sfk1 ref)
  | 0x54 => .ok (.sfk2 ref)
  | 0x55 => noRef ref .ssw
  | 0x56 => noRef ref .srip
  | 0x57 => noRef ref .sunfr
  | _ => .error .reservedUop

/-- The task-word decoder (R90, R91). -/
def decodeTask (w : BitVec 16) : Except DecodeError Instr :=
  if w.extractLsb' 0 4 = 0 then decodeUop (w.extractLsb' 8 8).toNat (w.extractLsb' 4 4)
  else .error .nonzeroLow

/-- An instruction from a word of `nbits` bits: a command has 32, a task word 16 (R80). A word stands
whole in CMD or in a task record, so there is no byte order (`20_memory.md` R64). -/
def decodeWord (nbits w : Nat) : Except DecodeError Instr :=
  if nbits = 32 then decodeCommand (BitVec.ofNat 32 w)
  else if nbits = 16 then decodeTask (BitVec.ofNat 16 w)
  else .error .badLength

/-- What the decoder reads from the bits `w`, numbered as spec/opcode_table.json numbers them. -/
def decodeTableWord (nbits w : Nat) : Option Instr :=
  match decodeWord nbits w with
  | .ok i => some i
  | .error _ => none

/-- OP of a command (R82) or UOP of a micro-operation (R92). -/
def Instr.opcode : Instr → BitVec 8
  | .exec _ => 0x01 | .sub _ _ => 0x02 | .fsub _ => 0x03 | .fadd _ => 0x04 | .frem => 0x05
  | .pset _ => 0x06 | .pclr => 0x07 | .clock _ => 0x10 | .cunlock _ => 0x11
  | .vlock => 0x20 | .vunlock => 0x21 | .plock => 0x30 | .punlock => 0x31
  | .hlock => 0x40 | .hunlock => 0x41 | .slock => 0x50 | .sunlock => 0x51
  | .ident => 0x00 | .upper => 0x10 | .a2v => 0x11 | .cadd => 0x12 | .v2a => 0x13
  | .vfix => 0x20 | .vmkkey => 0x21 | .vneg => 0x22 | .vxlt _ => 0x23
  | .pffix => 0x30 | .pfufix => 0x31 | .pfkey => 0x32 | .pfenc _ => 0x33 | .pfdec _ => 0x34
  | .hfix => 0x40 | .hmulk => 0x41 | .hmulu => 0x42 | .hv2a => 0x43
  | .sframe => 0x50 | .skeys => 0x51 | .sip _ => 0x52 | .sfk1 _ => 0x53 | .sfk2 _ => 0x54
  | .ssw => 0x55 | .srip => 0x56 | .sunfr => 0x57

/-- ARG of a command by its sub-format (R81); 0 for a micro-operation, which has none. -/
def Instr.arg : Instr → BitVec 24
  | .exec f | .fadd f => f ++ 0#8 ++ 0#8
  | .sub f k => f ++ k ++ 0#8
  | .fsub k => 0#8 ++ k ++ 0#8
  | .pset imm | .clock imm | .cunlock imm => imm
  | .frem | .pclr | .vlock | .vunlock | .plock | .punlock | .hlock | .hunlock | .slock | .sunlock => 0
  | .ident | .upper | .a2v | .cadd | .v2a | .vfix | .vmkkey | .vneg | .vxlt _ | .pffix | .pfufix
  | .pfkey | .pfenc _ | .pfdec _ | .hfix | .hmulk | .hmulu | .hv2a | .sframe | .skeys | .sip _
  | .sfk1 _ | .sfk2 _ | .ssw | .srip | .sunfr => 0

/-- The command word of a command (R81). -/
def encodeCommand (i : Instr) : BitVec 32 := i.opcode ++ i.arg

/-- The task word of a micro-operation (R90). -/
def encodeTask (i : Instr) : BitVec 16 := i.opcode ++ (i.ref?.getD 0) ++ 0#4

/-- The length of an instruction's word in bits (R80). -/
def Instr.width (i : Instr) : Nat := if i.isCommand then 32 else 16

/-- The word of an instruction, as a number with bit 0 the least significant. -/
def encode (i : Instr) : Nat :=
  if i.isCommand then (encodeCommand i).toNat else (encodeTask i).toNat

end Sys2Proof
end

