-- ==== Sys2Proof/Config.lean ====
section
/-!
DEFINITION. Config.lean: what is fixed when the engine is built, and the free values
(spec/00_scope.md R9; spec/10_state.md R32, R34, R47; spec/40_pipeline.md R115).
-/

namespace Sys2Proof

/-- CFG, the read-only settings space (R32). Caesar has no member. Entries that R33(c) and R33(e)
bound have the bound in their type; the other conditions of R33 are `cfgWf` (Machine/Build.lean). -/
structure Cfg where
  vigKey : Str
  pfKey : Str
  hillKey : Matrix
  hillUKey : Matrix
  sdesKey : BitVec 10
  p10 : Table 10 10
  p8 : Table 10 8
  ip : Table 8 8
  rip : Table 8 8
  ep : Table 4 8
  s0 : SBox
  s1 : SBox
  p4 : Table 4 4
  deriving DecidableEq, Repr

/-- A task record (R34, `30_encoding.md` R90). -/
structure Task where
  name : Str
  description : Str
  word : BitVec 16
  deriving DecidableEq, Repr

/-- What is fixed when the engine is built: CFG, TASKS and the OPEN sizes of R9. NFLOWS is the number
of flows in `tasks`. R47 calls these arguments of the model: they stand in State as data that no step
changes, so that a statement about every state is a statement about every build (log 3). -/
structure Build where
  cfg : Cfg
  tasks : List (List Task)
  nsinks : Nat
  maxLen : Nat
  nameMax : Nat
  deriving DecidableEq, Repr

/-- MAXSTEPS (R9). -/
def maxSteps : Nat := 16

/-- The two host-written buffers of cells (`20_memory.md` R60). -/
inductive Space where
  | inBuf
  | nameBuf
  deriving DecidableEq, Repr

/-- FREE VALUE: what a cell of IN or NAME holds that the host has not written since reset or since it
fell beyond the length register (R49, `93_implementation_defined.md` U12): the first argument is the
epoch of the cell's free value, the last the cell's index (log 7, log 8). -/
opaque Config.unwrittenCell : Nat → Space → Nat → Byte

/-- FREE VALUE: what OUTLEN reads when OUT has this many elements and they are too many to be counted in
32 bits, which R28 leaves open (log 28). -/
opaque Config.longOutLen : Nat → BitVec 32

end Sys2Proof
end

