-- ==== Sys2Proof/Machine/BuiltIn.lean ====
section
/-!
DEFINITION. Machine/BuiltIn.lean: the built-in flows and their names, and the reference build
(spec/40_pipeline.md R115; spec/00_scope.md R9; spec/95_test_vectors.md; log 4).
-/

namespace Sys2Proof

/-- The record that `defineTask` appends (R112): an omitted name or description is the empty string, an
omitted body the task word of IDENT. -/
def taskRecord (name description : Option Str) (body : Option (BitVec 16)) : Task :=
  ⟨name.getD [], description.getD [], body.getD 0x0000⟩

/-- A task with the default description (R112; R9 DESC). -/
def mkTask (name : String) (word : BitVec 16) : Task := taskRecord (some (strOf name)) none (some word)

/-- Flows 0 to 9 of R115, in the order of their ids. -/
def builtinFlows : List (List Task) :=
  let caesar := [mkTask "upper" 0x1000, mkTask "toValues" 0x1100, mkTask "shift" 0x1200,
    mkTask "toLetters" 0x1300]
  [ caesar,
    caesar,
    [mkTask "fix" 0x2000, mkTask "makeKey" 0x2100, mkTask "translate" 0x2300],
    [mkTask "fix" 0x2000, mkTask "makeKey" 0x2100, mkTask "negate" 0x2200, mkTask "translate" 0x2300],
    [mkTask "fixMsg" 0x3000, mkTask "makeKey" 0x3200, mkTask "substitute" 0x3300],
    [mkTask "fixMsg" 0x3100, mkTask "makeKey" 0x3200, mkTask "substitute" 0x3400],
    [mkTask "fix" 0x4000, mkTask "multiply" 0x4100, mkTask "toLetters" 0x4300],
    [mkTask "fix" 0x4000, mkTask "multiply" 0x4200, mkTask "toLetters" 0x4300],
    [mkTask "frame" 0x5000, mkTask "keys" 0x5100, mkTask "ip" 0x5200, mkTask "round1" 0x5310,
      mkTask "swap" 0x5500, mkTask "round2" 0x5410, mkTask "rip" 0x5600, mkTask "unframe" 0x5700],
    [mkTask "frame" 0x5000, mkTask "keys" 0x5100, mkTask "ip" 0x5200, mkTask "round1" 0x5410,
      mkTask "swap" 0x5500, mkTask "round2" 0x5310, mkTask "rip" 0x5600, mkTask "unframe" 0x5700] ]

/-- The ten bindings of R115, as a map with rising keys (log 18). -/
def builtinRegistry : NameMap Nat :=
  [ (strOf "Caesar:lock", 0), (strOf "Caesar:unlock", 1),
    (strOf "Hill:lock", 6), (strOf "Hill:unlock", 7),
    (strOf "Playfair:lock", 4), (strOf "Playfair:unlock", 5),
    (strOf "S-DES:lock", 8), (strOf "S-DES:unlock", 9),
    (strOf "Vigenere:lock", 2), (strOf "Vigenere:unlock", 3) ]

/-- The reference values of CFG (R9; `44_hill.md` R222; `45_sdes.md` R242, each entry less 1: log 21). -/
def Cfg.reference : Cfg where
  vigKey := strOf "deceptive"
  pfKey := strOf "monarchy"
  hillKey := #v[#v[17, 17, 5], #v[21, 18, 21], #v[2, 2, 19]]
  hillUKey := #v[#v[4, 9, 15], #v[15, 17, 6], #v[24, 0, 17]]
  sdesKey := 0b1010000010#10
  p10 := #v[2, 4, 1, 6, 3, 9, 0, 8, 7, 5]
  p8 := #v[5, 2, 6, 3, 7, 4, 9, 8]
  ip := #v[1, 5, 2, 0, 3, 7, 4, 6]
  rip := #v[3, 0, 2, 4, 6, 1, 7, 5]
  ep := #v[3, 0, 1, 2, 1, 2, 3, 0]
  s0 := #v[#v[1, 0, 3, 2], #v[3, 2, 1, 0], #v[0, 2, 1, 3], #v[3, 1, 3, 2]]
  s1 := #v[#v[0, 1, 2, 3], #v[2, 0, 1, 3], #v[3, 0, 1, 0], #v[2, 1, 0, 3]]
  p4 := #v[1, 3, 2, 0]

/-- The reference build of `95_test_vectors.md`: NFLOWS = 11 with flow 10 = `A, B, C`, NSINKS = 4,
DESC empty. MAXLEN and NAMEMAX have no reference value (DESIGN CHOICE, log 4). -/
def Build.reference : Build where
  cfg := Cfg.reference
  tasks := builtinFlows ++ [[mkTask "A" 0x0000, mkTask "B" 0x0000, mkTask "C" 0x0000]]
  nsinks := 4
  maxLen := 2147483646
  nameMax := 4294967295

end Sys2Proof
end

