-- ==== Sys2Proof/Machine/Chars.lean ====
section
/-!
DEFINITION. Machine/Chars.lean: characters, symbols and reduction modulo 26 (spec/00_scope.md R10, R11,
R12, R15).
-/

namespace Sys2Proof.Machine

/-- `is_letter(c)`: `A` to `Z` (R11). -/
def isLetter (c : Byte) : Bool := decide (65 ≤ c.toNat) && decide (c.toNat ≤ 90)

/-- `upper(c)`: codes 97 to 122 less 32, every other code unchanged (R12). -/
def upper (c : Byte) : Byte :=
  if 97 ≤ c.toNat ∧ c.toNat ≤ 122 then BitVec.ofNat 8 (c.toNat - 32) else c

/-- `is_ws(c)`: codes 9 to 13 and 32 (R15). -/
def isWs (c : Byte) : Bool := [9, 10, 11, 12, 13, 32].contains c.toNat

/-- `sym(c)`: `code(c) - code('A')` (R11). -/
def sym (c : Byte) : Int := (c.toNat : Int) - 65

/-- `mod(x, 26)` for every integer (R10). -/
def mod26 (x : Int) : Symbol := Fin.ofNat 26 (x.emod 26).toNat

/-- `chr26(v)` (R11). -/
def chr26 (v : Symbol) : Byte := BitVec.ofNat 8 (65 + v.val)

/-- `J` becomes `I` (`43_playfair.md` R190). -/
def foldJ (c : Byte) : Byte := if c = 74 then 73 else c

/-- The letter `X`, padding and filler (R11). -/
def letterX : Byte := 88

end Sys2Proof.Machine
end

