-- ==== Sys2Proof/Machine/Build.lean ====
section
/-!
DEFINITION. Machine/Build.lean: well-formed configurations, flows and builds (spec/10_state.md R33, R35;
spec/00_scope.md R9).
-/

namespace Sys2Proof.Machine

/-- `Σ_k r[k]·K[k][j]` reduced modulo 26: one entry of a matrix product (`44_hill.md` R225). -/
def mulEntry (r : Row) (k : Matrix) (j : Fin 3) : Symbol :=
  Fin.ofNat 26 (r[0].val * k[0][j].val + r[1].val * k[1][j].val + r[2].val * k[2][j].val)

/-- One row of `matmul` (`44_hill.md` R225). -/
def mulRow (k : Matrix) (r : Row) : Row := #v[mulEntry r k 0, mulEntry r k 1, mulEntry r k 2]

/-- `matmul(M, K)` for a matrix as a list of rows (`44_hill.md` R225). -/
def matmul (m : List Row) (k : Matrix) : List Row := m.map (mulRow k)

/-- R33(a): VIG_KEY is not empty and has only letters once uppercased. -/
def vigKeyWf (key : Str) : Bool := !key.isEmpty && key.all fun c => isLetter (upper c)

/-- R33(b): PF_KEY has only letters once uppercased. -/
def pfKeyWf (key : Str) : Bool := key.all fun c => isLetter (upper c)

/-- R33(c): `HILL_KEY · HILL_UKEY` is the identity modulo 26. -/
def hillWf (c : Cfg) : Bool :=
  decide (matmul c.hillKey.toList c.hillUKey = [#v[1, 0, 0], #v[0, 1, 0], #v[0, 0, 1]])

/-- R33(e): P10, IP and P4 are permutations and RIP is the inverse of IP. -/
def sdesWf (c : Cfg) : Bool :=
  decide c.p10.toList.Nodup && decide c.ip.toList.Nodup && decide c.p4.toList.Nodup &&
  (List.finRange 8).all fun i => decide (c.rip[c.ip[i]] = i)

/-- R33(a) to (e); what (c), (d) and (e) say of sizes and ranges holds by the type `Cfg`. -/
def cfgWf (c : Cfg) : Bool := vigKeyWf c.vigKey && pfKeyWf c.pfKey && hillWf c && sdesWf c

/-- A task word at a position of a flow is defined, and its REF names an earlier task (R35). -/
def taskWf (pos : Nat) (t : Task) : Bool :=
  match decodeTask t.word with
  | .ok i => i.wfTask pos
  | .error _ => false

/-- R35. -/
def flowWf (ts : List Task) : Bool :=
  decide (ts.length ≤ maxSteps) && decide (ts.map Task.name).Nodup &&
  ts.zipIdx.all fun e => taskWf e.2 e.1

/-- `defineTask` (`40_pipeline.md` R112), which builds a task store and is no command: append a task to
the flow `f`. There is no result when `f` names no flow or the flow would not be well-formed. -/
def defineTask? (b : Build) (f : Nat) (name description : Option Str) (body : Option (BitVec 16)) :
    Option Build :=
  b.tasks[f]?.bind fun ts =>
    if flowWf (ts ++ [taskRecord name description body]) then
      some { b with tasks := b.tasks.set f (ts ++ [taskRecord name description body]) }
    else none

/-- `defineTasks` (`40_pipeline.md` R113): `defineTask` once per entry, in the order of the entries, with
the entry's key as the name. -/
def defineTasks? (b : Build) (f : Nat) : List (Str × Option Str × Option (BitVec 16)) → Option Build
  | [] => some b
  | (name, description, body) :: rest =>
    (defineTask? b f (some name) description body).bind fun b' => defineTasks? b' f rest

/-- What R115 fixes of a flow: everything but the descriptions, which are the parameter DESC. -/
def flowShape (ts : List Task) : List (Str × BitVec 16) := ts.map fun t => (t.name, t.word)

/-- NFLOWS (R9). -/
def nflows (b : Build) : Nat := b.tasks.length

/-- A build the engine is specified for: R33 (a) to (f), the ranges of R9, and the built-in flows of
R115. INLEN and NAMELEN must hold every length, and NAMEMAX admit the longest built-in name (log 16). -/
def buildWf (b : Build) : Bool :=
  cfgWf b.cfg && b.tasks.all flowWf &&
  decide (10 ≤ b.tasks.length) && decide (b.tasks.length ≤ 256) &&
  decide ((b.tasks.take 10).map flowShape = builtinFlows.map flowShape) &&
  decide (1 ≤ b.nsinks) && decide (b.nsinks ≤ 256) &&
  decide (b.maxLen < 2 ^ 32) && decide (15 ≤ b.nameMax) && decide (b.nameMax < 2 ^ 32)

end Sys2Proof.Machine
end

