-- ==== Sys2Proof/Machine/Maps.lean ====
section
/-!
DEFINITION. Machine/Maps.lean: partial maps as lists of pairs with strictly rising keys: the named
registry, RES, PARAMS and OBS (spec/10_state.md R22, R36 to R38), and the buffers of cells
(spec/20_memory.md R60). One canonical form, so that equal maps are equal data (log 18).
-/

namespace Sys2Proof.Machine

/-- The order of names: character by character from the left, a prefix before its extensions. -/
def nameLt : Str → Str → Bool
  | [], [] => false
  | [], _ :: _ => true
  | _ :: _, [] => false
  | a :: s, b :: t => decide (a.toNat < b.toNat) || (a == b && nameLt s t)

/-- The order of indices. -/
def idxLt (a b : Nat) : Bool := decide (a < b)

/-- The value of a key, if it has one. -/
def mapGet {κ α : Type} [DecidableEq κ] (m : List (κ × α)) (k : κ) : Option α :=
  match m with
  | [] => none
  | (k', v) :: rest => if k' = k then some v else mapGet rest k

/-- Give a key a value, replacing an earlier one; `lt` is the order of the keys. -/
def mapPut {κ α : Type} [DecidableEq κ] (lt : κ → κ → Bool) (m : List (κ × α)) (k : κ) (v : α) :
    List (κ × α) :=
  match m with
  | [] => [(k, v)]
  | (k', v') :: rest =>
    if k' = k then (k, v) :: rest
    else if lt k k' then (k, v) :: (k', v') :: rest
    else (k', v') :: mapPut lt rest k v

/-- Take a key's value away. -/
def mapDel {κ α : Type} [DecidableEq κ] (m : List (κ × α)) (k : κ) : List (κ × α) :=
  m.filter fun e => decide (e.1 ≠ k)

/-- Write a string into the cells from index `i` on. -/
def putCells (m : NatMap Byte) (i : Nat) : Str → NatMap Byte
  | [] => m
  | c :: v => putCells (mapPut idxLt m i c) (i + 1) v

/-- The entries of indices below `n`. -/
def below (n : Nat) (m : NatMap Byte) : NatMap Byte := m.filter fun e => decide (e.1 < n)

/-- The entries of indices from `n` on. -/
def beyond (n : Nat) (m : NatMap Byte) : NatMap Byte := m.filter fun e => decide (n ≤ e.1)

/-- Make every write that `h` lists. -/
def putAll (m h : NatMap Byte) : NatMap Byte := h.foldr (fun e m => mapPut idxLt m e.1 e.2) m

/-! ### Epochs: when the free value of an unwritten cell was last renewed (log 7, log 8)

A pair `(n, e)` says that the cells from index `n` on have had the free values of epoch `e` since; the
pairs of greater indices come first and count for the cells they reach. -/

/-- Renew the free values of the cells from index `n` on. -/
def freeFrom (m : List (Nat × Nat)) (n e : Nat) : List (Nat × Nat) :=
  (n, e) :: m.filter fun x => decide (x.1 < n)

/-- The epoch of the free value of cell `i`; 0 where it was never renewed. -/
def freeEpoch (m : List (Nat × Nat)) (i : Nat) : Nat :=
  ((m.find? fun x => decide (x.1 ≤ i)).map Prod.snd).getD 0

/-- The indices fall strictly, and no epoch is later than `fresh`. -/
abbrev freeWf (fresh : Nat) (m : List (Nat × Nat)) : Prop :=
  (m.Pairwise fun a b => b.1 < a.1) ∧ ∀ x ∈ m, x.2 ≤ fresh

/-- The canonical form: the keys rise strictly. -/
abbrev mapWf {κ α : Type} (lt : κ → κ → Bool) (m : List (κ × α)) : Prop :=
  m.Pairwise fun a b => lt a.1 b.1 = true

/-- Memory.wf: the canonical form of a buffer of cells. -/
abbrev Memory.wf (m : NatMap Byte) : Prop := mapWf idxLt m

end Sys2Proof.Machine
end

