-- ==== Sys2Proof/Machine/State.lean ====
section
/-!
DEFINITION. Machine/State.lean: the architectural state as plain data (spec/10_state.md), the ways a
step can stop, and the state after reset (R49).
-/

namespace Sys2Proof.Machine

/-- A Value: every result a step produces (`00_scope.md` R18). The shapes that R18 sizes are sized by
their types; that the integers of an `ints` lie in -25..25 is `Value.wf` (Safety.lean). -/
inductive Value where
  | str (s : Str)
  | ints (vs : List Int)
  | pairs (ps : List (Byte × Byte))
  | square (sq : Vector Byte 25)
  | rows (rs : List Row)
  | blocks (bs : List (BitVec 8))
  | keys (k1 k2 : BitVec 8)
  deriving DecidableEq, Repr

/-- The completion codes of `60_exceptions.md` R280, in the order of their numbers. -/
inductive Code where
  | ok
  | invalidName
  | invalidFlow
  | notFound
  | invalidObserver
  | invalidInput
  | typeError
  | illegalCommand
  deriving DecidableEq, Repr

/-- STATUS.DONE and STATUS.ERRF (R30). BUSY has its home in `Activity`. -/
structure StatusReg where
  done : Bool
  errf : Bool
  deriving DecidableEq, Repr

/-- ERR (R31). -/
structure ErrReg where
  code : Code
  estep : Nat
  deriving DecidableEq, Repr

/-- FLOW (R26). -/
structure FlowReg where
  id : Nat
  valid : Bool
  deriving DecidableEq, Repr

/-- A trace event (`40_pipeline.md` R118). -/
structure Event where
  name : Str
  description : Str
  result : Value
  results : NameMap Value
  deriving DecidableEq, Repr

/-- EVP: the pending event and the position in OBS[FLOW] of the next sink that has not yet accepted
it (R39). -/
structure PendingEvent where
  event : Event
  next : Nat
  deriving DecidableEq, Repr

/-- What the engine is doing between two events of `70_reset_and_hazards.md` R326. STATUS.BUSY is 0
in `idle` and 1 otherwise (R30; log 10). -/
inductive Activity where
  /-- waiting for the host to write CMD (`70_reset_and_hazards.md` R311) -/
  | idle
  /-- the command word `w` was accepted and is not executed yet -/
  | command (w : BitVec 32)
  /-- an execution of flow FLOW.ID is in progress with this parameter mapping
  (`40_pipeline.md` R116) -/
  | running (pmap : NameMap Int)
  deriving DecidableEq, Repr

/-- The host's moves on the engine's state, each possible only while BUSY = 0 (R46). -/
inductive HostMove where
  /-- write cell `i` of IN or NAME, an index below the length register: `MemWrite` (`20_memory.md` R62) -/
  | writeCell (sp : Space) (i : Nat) (c : Byte)
  /-- write cell `i` of IN or NAME in preparation of a command, before or after the write of the length that
  takes the cell in (`70_reset_and_hazards.md` R312(d)): the `MemWrite` is made as soon as R62 defines it
  (log 9) -/
  | prepareCell (sp : Space) (i : Nat) (c : Byte)
  /-- write the CSR INLEN or NAMELEN -/
  | writeLen (sp : Space) (n : BitVec 32)
  /-- `IN <- "text"` or `NAME <- "text"`: the cells and the length register together
  (`30_encoding.md` R95, `70_reset_and_hazards.md` R312(d); log 9) -/
  | writeText (sp : Space) (t : Str)
  /-- write the CSR CMD -/
  | writeCmd (w : BitVec 32)
  deriving DecidableEq, Repr

/-- One move of the world outside the engine (log 1). -/
inductive EnvMove where
  | host (m : HostMove)
  /-- the sink that is offered the pending event accepts it (R45) -/
  | sinkAccept
  /-- nobody outside moves during this step -/
  | wait
  /-- the platform asserts reset (`70_reset_and_hazards.md` R310) -/
  | reset
  deriving DecidableEq, Repr

/-- One acceptance of an event by a sink. -/
structure Delivery where
  sink : Nat
  event : Event
  deriving DecidableEq, Repr

/-- The state. The last seven fields are the model's own. -/
structure State where
  /-- CFG, TASKS and the sizes, fixed when the engine is built (R32, R34, R47) -/
  build : Build
  /-- PREV (R21) -/
  prev : Value
  /-- RES (R22) -/
  res : NameMap Value
  /-- STEP, the program counter (R25) -/
  stepIdx : Nat
  /-- FLOW (R26) -/
  flow : FlowReg
  /-- STATUS.DONE, STATUS.ERRF (R30) -/
  status : StatusReg
  /-- ERR (R31) -/
  err : ErrReg
  /-- REG, the named-flow registry (R36) -/
  reg : NameMap Nat
  /-- OBS: flows with a non-empty list of sinks; a flow not listed has the empty list (R37) -/
  obs : NatMap (List Nat)
  /-- PARAMS (R38) -/
  params : NameMap Int
  /-- EVP (R39) -/
  evp : Option PendingEvent
  /-- IN: the cells the host has written (R40) -/
  inBuf : NatMap Byte
  /-- INLEN (R28) -/
  inLen : BitVec 32
  /-- NAME: the cells the host has written (R41) -/
  nameBuf : NatMap Byte
  /-- NAMELEN (R28) -/
  nameLen : BitVec 32
  /-- OUT; OUTTAG.TAG and OUTLEN are views of it (R42; log 6) -/
  out : Value
  /-- OUTTAG.OVALID (R42) -/
  ovalid : Bool
  /-- BUSY, the accepted command, the execution in progress (R29, R30, R116; log 10) -/
  activity : Activity
  /-- MODEL'S OWN: the outside world's moves still to come, the next one first (log 1) -/
  env : List EnvMove
  /-- MODEL'S OWN: every event a sink has accepted, oldest first (`00_scope.md` R8(c); log 11) -/
  trace : List Delivery
  /-- MODEL'S OWN: the number of epochs of free values begun so far (log 7) -/
  fresh : Nat
  /-- MODEL'S OWN: the epochs of the unwritten cells of IN (log 8) -/
  inFree : List (Nat × Nat)
  /-- MODEL'S OWN: the epochs of the unwritten cells of NAME (log 8) -/
  nameFree : List (Nat × Nat)
  /-- MODEL'S OWN: writes of cells of IN prepared ahead of INLEN, not yet made (R312(d); log 9) -/
  inHeld : NatMap Byte
  /-- MODEL'S OWN: writes of cells of NAME prepared ahead of NAMELEN, not yet made (R312(d); log 9) -/
  nameHeld : NatMap Byte
  deriving DecidableEq, Repr

/-- Faults: the state is one that the spec excludes and no run from reset reaches. Each is safe: the
model stops where the spec gives no behaviour (log 17). -/
inductive Fault where
  /-- raised by every micro-operation's meaning when no execution is in progress, an event is still
  pending, or FLOW and STEP name no task; safe -/
  | noTaskToRun
  /-- raised by the step when an execution is in progress and FLOW.ID names no flow; safe -/
  | flowNamesNoFlow
  /-- raised by the step when STEP is past the end of the flow being executed; safe -/
  | stepPastEnd
  /-- raised by V2A on an integer above 25, which no Value holds (R18, R156); safe -/
  | notASymbol
  deriving DecidableEq, Repr

/-- Refusals: a configuration or a move that the spec says does not exist. -/
inductive Refusal where
  /-- an instruction that has no meaning yet; safe -/
  | notModelled (mnemonic : String)
  /-- raised by the step before it executes a command, and by VMKKEY and PFKEY, when the build is not
  well-formed: "a model refuses any other" (R33); safe (log 15) -/
  | illFormedConfiguration
  /-- raised by the step when it fetches a task word that is no defined encoding (R93); safe (log 15) -/
  | undefinedTaskWord
  /-- raised by the step when the host's next move comes while BUSY = 1 and only a sink can move:
  "not a move the host has" (R46); unsafe, since hardware is not said to prevent it (log 14) -/
  | hostMoveWhileBusy
  /-- raised by `MemWrite` at or past the length register (`20_memory.md` R62), by the preparation of a cell
  outside the buffer (R40, R41), and by a length or a text above its size (`70_reset_and_hazards.md` R320
  row 8); unsafe as above (log 14) -/
  | noSuchHostMove
  /-- raised by the step when a sink accepts while no event is being offered (R45); safe -/
  | noEventOffered
  deriving DecidableEq, Repr

/-- The state right after reset (R49), of the reference build. PREV and OUT have no value in the spec;
the empty string is the model's choice (log 5, log 6). -/
def State.reset : State where
  build := Build.reference
  prev := .str []
  res := []
  stepIdx := 0
  flow := ⟨0, false⟩
  status := ⟨false, false⟩
  err := ⟨.ok, 0⟩
  reg := builtinRegistry
  obs := []
  params := []
  evp := none
  inBuf := []
  inLen := 0
  nameBuf := []
  nameLen := 0
  out := .str []
  ovalid := false
  activity := .idle
  env := []
  trace := []
  fresh := 0
  inFree := []
  nameFree := []
  inHeld := []
  nameHeld := []

end Sys2Proof.Machine
end

