-- ==== Sys2Proof/Machine/Values.lean ====
section
/-!
DEFINITION. Machine/Values.lean: the tag, the number of elements and the cell layout of a Value
(spec/10_state.md R42; spec/20_memory.md R61, R63, R64).
-/

namespace Sys2Proof.Machine

/-- OUTTAG.TAG of a shape (R42). -/
def Value.tag : Value → Nat
  | .str _ => 0
  | .ints _ => 1
  | .pairs _ => 2
  | .square _ => 3
  | .rows _ => 4
  | .blocks _ => 5
  | .keys _ _ => 6

/-- The number of elements that OUTLEN counts (R63). -/
def Value.len : Value → Nat
  | .str s => s.length
  | .ints vs => vs.length
  | .pairs ps => ps.length
  | .square _ => 25
  | .rows rs => rs.length
  | .blocks bs => bs.length
  | .keys _ _ => 2

/-- One integer in a cell of 8 bits, two's complement (R61). -/
def intCell (v : Int) : Byte := BitVec.ofInt 8 v

/-- One symbol in a cell. -/
def symCell (v : Symbol) : Byte := BitVec.ofNat 8 v.val

/-- The elements of a Value in sequence order, each as its cells (R63): one cell, or two of a digraph, or three of
a row. A block's position 0 is bit 7 of its cell (R64), which is how a `BitVec 8` holds it. -/
def Value.elems : Value → List Str
  | .str s => s.map fun c => [c]
  | .ints vs => vs.map fun v => [intCell v]
  | .pairs ps => ps.map fun p => [p.1, p.2]
  | .square sq => sq.toList.map fun c => [c]
  | .rows rs => rs.map fun r => r.toList.map symCell
  | .blocks bs => bs.map fun b => [b]
  | .keys k1 k2 => [[k1], [k2]]

/-- The cells of a Value, element by element (R63). -/
def Value.cells (v : Value) : Str := v.elems.flatten

end Sys2Proof.Machine
end

