-- ==== Sys2Proof/Machine/Ops.lean ====
section
/-!
DEFINITION. Machine/Ops.lean: the named operations over the state that the instructions share: reads and
writes of the buffers, the observer lists, acceptance and completion of a command, raising an
exception, launch, publication, and reset (spec/10_state.md; spec/20_memory.md R62;
spec/40_pipeline.md R110, R111, R116 to R119; spec/60_exceptions.md R283, R284).
-/

namespace Sys2Proof.Machine

/-- STATUS.BUSY (R30). -/
def State.busy (s : State) : Bool := decide (s.activity ≠ .idle)

/-! ### The buffers IN and NAME -/

def State.buf (s : State) : Space → NatMap Byte
  | .inBuf => s.inBuf
  | .nameBuf => s.nameBuf

/-- INLEN or NAMELEN. -/
def State.len (s : State) : Space → BitVec 32
  | .inBuf => s.inLen
  | .nameBuf => s.nameLen

/-- MAXLEN or NAMEMAX. -/
def State.cap (s : State) : Space → Nat
  | .inBuf => s.build.maxLen
  | .nameBuf => s.build.nameMax

/-- The epochs of the unwritten cells. -/
def State.free (s : State) : Space → List (Nat × Nat)
  | .inBuf => s.inFree
  | .nameBuf => s.nameFree

/-- The prepared writes that no length has taken in yet (R312(d); log 9). -/
def State.held (s : State) : Space → NatMap Byte
  | .inBuf => s.inHeld
  | .nameBuf => s.nameHeld

/-- The read of one cell. A cell the host has not written holds a free value (log 7). -/
def State.cell (s : State) (sp : Space) (i : Nat) : Byte :=
  (mapGet (s.buf sp) i).getD (Config.unwrittenCell (freeEpoch (s.free sp) i) sp i)

def State.setBuf (s : State) (sp : Space) (m : NatMap Byte) : State :=
  { s with
    inBuf := match sp with
      | .inBuf => m
      | .nameBuf => s.inBuf
    nameBuf := match sp with
      | .inBuf => s.nameBuf
      | .nameBuf => m }

/-- The write of one cell. -/
def State.setCell (s : State) (sp : Space) (i : Nat) (c : Byte) : State :=
  s.setBuf sp (mapPut idxLt (s.buf sp) i c)

/-- The cells `i` to `i + n - 1` of IN or NAME, in that order. -/
def memRead (s : State) (sp : Space) (i n : Nat) : Str :=
  (List.range n).map fun j => s.cell sp (i + j)

/-- Write `v` into IN or NAME from cell `i` on. -/
def memWrite (s : State) (sp : Space) (i : Nat) (v : Str) : State :=
  s.setBuf sp (putCells (s.buf sp) i v)

/-- The spaces of cells that `MemRead` reaches (`20_memory.md` R60, R62). -/
inductive CellSpace where
  | buf (sp : Space)
  | out
  deriving DecidableEq, Repr

/-- The space's current length: INLEN, NAMELEN, and OUTLEN, which counts elements (R63). OUT has no elements while
OVALID = 0. -/
def State.spaceLen (s : State) : CellSpace → Nat
  | .buf sp => (s.len sp).toNat
  | .out => if s.ovalid then s.out.len else 0

/-- `MemRead(space, i, n)`: defined only when `i + n` does not exceed the space's current length (R62). OUT is
reached by element index (R60, `00_scope.md` R17), and an element of `Pairs` or `Rows` is read as its two or
three cells (R63; log 29). -/
def memRead? (s : State) (cs : CellSpace) (i n : Nat) : Option Str :=
  if i + n ≤ s.spaceLen cs then
    some (match cs with
      | .buf sp => memRead s sp i n
      | .out => ((s.out.elems.drop i).take n).flatten)
  else none

/-- `MemWrite(space, i, n, v)` with `n` the length of `v`, under the same condition (R62). OUT is written
by the engine alone (R60). -/
def memWrite? (s : State) (sp : Space) (i : Nat) (v : Str) : Option State :=
  if i + v.length ≤ (s.len sp).toNat then some (memWrite s sp i v) else none

/-- Hold the write of a cell until a write of the length takes the cell in (`70_reset_and_hazards.md` R312(d);
log 9). It is no access to the buffer yet (R62). -/
def State.hold (s : State) (sp : Space) (i : Nat) (c : Byte) : State :=
  { s with
    inHeld := match sp with
      | .inBuf => mapPut idxLt s.inHeld i c
      | .nameBuf => s.inHeld
    nameHeld := match sp with
      | .inBuf => s.nameHeld
      | .nameBuf => mapPut idxLt s.nameHeld i c }

/-- The write of INLEN or NAMELEN. The held writes below the new length are now within R62 and are made (R312(d);
log 9). Cells of the buffer at or beyond the new length hold any value from then on
(`93_implementation_defined.md` U12; log 8); every other cell, written or not, keeps its value (R66). -/
def State.setLen (s : State) (sp : Space) (n : BitVec 32) : State :=
  { s with
    inBuf := match sp with
      | .inBuf => putAll (below n.toNat s.inBuf) (below n.toNat s.inHeld)
      | .nameBuf => s.inBuf
    inLen := match sp with
      | .inBuf => n
      | .nameBuf => s.inLen
    nameBuf := match sp with
      | .inBuf => s.nameBuf
      | .nameBuf => putAll (below n.toNat s.nameBuf) (below n.toNat s.nameHeld)
    nameLen := match sp with
      | .inBuf => s.nameLen
      | .nameBuf => n
    fresh := s.fresh + 1
    inFree := match sp with
      | .inBuf => freeFrom s.inFree n.toNat (s.fresh + 1)
      | .nameBuf => s.inFree
    nameFree := match sp with
      | .inBuf => s.nameFree
      | .nameBuf => freeFrom s.nameFree n.toNat (s.fresh + 1)
    inHeld := match sp with
      | .inBuf => beyond n.toNat s.inHeld
      | .nameBuf => s.inHeld
    nameHeld := match sp with
      | .inBuf => s.nameHeld
      | .nameBuf => beyond n.toNat s.nameHeld }

/-- The write of a text: the length register and the cells together, in an order that does not matter
(`30_encoding.md` R95, `70_reset_and_hazards.md` R312(d)). -/
def State.setText (s : State) (sp : Space) (t : Str) : State :=
  memWrite (s.setLen sp (BitVec.ofNat 32 t.length)) sp 0 t

/-- `Str(MemRead(IN, 0, INLEN))`, the input of an execution command (R116). -/
def State.inText (s : State) : Str := memRead s .inBuf 0 s.inLen.toNat

/-- `MemRead(NAME, 0, NAMELEN)`, the name operand of FSUB, FADD, FREM and PSET (R41). -/
def State.nameText (s : State) : Str := memRead s .nameBuf 0 s.nameLen.toNat

/-! ### Flows and observer lists -/

/-- `OBS[f]` (R37). -/
def State.obsOf (s : State) (f : Nat) : List Nat := (mapGet s.obs f).getD []

/-- The observer list of the flow being executed. -/
def State.sinks (s : State) : List Nat := s.obsOf s.flow.id

/-- The tasks of the flow FLOW.ID names. -/
def State.flowTasks? (s : State) : Option (List Task) := s.build.tasks[s.flow.id]?

/-- `TASKS[FLOW][STEP]`. -/
def State.task? (s : State) : Option Task := s.flowTasks?.bind fun ts => ts[s.stepIdx]?

/-- Append a sink to `OBS[f]` if it is not in it (R110). -/
def State.subscribe (s : State) (f k : Nat) : State :=
  { s with obs := if k ∈ s.obsOf f then s.obs else mapPut idxLt s.obs f (s.obsOf f ++ [k]) }

/-! ### Commands: acceptance, completion, exceptions -/

/-- Acceptance of a command word (R29, R30). -/
def State.accept (s : State) (w : BitVec 32) : State :=
  { s with activity := .command w, status := ⟨false, false⟩ }

/-- Completion of a command with a code (R30, R31, R280). -/
def State.complete (s : State) (c : Code) (estep : Nat) : State :=
  { s with activity := .idle, status := ⟨true, decide (c ≠ .ok)⟩, err := ⟨c, estep⟩ }

/-- TAKING AN EXCEPTION: `raise E` ends the command at that point with code `E` (R283); `estep` is the
faulting task's index for a fault inside an execution, else 0 (R31, R281). There is no handler, no
saved program counter and no return (R288, R289). -/
def State.raise (s : State) (c : Code) (estep : Nat) : State := s.complete c estep

/-- Completion with `OK`. -/
def State.succeed (s : State) : State := s.complete .ok 0

/-! ### Executions -/

/-- `launch(f, input, pmap)` (R116). -/
def State.launch (s : State) (f : Nat) (input : Value) (pmap : NameMap Int) : State :=
  { s with
    flow := ⟨f, true⟩
    stepIdx := 0
    res := []
    prev := input
    ovalid := false
    activity := .running pmap }

/-- The launch of a command's own flow on the string in IN (R121). -/
def State.launchIn (s : State) (f : Nat) (pmap : NameMap Int) : State :=
  s.launch f (.str s.inText) pmap

/-- The event of a task that returned `v` (R117, R118): `results` holds the task's own entry. -/
def taskEvent (s : State) (t : Task) (v : Value) : Event :=
  ⟨t.name, t.description, v, mapPut nameLt s.res t.name v⟩

/-- The end of a step: `RES[t.name] <- v`, `PREV <- v`, publication (R117). With no sink `publish` does
nothing and STEP advances at once; else the event waits for the first sink (R111). -/
def State.publish (s : State) (t : Task) (v : Value) : State :=
  { s with
    res := mapPut nameLt s.res t.name v
    prev := v
    evp := if s.sinks.isEmpty then none else some ⟨taskEvent s t v, 0⟩
    stepIdx := if s.sinks.isEmpty then s.stepIdx + 1 else s.stepIdx }

/-- The sink that is being offered the pending event (R39, R45). -/
def State.offered? (s : State) : Option (Nat × PendingEvent) :=
  match s.evp with
  | some p => s.sinks[p.next]?.map fun k => (k, p)
  | none => none

/-- Sink `k` accepts the pending event `p`: the next sink is offered it, or, after the last, STEP
advances (R25, R111, R117). -/
def State.deliver (s : State) (k : Nat) (p : PendingEvent) : State :=
  { s with
    trace := s.trace ++ [⟨k, p.event⟩]
    evp := if p.next + 1 < s.sinks.length then some ⟨p.event, p.next + 1⟩ else none
    stepIdx := if p.next + 1 < s.sinks.length then s.stepIdx else s.stepIdx + 1 }

/-- The end of an execution (R119). -/
def State.finish (s : State) : State := { s with out := s.prev, ovalid := true }.succeed

/-! ### Reset -/

/-- Reset of a running machine: the state of R49, of the same build; events already accepted are not
recalled (R310), and the moves of the outside world go on. Every cell of IN and NAME gets a new free
value. -/
def State.resetNow (s : State) : State :=
  { State.reset with
    build := s.build
    env := s.env
    trace := s.trace
    fresh := s.fresh + 1
    inFree := [(0, s.fresh + 1)]
    nameFree := [(0, s.fresh + 1)] }

end Sys2Proof.Machine
end

