-- ==== Sys2Proof/Machine/Operands.lean ====
section
/-!
DEFINITION. Machine/Operands.lean: the operands of commands and of micro-operations (spec/30_encoding.md
R83, R84, R92; spec/20_memory.md R68; spec/60_exceptions.md R290), and the executor's step around a
micro-operation (spec/40_pipeline.md R117).
-/

namespace Sys2Proof.Machine

/-! ### Fields of a command word -/

/-- FLOW or SINK: `zext_8` (R84). -/
def zext8 (v : BitVec 8) : Nat := v.toNat

/-- IMM24: `sext_24` (R83). -/
def sext24 (v : BitVec 24) : Int := v.toInt

/-! ### Operands of a micro-operation -/

/-- The at most four operands of a micro-operation (R68). -/
structure Operands where
  prev : Value
  /-- `RES[name(REF)]`; absent when the micro-operation has no REF operand or there is no entry -/
  refval : Option Value
  /-- the launch's parameter under the task's own name -/
  param : Option Int
  cfg : Cfg
  deriving DecidableEq, Repr

/-- `RES[name(REF)]`, `name(REF)` being the name of the task at position REF of the flow (R90, R24). -/
def State.refVal? (s : State) (r : BitVec 4) : Option Value :=
  match s.flowTasks? with
  | some ts => match ts[r.toNat]? with
    | some t => mapGet s.res t.name
    | none => none
  | none => none

/-- The operands that task `t` is run with (R117). -/
def operandsOf (s : State) (t : Task) (pmap : NameMap Int) (ref : Option (BitVec 4)) : Operands where
  prev := s.prev
  refval := match ref with
    | some r => s.refVal? r
    | none => none
  param := mapGet pmap t.name
  cfg := s.build.cfg

/-! ### Shapes: any other raises TypeError (R92, R290) -/

def asStr : Value → Except Code Str
  | .str s => .ok s
  | _ => .error .typeError

def asInts : Value → Except Code (List Int)
  | .ints vs => .ok vs
  | _ => .error .typeError

def asPairs : Value → Except Code (List (Byte × Byte))
  | .pairs ps => .ok ps
  | _ => .error .typeError

def asSquare : Value → Except Code (Vector Byte 25)
  | .square sq => .ok sq
  | _ => .error .typeError

def asRows : Value → Except Code (List Row)
  | .rows rs => .ok rs
  | _ => .error .typeError

def asBlocks : Value → Except Code (List (BitVec 8))
  | .blocks bs => .ok bs
  | _ => .error .typeError

def asKeys : Value → Except Code (BitVec 8 × BitVec 8)
  | .keys k1 k2 => .ok (k1, k2)
  | _ => .error .typeError

/-- An operand that must be there: a `RES` entry (R24) or a parameter (R155). -/
def present {α : Type} : Option α → Except Code α
  | some v => .ok v
  | none => .error .typeError

/-! ### The executor's step -/

/-- The task that may run now and the launch's parameter mapping: an execution is in progress, no
event is pending, and FLOW and STEP name a task (R117). -/
def State.runnable? (s : State) : Option (Task × NameMap Int) :=
  match s.activity with
  | .running pmap => match s.evp with
    | none => s.task?.map fun t => (t, pmap)
    | some _ => none
  | .idle => none
  | .command _ => none

/-- One step of the executor around the micro-operation `u` (R117); where it raises, the execution ends
there with ESTEP = STEP and nothing of the task is written (R284). -/
def runTask (u : Operands → Except Code Value) (ref : Option (BitVec 4)) (s : State) :
    Host.Outcome State Fault Refusal :=
  match s.runnable? with
  | none => .fault .noTaskToRun
  | some (t, pmap) =>
    match u (operandsOf s t pmap ref) with
    | .ok v => .next (s.publish t v)
    | .error c => .next (s.raise c s.stepIdx)

end Sys2Proof.Machine
end

