-- ==== Sys2Proof/Machine/Caesar.lean ====
section
/-!
DEFINITION. Machine/Caesar.lean: CLOCK, CUNLOCK, UPPER, A2V, CADD, V2A (spec/41_caesar.md).
-/

namespace Sys2Proof.Machine

/-- CLOCK (R151): flow 0 with parameter `shift = k`. -/
def execClock (imm : BitVec 24) (s : State) : Host.Outcome State Fault Refusal :=
  .next (s.launchIn 0 [(strOf "shift", sext24 imm)])

/-- CUNLOCK (R152): flow 1 with parameter `shift = -k`, the negation of the integer. -/
def execCunlock (imm : BitVec 24) (s : State) : Host.Outcome State Fault Refusal :=
  .next (s.launchIn 1 [(strOf "shift", -sext24 imm)])

/-- UPPER's function (R153). -/
def uopUpper (o : Operands) : Except Code Value := do
  let m ← asStr o.prev
  .ok (.str (m.map upper))

/-- UPPER (R153). -/
def execUpper (s : State) : Host.Outcome State Fault Refusal := runTask uopUpper none s

/-- The symbol values of a string of letters; any other character raises InvalidInputError (R154). -/
def symbols (m : Str) : Except Code (List Int) :=
  if m.all isLetter then .ok (m.map sym) else .error .invalidInput

/-- A2V's function (R154). -/
def uopA2v (o : Operands) : Except Code Value := do
  let m ← asStr o.prev
  let vs ← symbols m
  .ok (.ints vs)

/-- A2V (R154). -/
def execA2v (s : State) : Host.Outcome State Fault Refusal := runTask uopA2v none s

/-- CADD's function (R155). -/
def uopCadd (o : Operands) : Except Code Value := do
  let vs ← asInts o.prev
  let k ← present o.param
  .ok (.ints (vs.map fun v => ((mod26 (v + k)).val : Int)))

/-- CADD (R155). -/
def execCadd (s : State) : Host.Outcome State Fault Refusal := runTask uopCadd none s

/-- V2A's function (R156). -/
def uopV2a (o : Operands) : Except Code Value := do
  let vs ← asInts o.prev
  if vs.any fun v => decide (v < 0) then .error .typeError
  else .ok (.str (vs.map fun v => chr26 (mod26 v)))

/-- Does PREV hold an integer above 25? No Value does (`00_scope.md` R18). -/
def prevTooLarge (v : Value) : Bool :=
  match v with
  | .ints vs => vs.any fun v => decide (25 < v)
  | .str _ | .pairs _ | .square _ | .rows _ | .blocks _ | .keys _ _ => false

/-- V2A (R156): "elements never exceed 25"; on any that does the model stops (log 17). -/
def execV2a (s : State) : Host.Outcome State Fault Refusal :=
  if prevTooLarge s.prev then .fault .notASymbol else runTask uopV2a none s

end Sys2Proof.Machine
end

