-- ==== Sys2Proof/Machine/Hill.lean ====
section
/-!
DEFINITION. Machine/Hill.lean: HLOCK, HUNLOCK, HFIX, HMULK, HMULU, HV2A (spec/44_hill.md). `matmul`
(R225) stands in Machine/Build.lean.
-/

namespace Sys2Proof.Machine

/-- HLOCK (R221). -/
def execHlock (s : State) : Host.Outcome State Fault Refusal := .next (s.launchIn 6 [])

/-- HUNLOCK (R223). -/
def execHunlock (s : State) : Host.Outcome State Fault Refusal := .next (s.launchIn 7 [])

/-- Append `X` until the length is a multiple of 3 (R224). -/
def padX (m : Str) : Str := m ++ List.replicate ((3 - m.length % 3) % 3) letterX

/-- The symbol of a letter. -/
def letterSymbol (c : Byte) : Symbol := mod26 (sym c)

/-- Split into row vectors of three symbols (R224). -/
def chunkRows : Str → List Row
  | a :: b :: c :: rest => #v[letterSymbol a, letterSymbol b, letterSymbol c] :: chunkRows rest
  | [_, _] => []
  | [_] => []
  | [] => []

/-- HFIX's function (R224). -/
def uopHfix (o : Operands) : Except Code Value := do
  let m ← asStr o.prev
  let s := padX (m.map upper)
  if s.all isLetter then .ok (.rows (chunkRows s)) else .error .invalidInput

/-- HFIX (R224). -/
def execHfix (s : State) : Host.Outcome State Fault Refusal := runTask uopHfix none s

/-- HMULK's function (R226). -/
def uopHmulk (o : Operands) : Except Code Value := do
  let rs ← asRows o.prev
  .ok (.rows (matmul rs o.cfg.hillKey))

/-- HMULK (R226). -/
def execHmulk (s : State) : Host.Outcome State Fault Refusal := runTask uopHmulk none s

/-- HMULU's function (R227). -/
def uopHmulu (o : Operands) : Except Code Value := do
  let rs ← asRows o.prev
  .ok (.rows (matmul rs o.cfg.hillUKey))

/-- HMULU (R227). -/
def execHmulu (s : State) : Host.Outcome State Fault Refusal := runTask uopHmulu none s

/-- The letters of rows of symbols: rows in order, the three values of a row in column order (R228). -/
def rowsText (rs : List Row) : Str := rs.flatMap fun r => r.toList.map chr26

/-- HV2A's function (R228). -/
def uopHv2a (o : Operands) : Except Code Value := do
  let rs ← asRows o.prev
  .ok (.str (rowsText rs))

/-- HV2A (R228). -/
def execHv2a (s : State) : Host.Outcome State Fault Refusal := runTask uopHv2a none s

end Sys2Proof.Machine
end

