-- ==== Sys2Proof/Machine/Pipeline.lean ====
section
/-!
DEFINITION. Machine/Pipeline.lean: the commands EXEC, SUB, FSUB, FADD, FREM, PSET, PCLR and the
micro-operation IDENT (spec/40_pipeline.md R120, R124 to R130).
-/

namespace Sys2Proof.Machine

/-- EXEC (R120). A flow id that names no flow raises before the launch, and nothing but STATUS and ERR changes
(`60_exceptions.md` R285, R288, decision D26); OVALID falls at the launch (R116; log 12). -/
def execExec (flow : BitVec 8) (s : State) : Host.Outcome State Fault Refusal :=
  if nflows s.build ≤ zext8 flow then .next (s.raise .invalidFlow 0)
  else .next (s.launchIn (zext8 flow) s.params)

/-- SUB (R124). -/
def execSub (flow sink : BitVec 8) (s : State) : Host.Outcome State Fault Refusal :=
  if nflows s.build ≤ zext8 flow then .next (s.raise .invalidFlow 0)
  else if s.build.nsinks ≤ zext8 sink then .next (s.raise .invalidObserver 0)
  else .next (s.subscribe (zext8 flow) (zext8 sink)).succeed

/-- FSUB (R125). -/
def execFsub (sink : BitVec 8) (s : State) : Host.Outcome State Fault Refusal :=
  match mapGet s.reg s.nameText with
  | none => .next (s.raise .notFound 0)
  | some f =>
    if s.build.nsinks ≤ zext8 sink then .next (s.raise .invalidObserver 0)
    else .next (s.subscribe f (zext8 sink)).succeed

/-- FADD (R126). -/
def execFadd (flow : BitVec 8) (s : State) : Host.Outcome State Fault Refusal :=
  if s.nameText.length = 0 then .next (s.raise .invalidName 0)
  else if nflows s.build ≤ zext8 flow then .next (s.raise .invalidFlow 0)
  else .next { s with reg := mapPut nameLt s.reg s.nameText (zext8 flow) }.succeed

/-- FREM (R127). -/
def execFrem (s : State) : Host.Outcome State Fault Refusal :=
  .next { s with reg := mapDel s.reg s.nameText }.succeed

/-- PSET (R128). -/
def execPset (imm : BitVec 24) (s : State) : Host.Outcome State Fault Refusal :=
  .next { s with params := mapPut nameLt s.params s.nameText (sext24 imm) }.succeed

/-- PCLR (R129). -/
def execPclr (s : State) : Host.Outcome State Fault Refusal :=
  .next { s with params := [] }.succeed

/-- IDENT's function (R130). -/
def uopIdent (o : Operands) : Except Code Value := .ok o.prev

/-- IDENT (R130). -/
def execIdent (s : State) : Host.Outcome State Fault Refusal := runTask uopIdent none s

end Sys2Proof.Machine
end

