-- ==== Sys2Proof/Machine/Playfair.lean ====
section
/-!
DEFINITION. Machine/Playfair.lean: PLOCK, PUNLOCK, PFFIX, PFUFIX, PFKEY, PFENC, PFDEC
(spec/43_playfair.md).
-/

namespace Sys2Proof.Machine

/-- The empty-input short-circuit of PLOCK and PUNLOCK (R193): no flow is launched. -/
def State.shortCircuit (s : State) : State := { s with out := .str [], ovalid := true }.succeed

/-- PLOCK (R191). -/
def execPlock (s : State) : Host.Outcome State Fault Refusal :=
  if s.inLen = 0 then .next s.shortCircuit else .next (s.launchIn 4 [])

/-- PUNLOCK (R192). -/
def execPunlock (s : State) : Host.Outcome State Fault Refusal :=
  if s.inLen = 0 then .next s.shortCircuit else .next (s.launchIn 5 [])

/-- Split into digraphs of equal or unequal letters; a last odd character is left out (R197). -/
def digraphs : Str → List (Byte × Byte)
  | a :: b :: rest => (a, b) :: digraphs rest
  | [_] => []
  | [] => []

/-- The scan of PFFIX (R196), with the first letter of the pair being looked at, if it is read: an
equal pair is split by `X` and its second letter opens the next pair; an odd end is padded with `X`. -/
def fixScan : Option Byte → Str → List (Byte × Byte)
  | none, [] => []
  | some a, [] => [(a, letterX)]
  | none, a :: rest => fixScan (some a) rest
  | some a, b :: rest =>
    if a = b then (a, letterX) :: fixScan (some b) rest else (a, b) :: fixScan none rest

/-- PFFIX's function (R196). -/
def uopPffix (o : Operands) : Except Code Value := do
  let m ← asStr o.prev
  .ok (.pairs (fixScan none (m.map fun c => foldJ (upper c))))

/-- PFFIX (R196). -/
def execPffix (s : State) : Host.Outcome State Fault Refusal := runTask uopPffix none s

/-- PFUFIX's function (R197). -/
def uopPfufix (o : Operands) : Except Code Value := do
  let m ← asStr o.prev
  if m.length % 2 = 1 then .error .invalidInput
  else .ok (.pairs (digraphs (m.map upper)))

/-- PFUFIX (R197). -/
def execPfufix (s : State) : Host.Outcome State Fault Refusal := runTask uopPfufix none s

/-- Append the characters of a string that are not placed yet, in order (R195). -/
def placeNew (out : Str) : Str → Str
  | [] => out
  | c :: rest => placeNew (if c ∈ out then out else out ++ [c]) rest

/-- The letters of the key square in row-major order: the folded key word, then `A` to `Z` without
`J` (R195). -/
def squareLetters (key : Str) : Str :=
  placeNew (placeNew [] (key.map fun c => foldJ (upper c))) (strOf "ABCDEFGHIKLMNOPQRSTUVWXYZ")

/-- The key square, for a key word that R33(b) allows (R195). -/
def keySquare? (key : Str) : Option (Vector Byte 25) :=
  if pfKeyWf key then
    if h : (squareLetters key).length = 25 then some ⟨(squareLetters key).toArray, by simpa using h⟩
    else none
  else none

/-- PFKEY (R195). With a key word that R33(b) excludes it is refused (log 15). -/
def execPfkey (s : State) : Host.Outcome State Fault Refusal :=
  match keySquare? s.build.cfg.pfKey with
  | some sq => runTask (fun _ => .ok (.square sq)) none s
  | none => .refused .illFormedConfiguration

/-- The letter at a row and a column (`20_memory.md` R63). -/
def squareAt (sq : Vector Byte 25) (r c : Fin 5) : Byte := sq[5 * r.val + c.val]'(by omega)

/-- `getPosition(sq, ch)` (R194). -/
def getPosition (sq : Vector Byte 25) (ch : Byte) : Except Code (Fin 5 × Fin 5) :=
  match (List.finRange 25).find? fun p => decide (sq[p] = ch) with
  | some p => .ok (⟨p.val / 5, by omega⟩, ⟨p.val % 5, by omega⟩)
  | none => .error .invalidInput

/-- `mod(i + d, 5)` (R198). -/
def turn (i : Fin 5) (d : Nat) : Fin 5 := Fin.ofNat 5 (i.val + d)

/-- `subst(sq, (a, b), d)` (R198). -/
def subst (sq : Vector Byte 25) (d : Nat) (a b : Byte) : Except Code (Byte × Byte) := do
  let (ra, ca) ← getPosition sq a
  let (rb, cb) ← getPosition sq b
  if ra = rb then .ok (squareAt sq ra (turn ca d), squareAt sq rb (turn cb d))
  else if ca = cb then .ok (squareAt sq (turn ra d) ca, squareAt sq (turn rb d) cb)
  else .ok (squareAt sq ra cb, squareAt sq rb ca)

/-- The digraphs of a text substituted from left to right and concatenated (R199). -/
def substAll (sq : Vector Byte 25) (d : Nat) : List (Byte × Byte) → Except Code Str
  | [] => .ok []
  | (a, b) :: rest => do
    let (x, y) ← subst sq d a b
    let out ← substAll sq d rest
    .ok (x :: y :: out)

/-- The function of PFENC (`d = 1`) and PFDEC (`d = 4`) (R199, R200). -/
def uopSubst (d : Nat) (o : Operands) : Except Code Value := do
  let sq ← asSquare o.prev
  let rv ← present o.refval
  let ps ← asPairs rv
  let out ← substAll sq d ps
  .ok (.str out)

/-- PFENC (R199). -/
def execPfenc (ref : BitVec 4) (s : State) : Host.Outcome State Fault Refusal :=
  runTask (uopSubst 1) (some ref) s

/-- PFDEC (R200). -/
def execPfdec (ref : BitVec 4) (s : State) : Host.Outcome State Fault Refusal :=
  runTask (uopSubst 4) (some ref) s

end Sys2Proof.Machine
end

