-- ==== Sys2Proof/Machine/Sdes.lean ====
section
/-!
DEFINITION. Machine/Sdes.lean: SLOCK, SUNLOCK, SFRAME, SKEYS, SIP, SFK1, SFK2, SSW, SRIP, SUNFR
(spec/45_sdes.md). A bit string of n positions is a `BitVec n` whose position 0 is its most
significant bit (spec/00_scope.md R14, spec/20_memory.md R64).
-/

namespace Sys2Proof.Machine

/-- SLOCK (R243). -/
def execSlock (s : State) : Host.Outcome State Fault Refusal := .next (s.launchIn 8 [])

/-- SUNLOCK (R244). -/
def execSunlock (s : State) : Host.Outcome State Fault Refusal := .next (s.launchIn 9 [])

/-- `perm(b, T)`: output position `i` takes the input bit at the table's entry `i` (R16). -/
def permBits {n m : Nat} (b : BitVec n) (t : Table n m) : BitVec m :=
  BitVec.ofFnBE fun i => b.getMsb t[i]

/-- `rotl1(h)` (R16). -/
def rotl1 (h : BitVec 5) : BitVec 5 := h.rotateLeft 1

/-- `keysched(key)`: the second rotation is by one more position (R246, C6). -/
def keySched (c : Cfg) : BitVec 8 × BitVec 8 :=
  let p := permBits c.sdesKey c.p10
  let l1 := rotl1 (p.extractLsb' 5 5)
  let r1 := rotl1 (p.extractLsb' 0 5)
  (permBits (l1 ++ r1) c.p8, permBits (rotl1 l1 ++ rotl1 r1) c.p8)

/-- The S-box output for a 4-position input `a`: row `2·a[0] + a[3]`, column `2·a[1] + a[2]`, as a
2-position bit string (R249). -/
def sboxOut (sb : SBox) (a : BitVec 4) : BitVec 2 :=
  let row : Fin 4 := Fin.ofNat 4 (2 * (a.getMsbD 0).toNat + (a.getMsbD 3).toNat)
  let col : Fin 4 := Fin.ofNat 4 (2 * (a.getMsbD 1).toNat + (a.getMsbD 2).toNat)
  BitVec.ofNat 2 (sb[row][col]).val

/-- The left half (positions 0 to 3) and the right half (positions 4 to 7) of a block. -/
def leftHalf (b : BitVec 8) : BitVec 4 := b.extractLsb' 4 4
def rightHalf (b : BitVec 8) : BitVec 4 := b.extractLsb' 0 4

/-- The 4 positions that `fK` combines with the left half: `p` of R249. -/
def roundBits (c : Cfg) (r : BitVec 4) (k : BitVec 8) : BitVec 4 :=
  let x := permBits r c.ep ^^^ k
  permBits (sboxOut c.s0 (leftHalf x) ++ sboxOut c.s1 (rightHalf x)) c.p4

/-- `fK(b, k)` (R249). -/
def fK (c : Cfg) (k b : BitVec 8) : BitVec 8 :=
  (roundBits c (rightHalf b) k ^^^ leftHalf b) ++ rightHalf b

/-- Swap halves (R252). -/
def swapHalves (b : BitVec 8) : BitVec 8 := rightHalf b ++ leftHalf b

/-- SFRAME's function (R245): a character of 8 bits is its own 8-position bit string (R64). -/
def uopSframe (o : Operands) : Except Code Value := do
  let m ← asStr o.prev
  .ok (.blocks m)

/-- SFRAME (R245). -/
def execSframe (s : State) : Host.Outcome State Fault Refusal := runTask uopSframe none s

/-- SKEYS's function (R247). -/
def uopSkeys (o : Operands) : Except Code Value :=
  .ok (.keys (keySched o.cfg).1 (keySched o.cfg).2)

/-- SKEYS (R247). -/
def execSkeys (s : State) : Host.Outcome State Fault Refusal := runTask uopSkeys none s

/-- SIP's function (R248). -/
def uopSip (o : Operands) : Except Code Value := do
  let rv ← present o.refval
  let bs ← asBlocks rv
  .ok (.blocks (bs.map fun b => permBits b o.cfg.ip))

/-- SIP (R248). -/
def execSip (ref : BitVec 4) (s : State) : Host.Outcome State Fault Refusal :=
  runTask uopSip (some ref) s

/-- SFK1's function (R250). -/
def uopSfk1 (o : Operands) : Except Code Value := do
  let bs ← asBlocks o.prev
  let rv ← present o.refval
  let ks ← asKeys rv
  .ok (.blocks (bs.map (fK o.cfg ks.1)))

/-- SFK1 (R250). -/
def execSfk1 (ref : BitVec 4) (s : State) : Host.Outcome State Fault Refusal :=
  runTask uopSfk1 (some ref) s

/-- SFK2's function (R251). -/
def uopSfk2 (o : Operands) : Except Code Value := do
  let bs ← asBlocks o.prev
  let rv ← present o.refval
  let ks ← asKeys rv
  .ok (.blocks (bs.map (fK o.cfg ks.2)))

/-- SFK2 (R251). -/
def execSfk2 (ref : BitVec 4) (s : State) : Host.Outcome State Fault Refusal :=
  runTask uopSfk2 (some ref) s

/-- SSW's function (R252). -/
def uopSsw (o : Operands) : Except Code Value := do
  let bs ← asBlocks o.prev
  .ok (.blocks (bs.map swapHalves))

/-- SSW (R252). -/
def execSsw (s : State) : Host.Outcome State Fault Refusal := runTask uopSsw none s

/-- SRIP's function (R253). -/
def uopSrip (o : Operands) : Except Code Value := do
  let bs ← asBlocks o.prev
  .ok (.blocks (bs.map fun b => permBits b o.cfg.rip))

/-- SRIP (R253). -/
def execSrip (s : State) : Host.Outcome State Fault Refusal := runTask uopSrip none s

/-- SUNFR's function (R254). -/
def uopSunfr (o : Operands) : Except Code Value := do
  let bs ← asBlocks o.prev
  .ok (.str bs)

/-- SUNFR (R254). -/
def execSunfr (s : State) : Host.Outcome State Fault Refusal := runTask uopSunfr none s

end Sys2Proof.Machine
end

