-- ==== Sys2Proof/Machine/Vigenere.lean ====
section
/-!
DEFINITION. Machine/Vigenere.lean: VLOCK, VUNLOCK, VFIX, VMKKEY, VNEG, VXLT (spec/42_vigenere.md).
-/

namespace Sys2Proof.Machine

/-- VLOCK (R171). -/
def execVlock (s : State) : Host.Outcome State Fault Refusal := .next (s.launchIn 2 [])

/-- VUNLOCK (R172). -/
def execVunlock (s : State) : Host.Outcome State Fault Refusal := .next (s.launchIn 3 [])

/-- Uppercase, then strip whitespace (R173). -/
def strip (m : Str) : Str := (m.map upper).filter fun c => !isWs c

/-- VFIX's function (R173). -/
def uopVfix (o : Operands) : Except Code Value := do
  let m ← asStr o.prev
  let vs ← symbols (strip m)
  .ok (.ints vs)

/-- VFIX (R173). -/
def execVfix (s : State) : Host.Outcome State Fault Refusal := runTask uopVfix none s

/-- The first `n` values of the key word's values repeated for ever (R174). -/
def keyStream (key : Str) (n : Nat) : List Int :=
  let kv := key.map fun c => sym (upper c)
  (List.range n).map fun i => kv.getD (i % kv.length) 0

/-- VMKKEY's function (R174). -/
def uopVmkkey (o : Operands) : Except Code Value := do
  let vs ← asInts o.prev
  .ok (.ints (keyStream o.cfg.vigKey vs.length))

/-- VMKKEY (R174). With a key word that R33(a) excludes it is refused (log 15). -/
def execVmkkey (s : State) : Host.Outcome State Fault Refusal :=
  if vigKeyWf s.build.cfg.vigKey then runTask uopVmkkey none s
  else .refused .illFormedConfiguration

/-- VNEG's function (R175). -/
def uopVneg (o : Operands) : Except Code Value := do
  let vs ← asInts o.prev
  .ok (.ints (vs.map fun v => -v))

/-- VNEG (R175). -/
def execVneg (s : State) : Host.Outcome State Fault Refusal := runTask uopVneg none s

/-- `translate` position by position (R176). -/
def translate (vals keys : List Int) : Str :=
  List.zipWith (fun v k => chr26 (mod26 (v + k))) vals keys

/-- VXLT's function (R176). -/
def uopVxlt (o : Operands) : Except Code Value := do
  let keys ← asInts o.prev
  let rv ← present o.refval
  let vals ← asInts rv
  if vals.length ≠ keys.length then .error .typeError
  else .ok (.str (translate vals keys))

/-- VXLT (R176). -/
def execVxlt (ref : BitVec 4) (s : State) : Host.Outcome State Fault Refusal :=
  runTask uopVxlt (some ref) s

end Sys2Proof.Machine
end

