-- ==== Sys2Proof/Machine/Dispatch.lean ====
section
/-!
DEFINITION. Machine/Dispatch.lean: one arm per instruction, in the order of spec/opcode_table.json.
-/

namespace Sys2Proof.Machine

def exec (i : Instr) (s : State) : Host.Outcome State Fault Refusal :=
  match i with
  | .exec flow => Sys2Proof.Machine.execExec flow s
  | .sub flow sink => Sys2Proof.Machine.execSub flow sink s
  | .fsub sink => Sys2Proof.Machine.execFsub sink s
  | .fadd flow => Sys2Proof.Machine.execFadd flow s
  | .frem => Sys2Proof.Machine.execFrem s
  | .pset imm => Sys2Proof.Machine.execPset imm s
  | .pclr => Sys2Proof.Machine.execPclr s
  | .clock imm => Sys2Proof.Machine.execClock imm s
  | .cunlock imm => Sys2Proof.Machine.execCunlock imm s
  | .vlock => Sys2Proof.Machine.execVlock s
  | .vunlock => Sys2Proof.Machine.execVunlock s
  | .plock => Sys2Proof.Machine.execPlock s
  | .punlock => Sys2Proof.Machine.execPunlock s
  | .hlock => Sys2Proof.Machine.execHlock s
  | .hunlock => Sys2Proof.Machine.execHunlock s
  | .slock => Sys2Proof.Machine.execSlock s
  | .sunlock => Sys2Proof.Machine.execSunlock s
  | .ident => Sys2Proof.Machine.execIdent s
  | .upper => Sys2Proof.Machine.execUpper s
  | .a2v => Sys2Proof.Machine.execA2v s
  | .cadd => Sys2Proof.Machine.execCadd s
  | .v2a => Sys2Proof.Machine.execV2a s
  | .vfix => Sys2Proof.Machine.execVfix s
  | .vmkkey => Sys2Proof.Machine.execVmkkey s
  | .vneg => Sys2Proof.Machine.execVneg s
  | .vxlt ref => Sys2Proof.Machine.execVxlt ref s
  | .pffix => Sys2Proof.Machine.execPffix s
  | .pfufix => Sys2Proof.Machine.execPfufix s
  | .pfkey => Sys2Proof.Machine.execPfkey s
  | .pfenc ref => Sys2Proof.Machine.execPfenc ref s
  | .pfdec ref => Sys2Proof.Machine.execPfdec ref s
  | .hfix => Sys2Proof.Machine.execHfix s
  | .hmulk => Sys2Proof.Machine.execHmulk s
  | .hmulu => Sys2Proof.Machine.execHmulu s
  | .hv2a => Sys2Proof.Machine.execHv2a s
  | .sframe => Sys2Proof.Machine.execSframe s
  | .skeys => Sys2Proof.Machine.execSkeys s
  | .sip ref => Sys2Proof.Machine.execSip ref s
  | .sfk1 ref => Sys2Proof.Machine.execSfk1 ref s
  | .sfk2 ref => Sys2Proof.Machine.execSfk2 ref s
  | .ssw => Sys2Proof.Machine.execSsw s
  | .srip => Sys2Proof.Machine.execSrip s
  | .sunfr => Sys2Proof.Machine.execSunfr s

end Sys2Proof.Machine
end

