-- ==== Sys2Proof/Machine/Flags.lean ====
section
/-!
DEFINITION. Machine/Flags.lean: the numbers of the completion codes and the control and status
registers as 32-bit words (spec/10_state.md R28 to R31, R42; spec/60_exceptions.md R280). The engine
has no other flags (R27).
-/

namespace Sys2Proof.Machine

/-- The number of a completion code (R31, R280). -/
def Code.num : Code → Nat
  | .ok => 0
  | .invalidName => 1
  | .invalidFlow => 2
  | .notFound => 3
  | .invalidObserver => 4
  | .invalidInput => 5
  | .typeError => 6
  | .illegalCommand => 7

/-! Each register is written with its most significant field first; a field holds its number modulo its
width (log 20). -/

/-- STATUS: BUSY [0], DONE [1], ERRF [2]. -/
def State.statusWord (s : State) : BitVec 32 :=
  0#29 ++ BitVec.ofBool s.status.errf ++ BitVec.ofBool s.status.done ++ BitVec.ofBool s.busy

/-- ERR: CODE [3:0], ESTEP [15:8]. -/
def State.errWord (s : State) : BitVec 32 :=
  0#16 ++ BitVec.ofNat 8 s.err.estep ++ 0#4 ++ BitVec.ofNat 4 s.err.code.num

/-- FLOW: ID [7:0], FVALID [8]. -/
def State.flowWord (s : State) : BitVec 32 :=
  0#23 ++ BitVec.ofBool s.flow.valid ++ BitVec.ofNat 8 s.flow.id

/-- STEP: [7:0]. -/
def State.stepWord (s : State) : BitVec 32 := 0#24 ++ BitVec.ofNat 8 s.stepIdx

/-- OUTTAG: TAG [2:0], OVALID [3]. -/
def State.outTagWord (s : State) : BitVec 32 :=
  0#28 ++ BitVec.ofBool s.ovalid ++ BitVec.ofNat 3 s.out.tag

/-- OUTLEN: the number of elements of OUT. A flow that chains PFFIX, PFKEY and PFENC can make OUT longer
than 32 bits count, and R28 does not say what OUTLEN reads then: a free value (DESIGN CHOICE,
log 28). -/
def State.outLenWord (s : State) : BitVec 32 :=
  if s.out.len < 2 ^ 32 then BitVec.ofNat 32 s.out.len else Config.longOutLen s.out.len

/-- The control and status registers by index (R28); CMD reads as 0 (R29). -/
def State.csr? (s : State) : Nat → Option (BitVec 32)
  | 0 => some 0
  | 1 => some s.statusWord
  | 2 => some s.errWord
  | 3 => some s.flowWord
  | 4 => some s.stepWord
  | 5 => some s.inLen
  | 6 => some s.nameLen
  | 7 => some s.outTagWord
  | 8 => some s.outLenWord
  | _ => none

end Sys2Proof.Machine
end

