-- ==== Sys2Proof/Machine/HostPort.lean ====
section
/-!
DEFINITION. Machine/HostPort.lean: the host's moves and reads (spec/10_state.md R28, R29, R40 to R46;
spec/20_memory.md R60 to R66; spec/70_reset_and_hazards.md R312, R320).
-/

namespace Sys2Proof.Machine

/-- A move of the host while BUSY = 0 (R46). `MemWrite` at or past the length register (R62), the preparation of
a cell outside the buffer (R40, R41), a length above its size and a text longer than it (R320 row 8) are no
moves of the host. -/
def hostMove (m : HostMove) (s : State) : Host.Outcome State Fault Refusal :=
  match m with
  | .writeCell sp i c =>
    match memWrite? s sp i [c] with
    | some s' => .next s'
    | none => .refused .noSuchHostMove
  | .prepareCell sp i c =>
    match memWrite? s sp i [c] with
    | some s' => .next s'
    | none => if i < s.cap sp then .next (s.hold sp i c) else .refused .noSuchHostMove
  | .writeLen sp n => if n.toNat ≤ s.cap sp then .next (s.setLen sp n) else .refused .noSuchHostMove
  | .writeText sp t =>
    if t.length ≤ s.cap sp ∧ t.length < 2 ^ 32 then .next (s.setText sp t) else .refused .noSuchHostMove
  | .writeCmd w => .next (s.accept w)

/-! ### Reads: no side effect (`20_memory.md` R66); `none` where R44 gives no access (log 19) -/

/-- A control or status register: STATUS at any time, the others while BUSY = 0 (R44). CMD reads as 0
while BUSY = 0, as R29 says, though the table of R44 gives no read of it, and like the others not
while BUSY = 1: the model's choice between the two (DESIGN CHOICE, log 26). -/
def hostCsr? (s : State) (idx : Nat) : Option (BitVec 32) :=
  if s.busy && !(idx == 1) then none else s.csr? idx

/-- `MemRead` by the host, while BUSY = 0 (R46, R62). -/
def hostRead? (s : State) (cs : CellSpace) (i n : Nat) : Option Str :=
  if s.busy then none else memRead? s cs i n

/-- A cell of IN or NAME. -/
def hostCell? (s : State) (sp : Space) (i : Nat) : Option Byte :=
  (hostRead? s (.buf sp) i 1).bind List.head?

/-- OUT, when OVALID = 1 (R42; `70_reset_and_hazards.md` R320 row 3). -/
def hostOut? (s : State) : Option Value :=
  if s.busy then none else if s.ovalid then some s.out else none

/-- An element of OUT, as its cells (R60, R62, R63; log 29). -/
def hostOutElem? (s : State) (i : Nat) : Option Str := hostRead? s .out i 1

/-- An entry of RES, by name (R43). -/
def hostRes? (s : State) (name : Str) : Option Value :=
  if s.busy then none else mapGet s.res name

/-- An element of an entry of RES, as its cells (`20_memory.md` R60, R63; log 29). -/
def hostResElem? (s : State) (name : Str) (i : Nat) : Option Str :=
  (hostRes? s name).bind fun v => v.elems[i]?

/-- PREV (R43), once an execution has been launched: before that it has no value (R49; log 5). -/
def hostPrev? (s : State) : Option Value :=
  if s.busy then none else if s.flow.valid then some s.prev else none

/-- The members of CFG (R32). -/
inductive CfgMember where
  | vigKey | pfKey | hillKey | hillUKey | sdesKey | p10 | p8 | ip | rip | ep | s0 | s1 | p4
  deriving DecidableEq, Repr

/-- The positions of a table as the spec numbers them, from 1 (`00_scope.md` R16). -/
def tablePositions {n m : Nat} (t : Table n m) : List Nat := t.toList.map fun p => p.val + 1

/-- The elements of a member of CFG in the order of the element index; readable at any time (R32, R44,
`20_memory.md` R60). That the index runs row by row over a matrix or an S-box, and over SDES_KEY as ten elements
0 or 1 from position 0 on, is the model's choice: the spec gives no order of them (DESIGN CHOICE, log 30). -/
def hostCfg (s : State) : CfgMember → List Nat
  | .vigKey => s.build.cfg.vigKey.map BitVec.toNat
  | .pfKey => s.build.cfg.pfKey.map BitVec.toNat
  | .hillKey => s.build.cfg.hillKey.toList.flatMap fun r => r.toList.map Fin.val
  | .hillUKey => s.build.cfg.hillUKey.toList.flatMap fun r => r.toList.map Fin.val
  | .sdesKey => (List.range 10).map fun i => (s.build.cfg.sdesKey.getMsbD i).toNat
  | .p10 => tablePositions s.build.cfg.p10
  | .p8 => tablePositions s.build.cfg.p8
  | .ip => tablePositions s.build.cfg.ip
  | .rip => tablePositions s.build.cfg.rip
  | .ep => tablePositions s.build.cfg.ep
  | .s0 => s.build.cfg.s0.toList.flatMap fun r => r.toList.map Fin.val
  | .s1 => s.build.cfg.s1.toList.flatMap fun r => r.toList.map Fin.val
  | .p4 => tablePositions s.build.cfg.p4

/-- A task record of the store (`20_memory.md` R60), while BUSY = 0: R46 and decision D29 let the host read
only STATUS and CFG while BUSY = 1, though the table of R44 names TASKS there too (DEDUCED, log 27). -/
def hostTask? (s : State) (f pos : Nat) : Option Task :=
  if s.busy then none else s.build.tasks[f]?.bind fun ts => ts[pos]?

end Sys2Proof.Machine
end

