-- ==== Sys2Proof/Machine/Engine.lean ====
section
/-!
DEFINITION. Machine/Engine.lean: the engine's own step and the step of the engine with the world outside
it, one architectural event a step (spec/70_reset_and_hazards.md R326; log 1, log 22).
-/

namespace Sys2Proof.Machine

/-- Execute the accepted command word (R80, R85). A build that is not well-formed is refused
(`10_state.md` R33). -/
def startCommand (w : BitVec 32) (s : State) : Host.Outcome State Fault Refusal :=
  if buildWf s.build then
    match decodeCommand w with
    | .ok i => exec i s
    | .error _ => .next (s.raise .illegalCommand 0)
  else .refused .illFormedConfiguration

/-- The next task of the execution in progress, or its end (`40_pipeline.md` R117, R119). -/
def runStep (s : State) : Host.Outcome State Fault Refusal :=
  match s.flowTasks? with
  | none => .fault .flowNamesNoFlow
  | some ts =>
    match ts[s.stepIdx]? with
    | some t =>
      match decodeTask t.word with
      | .ok i => exec i s
      | .error _ => .refused .undefinedTaskWord
    | none => if s.stepIdx = ts.length then .next s.finish else .fault .stepPastEnd

/-- The engine's own step. Idle, it waits for the host (R311); with an event pending it waits for the
sink, for ever if need be (R322). -/
def engineStep (s : State) : Host.Outcome State Fault Refusal :=
  match s.activity with
  | .idle => .next s
  | .command w => startCommand w s
  | .running _ =>
    match s.evp with
    | none => runStep s
    | some _ => .next s

/-- One step of the engine in its world: the next outside move in `env` if it can be made now, else
the engine's own step. A reset is made at once (R310); an acceptance waits until an event is offered
(R45); a host move waits while the engine can still move by itself, and is refused when only a sink
could (R46, log 14). -/
def worldStep (s : State) : Host.Outcome State Fault Refusal :=
  match s.env with
  | [] => engineStep s
  | .wait :: rest => engineStep { s with env := rest }
  | .reset :: rest => .next { s with env := rest }.resetNow
  | .sinkAccept :: rest =>
    match s.offered? with
    | some (k, p) => .next ({ s with env := rest }.deliver k p)
    | none => if s.busy then engineStep s else .refused .noEventOffered
  | .host m :: rest =>
    if s.busy then
      if s.evp.isSome then .refused .hostMoveWhileBusy else engineStep s
    else hostMove m { s with env := rest }

/-! ### Placing an instruction where the next step fetches it (log 2) -/

/-- Change element `n` of a list, first filled up with `d` as far as need be. -/
def setPad {α : Type} (d : α) (f : α → α) : List α → Nat → List α
  | [], 0 => [f d]
  | [], n + 1 => d :: setPad d f [] n
  | x :: xs, 0 => f x :: xs
  | x :: xs, n + 1 => x :: setPad d f xs n

/-- The build whose task at a flow and a position has word `w`. -/
def placeTask (b : Build) (f pos : Nat) (w : BitVec 16) : Build :=
  { b with tasks := setPad [] (fun ts => setPad ⟨[], [], 0⟩ (fun t => { t with word := w }) ts pos) b.tasks f }

/-- The outside moves without the resets that would come before the next step. -/
def dropResets (env : List EnvMove) : List EnvMove := env.dropWhile fun m => decide (m = .reset)

/-- The parameter mapping of an execution in progress, or the empty one. -/
def State.pmap (s : State) : NameMap Int :=
  match s.activity with
  | .running pm => pm
  | .idle => []
  | .command _ => []

/-- A command word (32 bits) is accepted, as after the host's write of CMD; a task word (16 bits) is
placed in the task store where FLOW and STEP point, in an execution in progress. -/
def placeFetchWord (s : State) (nbits w : Nat) : State :=
  if nbits = 32 then { s with evp := none, env := dropResets s.env }.accept (BitVec.ofNat 32 w)
  else if nbits = 16 then
    { s with
      build := placeTask s.build s.flow.id s.stepIdx (BitVec.ofNat 16 w)
      evp := none
      env := dropResets s.env
      activity := .running s.pmap }
  else s

end Sys2Proof.Machine
end

