-- ==== Sys2Proof/Machine/Step.lean ====
section
/-!
DEFINITION. Machine/Step.lean: one step of the machine, and the state in which the next step fetches a
given instruction.
-/

namespace Sys2Proof.Machine

def step (s : State) : Host.Outcome State Fault Refusal := worldStep s

def State.withFetchWord (s : State) (nbits w : Nat) : State := placeFetchWord s nbits w

end Sys2Proof.Machine
end

