-- ==== Sys2Proof/Machine/TableRows.lean ====
section
/-!
DEFINITION. Machine/TableRows.lean: the rows of spec/opcode_table.json as masks and matches, written from
that table and not from the decoder: a word is the row's instruction when its bits under the mask
are the match (spec/30_encoding.md R82, R85, R91, R92).
-/

namespace Sys2Proof.Machine

/-- Mask and match of each command (format H, 32 bits). -/
def commandRows : List (BitVec 32 × BitVec 32) :=
  [(0xFF00FFFF, 0x01000000),
   (0xFF0000FF, 0x02000000),
   (0xFFFF00FF, 0x03000000),
   (0xFF00FFFF, 0x04000000),
   (0xFFFFFFFF, 0x05000000),
   (0xFF000000, 0x06000000),
   (0xFFFFFFFF, 0x07000000),
   (0xFF000000, 0x10000000),
   (0xFF000000, 0x11000000),
   (0xFFFFFFFF, 0x20000000),
   (0xFFFFFFFF, 0x21000000),
   (0xFFFFFFFF, 0x30000000),
   (0xFFFFFFFF, 0x31000000),
   (0xFFFFFFFF, 0x40000000),
   (0xFFFFFFFF, 0x41000000),
   (0xFFFFFFFF, 0x50000000),
   (0xFFFFFFFF, 0x51000000)]

/-- Mask and match of each micro-operation (format T, 16 bits). -/
def taskRows : List (BitVec 16 × BitVec 16) :=
  [(0xFFFF, 0x0000),
   (0xFFFF, 0x1000),
   (0xFFFF, 0x1100),
   (0xFFFF, 0x1200),
   (0xFFFF, 0x1300),
   (0xFFFF, 0x2000),
   (0xFFFF, 0x2100),
   (0xFFFF, 0x2200),
   (0xFF0F, 0x2300),
   (0xFFFF, 0x3000),
   (0xFFFF, 0x3100),
   (0xFFFF, 0x3200),
   (0xFF0F, 0x3300),
   (0xFF0F, 0x3400),
   (0xFFFF, 0x4000),
   (0xFFFF, 0x4100),
   (0xFFFF, 0x4200),
   (0xFFFF, 0x4300),
   (0xFFFF, 0x5000),
   (0xFFFF, 0x5100),
   (0xFF0F, 0x5200),
   (0xFF0F, 0x5300),
   (0xFF0F, 0x5400),
   (0xFFFF, 0x5500),
   (0xFFFF, 0x5600),
   (0xFFFF, 0x5700)]

/-- Mask and match of an instruction's row, as numbers. -/
def tableRow : Instr → Nat × Nat
  | .exec _ => (0xFF00FFFF, 0x01000000)
  | .sub _ _ => (0xFF0000FF, 0x02000000)
  | .fsub _ => (0xFFFF00FF, 0x03000000)
  | .fadd _ => (0xFF00FFFF, 0x04000000)
  | .frem => (0xFFFFFFFF, 0x05000000)
  | .pset _ => (0xFF000000, 0x06000000)
  | .pclr => (0xFFFFFFFF, 0x07000000)
  | .clock _ => (0xFF000000, 0x10000000)
  | .cunlock _ => (0xFF000000, 0x11000000)
  | .vlock => (0xFFFFFFFF, 0x20000000)
  | .vunlock => (0xFFFFFFFF, 0x21000000)
  | .plock => (0xFFFFFFFF, 0x30000000)
  | .punlock => (0xFFFFFFFF, 0x31000000)
  | .hlock => (0xFFFFFFFF, 0x40000000)
  | .hunlock => (0xFFFFFFFF, 0x41000000)
  | .slock => (0xFFFFFFFF, 0x50000000)
  | .sunlock => (0xFFFFFFFF, 0x51000000)
  | .ident => (0xFFFF, 0x0000)
  | .upper => (0xFFFF, 0x1000)
  | .a2v => (0xFFFF, 0x1100)
  | .cadd => (0xFFFF, 0x1200)
  | .v2a => (0xFFFF, 0x1300)
  | .vfix => (0xFFFF, 0x2000)
  | .vmkkey => (0xFFFF, 0x2100)
  | .vneg => (0xFFFF, 0x2200)
  | .vxlt _ => (0xFF0F, 0x2300)
  | .pffix => (0xFFFF, 0x3000)
  | .pfufix => (0xFFFF, 0x3100)
  | .pfkey => (0xFFFF, 0x3200)
  | .pfenc _ => (0xFF0F, 0x3300)
  | .pfdec _ => (0xFF0F, 0x3400)
  | .hfix => (0xFFFF, 0x4000)
  | .hmulk => (0xFFFF, 0x4100)
  | .hmulu => (0xFFFF, 0x4200)
  | .hv2a => (0xFFFF, 0x4300)
  | .sframe => (0xFFFF, 0x5000)
  | .skeys => (0xFFFF, 0x5100)
  | .sip _ => (0xFF0F, 0x5200)
  | .sfk1 _ => (0xFF0F, 0x5300)
  | .sfk2 _ => (0xFF0F, 0x5400)
  | .ssw => (0xFFFF, 0x5500)
  | .srip => (0xFFFF, 0x5600)
  | .sunfr => (0xFFFF, 0x5700)

end Sys2Proof.Machine
end

