-- ==== Sys2Proof/Safety.lean ====
section
/-!
DEFINITION. Safety.lean: the terms that claims about the engine use: which states a run can reach
(invariants), what an instruction leaves unchanged, and what the end of a task, the raising of an
exception, the completion and the launch of a command do to every piece of state.
-/

namespace Sys2Proof.Machine

/-! ### Invariants -/

/-- The integers of a Value lie in -25..25 (`00_scope.md` R18); its other shapes are sized by type. -/
def Value.wf : Value → Bool
  | .ints vs => vs.all fun v => decide (-25 ≤ v) && decide (v ≤ 25)
  | .str _ | .pairs _ | .square _ | .rows _ | .blocks _ | .keys _ _ => true

/-- IN and NAME hold cells below their length registers in canonical form (log 18), the lengths are within the
sizes (`10_state.md` R28, R40, R41; `20_memory.md` R62), the held writes are of cells of the buffers that no
length has taken in (log 9), and the epochs of the free values are in canonical form (log 7). -/
structure State.MemoryInv (s : State) : Prop where
  inWf : Memory.wf s.inBuf
  nameWf : Memory.wf s.nameBuf
  inCells : ∀ e ∈ s.inBuf, e.1 < s.inLen.toNat
  nameCells : ∀ e ∈ s.nameBuf, e.1 < s.nameLen.toNat
  inLen : s.inLen.toNat ≤ s.build.maxLen
  nameLen : s.nameLen.toNat ≤ s.build.nameMax
  inFree : freeWf s.fresh s.inFree
  nameFree : freeWf s.fresh s.nameFree
  inHeldWf : Memory.wf s.inHeld
  nameHeldWf : Memory.wf s.nameHeld
  inHeld : ∀ e ∈ s.inHeld, s.inLen.toNat ≤ e.1 ∧ e.1 < s.build.maxLen
  nameHeld : ∀ e ∈ s.nameHeld, s.nameLen.toNat ≤ e.1 ∧ e.1 < s.build.nameMax

/-- The maps are in canonical form (log 18). -/
structure State.MapsInv (s : State) : Prop where
  res : mapWf nameLt s.res
  reg : mapWf nameLt s.reg
  params : mapWf nameLt s.params
  obs : mapWf idxLt s.obs

/-- The registry binds non-empty names of at most NAMEMAX characters to flows (R36). -/
def State.RegInv (s : State) : Prop :=
  ∀ e ∈ s.reg, e.1 ≠ [] ∧ e.1.length ≤ s.build.nameMax ∧ e.2 < nflows s.build

/-- Observer lists are lists of distinct sinks, of flows (R37). -/
def State.ObsInv (s : State) : Prop :=
  ∀ e ∈ s.obs, e.1 < nflows s.build ∧ e.2 ≠ [] ∧ e.2.Nodup ∧ ∀ k ∈ e.2, k < s.build.nsinks

/-- PARAMS holds integers in -2^23..2^23-1 (R38). -/
def State.ParamsInv (s : State) : Prop := ∀ e ∈ s.params, -8388608 ≤ e.2 ∧ e.2 ≤ 8388607

/-- PREV, OUT and RES hold Values of R18. -/
def State.ValuesInv (s : State) : Prop :=
  s.prev.wf = true ∧ s.out.wf = true ∧ ∀ e ∈ s.res, e.2.wf = true

/-- RES has an entry for exactly the first `k` tasks of a flow (R22). -/
def resHolds (s : State) (ts : List Task) (k : Nat) : Prop :=
  ∀ n, (mapGet s.res n).isSome = true ↔ n ∈ (ts.take k).map Task.name

/-- Between executions no event is pending; during one FLOW names the flow, OVALID is 0, STEP is at
most the flow's length, RES holds the tasks done, and a pending event is the one of the task at STEP,
waiting for a sink of the flow (R22, R25, R26, R39, R42). -/
def State.ExecInv (s : State) : Prop :=
  match s.activity with
  | .idle => s.evp = none
  | .command _ => s.evp = none
  | .running _ => s.flow.valid = true ∧ s.ovalid = false ∧ ∃ ts, s.flowTasks? = some ts ∧
      match s.evp with
      | none => s.stepIdx ≤ ts.length ∧ resHolds s ts s.stepIdx
      | some p => p.next < s.sinks.length ∧ resHolds s ts (s.stepIdx + 1) ∧
          ∃ t, ts[s.stepIdx]? = some t ∧ p.event = ⟨t.name, t.description, s.prev, s.res⟩

/-- Every state that a run of a well-formed build from reset reaches satisfies this. -/
structure State.Inv (s : State) : Prop where
  build : buildWf s.build = true
  memory : s.MemoryInv
  maps : s.MapsInv
  reg : s.RegInv
  obs : s.ObsInv
  params : s.ParamsInv
  values : s.ValuesInv
  step : s.stepIdx ≤ maxSteps
  exec : s.ExecInv

/-- The step ends in a next state. -/
def goesOn (o : Host.Outcome State Fault Refusal) : Prop := ∃ s', o = .next s'

/-! ### Frames and effects -/

/-- What no instruction writes: the build, the host's buffers (every cell, the lengths and the held writes),
and the outside world's moves and acceptances (R44). -/
structure Untouched (s s' : State) : Prop where
  build : s'.build = s.build
  cells : ∀ sp i, s'.cell sp i = s.cell sp i
  inBuf : s'.inBuf = s.inBuf
  nameBuf : s'.nameBuf = s.nameBuf
  inLen : s'.inLen = s.inLen
  nameLen : s'.nameLen = s.nameLen
  env : s'.env = s.env
  trace : s'.trace = s.trace
  fresh : s'.fresh = s.fresh
  inFree : s'.inFree = s.inFree
  nameFree : s'.nameFree = s.nameFree
  inHeld : s'.inHeld = s.inHeld
  nameHeld : s'.nameHeld = s.nameHeld

/-- Task `t` may run in `s` with the parameter mapping `pm`. -/
structure TaskReady (s : State) (t : Task) (pm : NameMap Int) : Prop where
  running : s.activity = .running pm
  noEvent : s.evp = none
  task : s.task? = some t

/-- Task `t` returned `v`: the writes of `40_pipeline.md` R117, the event offered to the first sink
(or, with no sink, STEP advanced), and nothing else. -/
structure TaskDone (s : State) (t : Task) (v : Value) (s' : State) : Prop where
  prev : s'.prev = v
  resHere : mapGet s'.res t.name = some v
  resElse : ∀ n, n ≠ t.name → mapGet s'.res n = mapGet s.res n
  noSink : s.sinks = [] → s'.evp = none ∧ s'.stepIdx = s.stepIdx + 1
  sink : s.sinks ≠ [] →
    s'.evp = some ⟨⟨t.name, t.description, v, s'.res⟩, 0⟩ ∧ s'.stepIdx = s.stepIdx
  activity : s'.activity = s.activity
  flow : s'.flow = s.flow
  status : s'.status = s.status
  err : s'.err = s.err
  reg : s'.reg = s.reg
  obs : s'.obs = s.obs
  params : s'.params = s.params
  out : s'.out = s.out
  ovalid : s'.ovalid = s.ovalid
  rest : Untouched s s'

/-- A command completed with code `c` and ESTEP `e` (`10_state.md` R30, R31), and neither the result
registers nor an event are touched. -/
structure Completed (s : State) (c : Code) (e : Nat) (s' : State) : Prop where
  idle : s'.activity = .idle
  done : s'.status.done = true
  errf : s'.status.errf = decide (c ≠ .ok)
  code : s'.err.code = c
  estep : s'.err.estep = e
  prev : s'.prev = s.prev
  res : s'.res = s.res
  stepIdx : s'.stepIdx = s.stepIdx
  flow : s'.flow = s.flow
  evp : s'.evp = s.evp
  rest : Untouched s s'

/-- `Completed`, and the words of STATUS, ERR, FLOW and STEP field by field, the most significant first
(`10_state.md` R28); `n` is the number of the code `c` (`60_exceptions.md` R280). -/
structure CompletedAs (s : State) (c : Code) (n e : Nat) (s' : State) : Prop where
  completed : Completed s c e s'
  statusWord : s'.statusWord = 0#29 ++ (if c = .ok then 0#1 else 1#1) ++ 1#1 ++ 0#1
  errWord : s'.errWord = 0#16 ++ BitVec.ofNat 8 e ++ 0#4 ++ BitVec.ofNat 4 n
  flowWord : s'.flowWord = 0#23 ++ BitVec.ofBool s.flow.valid ++ BitVec.ofNat 8 s.flow.id
  stepWord : s'.stepWord = 0#24 ++ BitVec.ofNat 8 s.stepIdx

/-- The stores that commands write are as before: REG, OBS, PARAMS, OUT. -/
structure SameStores (s s' : State) : Prop where
  reg : s'.reg = s.reg
  obs : s'.obs = s.obs
  params : s'.params = s.params
  out : s'.out = s.out

/-- An exception was taken: completion with a code other than OK, and nothing else changed
(`60_exceptions.md` R283 to R285, R291). -/
structure Raised (s : State) (c : Code) (e : Nat) (s' : State) : Prop where
  notOk : c ≠ .ok
  completed : Completed s c e s'
  stores : SameStores s s'
  ovalid : s'.ovalid = s.ovalid

/-- An execution of flow `f` was launched (`40_pipeline.md` R116), and nothing else changed. -/
structure Launched (s : State) (f : Nat) (input : Value) (pm : NameMap Int) (s' : State) : Prop where
  flow : s'.flow = ⟨f, true⟩
  stepIdx : s'.stepIdx = 0
  res : s'.res = []
  prev : s'.prev = input
  ovalid : s'.ovalid = false
  activity : s'.activity = .running pm
  status : s'.status = s.status
  err : s'.err = s.err
  evp : s'.evp = s.evp
  flowWord : s'.flowWord = 0#23 ++ 1#1 ++ BitVec.ofNat 8 f
  stepWord : s'.stepWord = 0
  stores : SameStores s s'
  rest : Untouched s s'

/-- Micro-operation `i` returns `v` as the result of task `t`. -/
def Returns (i : Instr) (s : State) (t : Task) (v : Value) : Prop :=
  ∃ s', exec i s = .next s' ∧ TaskDone s t v s'

/-- Micro-operation `i` raises `c`, with ESTEP = STEP (R284). -/
def RaisesInTask (i : Instr) (s : State) (c : Code) : Prop :=
  ∃ s', exec i s = .next s' ∧ Raised s c s.stepIdx s'

/-- Micro-operation `i` raises `c`, whose number is `n`, and the registers read so. -/
def RaisesInTaskAs (i : Instr) (s : State) (c : Code) (n : Nat) : Prop :=
  ∃ s', exec i s = .next s' ∧ Raised s c s.stepIdx s' ∧ CompletedAs s c n s.stepIdx s'

/-- Command `i` raises `c`, whose number is `n`, and the registers read so. -/
def RaisesAtOnce (i : Instr) (s : State) (c : Code) (n : Nat) : Prop :=
  ∃ s', exec i s = .next s' ∧ Raised s c 0 s' ∧ CompletedAs s c n 0 s'

/-- Command `i` launches flow `f` on the text in IN with mapping `pm`. -/
def Launches (i : Instr) (s : State) (f : Nat) (pm : NameMap Int) : Prop :=
  ∃ s', exec i s = .next s' ∧ Launched s f (.str s.inText) pm s'

/-- What the host sees of a Value in OUT: the tag of its shape, the number of its elements, and each element's
cells (`10_state.md` R42; `20_memory.md` R60, R61, R63). -/
def Value.ShownAs (v : Value) (tag count : Nat) (elem : Nat → Option Str) : Prop :=
  match v with
  | .str m => tag = 0 ∧ count = m.length ∧ ∀ i : Nat, elem i = m[i]?.map fun c => [c]
  | .ints vs => tag = 1 ∧ count = vs.length ∧ ∀ i : Nat, elem i = vs[i]?.map fun v => [BitVec.ofInt 8 v]
  | .pairs ps => tag = 2 ∧ count = ps.length ∧ ∀ i : Nat, elem i = ps[i]?.map fun p => [p.1, p.2]
  | .square sq => tag = 3 ∧ count = 25 ∧
      (∀ r c : Fin 5, elem (5 * r.val + c.val) = some [sq[5 * r.val + c.val]]) ∧ ∀ i, 25 ≤ i → elem i = none
  | .rows rs => tag = 4 ∧ count = rs.length ∧
      ∀ i : Nat, elem i = rs[i]?.map fun r => [BitVec.ofNat 8 r[0].val, BitVec.ofNat 8 r[1].val, BitVec.ofNat 8 r[2].val]
  | .blocks bs => tag = 5 ∧ count = bs.length ∧ ∀ i : Nat, elem i = bs[i]?.map fun b => [b]
  | .keys k1 k2 => tag = 6 ∧ count = 2 ∧ elem 0 = some [k1] ∧ elem 1 = some [k2] ∧ ∀ i, 2 ≤ i → elem i = none

/-- The next outside move, if any, waits for the engine: the host waits for BUSY = 0, a sink for an
event. -/
def State.worldWaits (s : State) : Prop :=
  s.env = [] ∨ (∃ m rest, s.env = .host m :: rest) ∨ ∃ rest, s.env = .sinkAccept :: rest

/-! ### The spec's own procedures, where the model computes by a recursion of another shape -/

/-- The loop of PFFIX word for word (`43_playfair.md` R196): while `i + 1 < len(s)`, put `X` between
`s[i]` and `s[i+1]` if they are equal, then add 2 to `i`. The first argument bounds the number of
rounds; a string's length is enough, since every round brings `i` nearer to the end. -/
def insertFillers : Nat → Str → Nat → Str
  | 0, s, _ => s
  | n + 1, s, i =>
    match s[i]?, s[i + 1]? with
    | some a, some b =>
      insertFillers n (if a = b then s.take (i + 1) ++ letterX :: s.drop (i + 1) else s) (i + 2)
    | _, _ => s

/-- Append `X` to a string of odd length (`43_playfair.md` R196). -/
def padEven (s : Str) : Str := if s.length % 2 = 1 then s ++ [letterX] else s

/-- `encode(b, ka, kb)` (`45_sdes.md` R256). -/
def encodeBlock (c : Cfg) (ka kb b : BitVec 8) : BitVec 8 :=
  permBits (fK c kb (swapHalves (fK c ka (permBits b c.ip)))) c.rip

end Sys2Proof.Machine
end

