-- ==== Sys2Proof/Certificates/Slice0/Obligations.lean ====
section
/-!
DEFINITION. Certificates/Slice0/Obligations.lean: the statements for the provers, from the numbered
rules of the spec. Statements about one instruction hold for every state and operand; a hypothesis
`TaskReady s t pm` says that a micro-operation is what the executor runs next (spec/40_pipeline.md
R117). Where a command completes or raises, the words of STATUS, ERR, FLOW and STEP are stated field by
field (spec/10_state.md R28, R30, R31), and the number beside a code is its number (spec/60_exceptions.md
R280).
-/

open Sys2Proof Sys2Proof.Machine

/-! ### Encodings -/

/-- R81, R82, R90, R92: decoding the word of any instruction gives it back, whatever its operands.
[Rests on the spec's own decisions D27, D28.] -/
def Obligations.DecodeOfEncode : Prop :=
  ∀ i : Instr, decodeTableWord i.width (encode i) = some i

/-- R80, R85, R91: a word that decodes is the word of the instruction it decodes to, so no bit of it is
dropped; CMD words give commands only, task words micro-operations only.
[Rests on the spec's own decisions D28, D30.] -/
def Obligations.EncodeOfDecode : Prop :=
  (∀ w i, decodeCommand w = .ok i → i.isCommand = true ∧ encodeCommand i = w) ∧
  (∀ w i, decodeTask w = .ok i → i.isCommand = false ∧ encodeTask i = w)

/-- R82, R85: the command words that decode are those that match a row of the opcode table.
[Rests on the spec's own decisions D27, D30.] -/
def Obligations.DefinedCommandWords : Prop :=
  ∀ w, (∃ i, decodeCommand w = .ok i) ↔ ∃ r ∈ commandRows, w &&& r.1 = r.2

/-- R91: a task word is defined when UOP is one of the 26, bits [3:0] are 0, and REF is 0 if the row has
no REF operand.
[Rests on the spec's own decisions D28.] -/
def Obligations.DefinedTaskWords : Prop :=
  ∀ w, (∃ i, decodeTask w = .ok i) ↔ ∃ r ∈ taskRows, w &&& r.1 = r.2

/-- R81, R82, R90 to R92: the words EN1, EN3, EN7, EN8, EN10, EN11, EN17, EN19, EN23, EN25 that the spec writes
out decode as it says.
[Rests on the spec's own decisions D27, D28.] -/
def Obligations.WordsOfTheSpecDecode : Prop :=
  decodeCommand 0x10000005 = .ok (.clock 5) ∧ decodeCommand 0x10FFFF9C = .ok (.clock (BitVec.ofInt 24 (-100))) ∧
  decodeCommand 0x02000200 = .ok (.sub 0 2) ∧ decodeCommand 0x010A0000 = .ok (.exec 10) ∧
  decodeCommand 0x03000100 = .ok (.fsub 1) ∧ decodeCommand 0x040A0000 = .ok (.fadd 10) ∧
  decodeCommand 0x00000000 = .error .reservedOp ∧ decodeCommand 0x20000001 = .error .nonzeroField ∧
  decodeTask 0x5310 = .ok (.sfk1 1) ∧ decodeTask 0x1210 = .error .unusedRef

/-! ### The step -/

/-- A step executes the accepted command: when the word in CMD decodes to `i`, the step is `exec i`,
with nothing around it; while the world outside waits, or uses the step up in `wait`.
[Rests on log 1, 22.] -/
def Obligations.StepRunsCommand : Prop :=
  ∀ (s : State) (w : BitVec 32) (i : Instr), s.activity = .command w → s.evp = none →
    buildWf s.build = true → decodeCommand w = .ok i →
    (s.worldWaits → step s = exec i s) ∧
    (∀ rest, s.env = .wait :: rest → step s = exec i { s with env := rest })

/-- A step executes the task word at STEP: when it decodes to `i`, the step is `exec i`; the advance of
STEP is part of what `exec i` does (`TaskDone`).
[Rests on log 1, 22.] -/
def Obligations.StepRunsTask : Prop :=
  ∀ (s : State) (t : Task) (pm : NameMap Int) (i : Instr), TaskReady s t pm → decodeTask t.word = .ok i →
    (s.worldWaits → step s = exec i s) ∧
    (∀ rest, s.env = .wait :: rest → step s = exec i { s with env := rest })

/-- R28, R30, R31, R280, R291: a command word that R85 calls illegal (it matches no row of the opcode table)
completes with IllegalCommandError and changes no other state: STATUS reads 6 (DONE and ERRF), ERR 7, FLOW and STEP
as before.
[Rests on the spec's own decisions D26, D27, D30, D37; log 22.] -/
def Obligations.IllegalCommandCompletes : Prop :=
  ∀ (s : State) (w : BitVec 32), s.activity = .command w → s.evp = none → buildWf s.build = true →
    s.worldWaits → (∀ r ∈ commandRows, w &&& r.1 ≠ r.2) →
    ∃ s', step s = .next s' ∧ Raised s .illegalCommand 0 s' ∧ CompletedAs s .illegalCommand 7 0 s' ∧
      s'.statusWord = 6 ∧ s'.errWord = 7 ∧ s'.flowWord = s.flowWord ∧ s'.stepWord = s.stepWord

/-- R28, R42, R43, R44, R60, R62, R63, R119: when STEP has reached the end of the flow, OUT gets PREV, TAG and OUTLEN are set from
it, OVALID becomes 1 and the command completes with OK; nothing else changes. From then on the host reads STATUS = 2
(DONE), ERR = 0, FLOW, STEP, the lengths, the tag and the number of elements of OUT, its elements up to OUTLEN, each in
its cells, and none beyond, every entry of RES, PREV, and the cells of IN and NAME below their lengths.
[Rests on the spec's own decisions D26, D27, D33; the spec's own derivations in R62, R119; log 19, 22, 28, 29.] -/
def Obligations.ExecutionEnds : Prop :=
  ∀ (s : State) (pm : NameMap Int) (ts : List Task), s.activity = .running pm → s.evp = none →
    s.flowTasks? = some ts → s.stepIdx = ts.length → s.worldWaits →
    ∃ s', step s = .next s' ∧ CompletedAs s .ok 0 0 s' ∧ s'.out = s.prev ∧ s'.ovalid = true ∧
      s'.reg = s.reg ∧ s'.obs = s.obs ∧ s'.params = s.params ∧
      hostCsr? s' 1 = some 2 ∧ hostCsr? s' 2 = some 0 ∧
      hostCsr? s' 3 = some (0#23 ++ BitVec.ofBool s.flow.valid ++ BitVec.ofNat 8 s.flow.id) ∧
      hostCsr? s' 4 = some (0#24 ++ BitVec.ofNat 8 ts.length) ∧
      hostCsr? s' 5 = some s.inLen ∧ hostCsr? s' 6 = some s.nameLen ∧
      hostOut? s' = some s.prev ∧
      (∃ tag count, s.prev.ShownAs tag count (hostOutElem? s') ∧
        hostCsr? s' 7 = some (0#28 ++ 1#1 ++ BitVec.ofNat 3 tag) ∧
        (count < 2 ^ 32 → hostCsr? s' 8 = some (BitVec.ofNat 32 count))) ∧
      (∀ name, hostRes? s' name = mapGet s.res name) ∧
      (s.flow.valid = true → hostPrev? s' = some s.prev) ∧
      ∀ sp i, hostCell? s' sp i = if i < (s.len sp).toNat then some (s.cell sp i) else none

/-- R28, R29, R30, R44, R46: a host write of CMD while BUSY = 0 starts that command: BUSY becomes 1, DONE and ERRF 0, so
that STATUS reads 1, and nothing else changes: what the host wrote into the buffers, or holds ready for them, stays. In
every state with BUSY = 1 (a command just accepted, an execution in progress, an event pending) the host reads STATUS and
CFG and nothing else.
[Rests on the spec's own decisions D26, D27, D29; log 1, 9, 19, 26, 27.] -/
def Obligations.CommandAccepted : Prop :=
  (∀ (s : State) (w : BitVec 32) (rest : List EnvMove), s.busy = false → s.env = .host (.writeCmd w) :: rest →
    ∃ s', step s = .next s' ∧ s'.busy = true ∧ s'.statusWord = 1 ∧ s'.errWord = s.errWord ∧ s'.flowWord = s.flowWord ∧
      s'.inText = s.inText ∧ s'.nameText = s.nameText ∧
      s' = { s with env := rest, activity := .command w, status := ⟨false, false⟩ }) ∧
  ∀ s : State, s.busy = true →
    hostCsr? s 1 = some (0#29 ++ BitVec.ofBool s.status.errf ++ BitVec.ofBool s.status.done ++ 1#1) ∧
    (∀ m, hostCfg s m = hostCfg { s with activity := .idle } m) ∧
    (∀ idx, idx ≠ 1 → hostCsr? s idx = none) ∧ hostOut? s = none ∧ (∀ i, hostOutElem? s i = none) ∧
    hostPrev? s = none ∧ (∀ name, hostRes? s name = none) ∧ (∀ name i, hostResElem? s name i = none) ∧
    (∀ cs i n, hostRead? s cs i n = none) ∧ (∀ sp i, hostCell? s sp i = none) ∧ ∀ f pos, hostTask? s f pos = none

/-- R40, R41, R46, R62, R66, R95, R312: what the host writes into IN and NAME while BUSY = 0. `writeCell` is the access of
R62: below the length register the cell reads as written, at or past it the host has no such move. `prepareCell` is the
write of R312(d), before or after the length: below the length it is that access, elsewhere in the buffer it is held and
changes no cell, and outside the buffer it is no move. A write of a length up to the size makes the held writes below it and
leaves every other cell below it; a write of a text sets cells and length together; above the size neither is a move. In
every state of the memory invariant, a prepared cell and then the length that takes it in leave what the length and then the
cell leave: the same readable cells and lengths, the same held writes, and everything else the same.
[Rests on the spec's own decisions D2, D27, D29, D33; the spec's own derivations in R62; log 1, 7, 8, 9, 14.] -/
def Obligations.HostWritesBuffers : Prop :=
  ∀ (s : State) (rest : List EnvMove) (sp : Space), s.busy = false →
    (∀ i c, s.env = .host (.writeCell sp i c) :: rest ∨ s.env = .host (.prepareCell sp i c) :: rest →
      i < (s.len sp).toNat → ∃ s', step s = .next s' ∧ s'.cell sp i = c ∧ hostCell? s' sp i = some c ∧
        (∀ sp' j, (sp', j) ≠ (sp, i) → s'.cell sp' j = s.cell sp' j) ∧
        s' = { s with env := rest, inBuf := s'.inBuf, nameBuf := s'.nameBuf }) ∧
    (∀ i c, s.env = .host (.writeCell sp i c) :: rest → (s.len sp).toNat ≤ i → step s = .refused .noSuchHostMove) ∧
    (∀ i c, s.env = .host (.prepareCell sp i c) :: rest → (s.len sp).toNat ≤ i →
      (i < s.cap sp → ∃ s', step s = .next s' ∧ hostCell? s' sp i = none ∧
        (∀ sp' j, mapGet (s'.held sp') j = if sp' = sp ∧ j = i then some c else mapGet (s.held sp') j) ∧
        s' = { s with env := rest, inHeld := s'.inHeld, nameHeld := s'.nameHeld }) ∧
      (s.cap sp ≤ i → step s = .refused .noSuchHostMove)) ∧
    (∀ n, s.env = .host (.writeLen sp n) :: rest →
      (n.toNat ≤ s.cap sp → ∃ s', step s = .next s' ∧ s'.len sp = n ∧ (∀ sp', sp' ≠ sp → s'.len sp' = s.len sp') ∧
        (∀ j, j < n.toNat → s'.cell sp j = (mapGet (s.held sp) j).getD (s.cell sp j)) ∧
        (∀ sp' j, sp' ≠ sp → s'.cell sp' j = s.cell sp' j) ∧
        (∀ sp' j, mapGet (s'.held sp') j = if sp' = sp ∧ j < n.toNat then none else mapGet (s.held sp') j) ∧
        s' = { s with
          env := rest, inBuf := s'.inBuf, inLen := s'.inLen, nameBuf := s'.nameBuf, nameLen := s'.nameLen
          fresh := s'.fresh, inFree := s'.inFree, nameFree := s'.nameFree, inHeld := s'.inHeld, nameHeld := s'.nameHeld }) ∧
      (s.cap sp < n.toNat → step s = .refused .noSuchHostMove)) ∧
    (∀ t, s.env = .host (.writeText sp t) :: rest →
      (t.length ≤ s.cap sp → t.length < 2 ^ 32 → ∃ s', step s = .next s' ∧ (s'.len sp).toNat = t.length ∧
        memRead s' sp 0 t.length = t ∧ (∀ sp', sp' ≠ sp → s'.len sp' = s.len sp') ∧
        (∀ sp' j, sp' ≠ sp → s'.cell sp' j = s.cell sp' j) ∧
        (∀ sp' j, mapGet (s'.held sp') j = if sp' = sp ∧ j < t.length then none else mapGet (s.held sp') j) ∧
        s' = { s with
          env := rest, inBuf := s'.inBuf, inLen := s'.inLen, nameBuf := s'.nameBuf, nameLen := s'.nameLen
          fresh := s'.fresh, inFree := s'.inFree, nameFree := s'.nameFree, inHeld := s'.inHeld, nameHeld := s'.nameHeld }) ∧
      (s.cap sp < t.length → step s = .refused .noSuchHostMove)) ∧
    ∀ i c n, s.MemoryInv → i < n.toNat → n.toNat ≤ s.cap sp →
      ∃ a b, Host.Core.run Sys2Proof.core 2
          { s with env := .host (.prepareCell sp i c) :: .host (.writeLen sp n) :: rest } = .next a ∧
        Host.Core.run Sys2Proof.core 2
          { s with env := .host (.writeLen sp n) :: .host (.prepareCell sp i c) :: rest } = .next b ∧
        a.cell sp i = c ∧ a.len sp = n ∧ (∀ sp' j, hostCell? a sp' j = hostCell? b sp' j) ∧
        (∀ sp' j, mapGet (a.held sp') j = mapGet (b.held sp') j) ∧
        b = { a with inBuf := b.inBuf, nameBuf := b.nameBuf, inHeld := b.inHeld, nameHeld := b.nameHeld }

/-- R25, R39, R70, R111: the sink at the pending position accepts the event; the next sink in subscription
order is then offered it, and after the last one STEP advances by 1; nothing else changes.
[Rests on the spec's own decisions D12; the spec's own derivations in R70; log 1, 13.] -/
def Obligations.SinkAccepts : Prop :=
  ∀ (s : State) (p : PendingEvent) (k : Nat) (rest : List EnvMove), s.env = .sinkAccept :: rest →
    s.evp = some p → s.sinks[p.next]? = some k →
    ∃ s', step s = .next s' ∧ s'.trace = s.trace ++ [⟨k, p.event⟩] ∧
      (p.next + 1 < s.sinks.length → s'.evp = some ⟨p.event, p.next + 1⟩ ∧ s'.stepIdx = s.stepIdx) ∧
      (s.sinks.length ≤ p.next + 1 → s'.evp = none ∧ s'.stepIdx = s.stepIdx + 1) ∧
      s' = { s with env := rest, trace := s'.trace, evp := s'.evp, stepIdx := s'.stepIdx }

/-- R311, R322: idle with no move of the host, or with an event that no sink accepts, the engine stays
as it is; time that passes (`wait`) changes nothing but the outside world.
[Rests on the spec's own decisions D24, D32; log 1.] -/
def Obligations.EngineWaits : Prop :=
  ∀ (s : State), (s.activity = .idle ∨ ((∃ pm, s.activity = .running pm) ∧ s.evp.isSome = true)) →
    (s.env = [] → step s = .next s) ∧
    (∀ rest, s.env = .wait :: rest → step s = .next { s with env := rest })

/-- R49: the state after reset: every register, the registry with exactly the ten bindings of R115, no
observer, no parameter, no event, no held write; PREV, OUT and the cells of IN and NAME have no value the host could
read.
[Rests on the spec's own decisions D9, D10, D32; log 4, 5, 6, 9.] -/
def Obligations.ResetLeaves : Prop :=
  (∀ idx, idx < 9 → State.reset.csr? idx = some 0) ∧
  State.reset.busy = false ∧ State.reset.status = ⟨false, false⟩ ∧ State.reset.err = ⟨.ok, 0⟩ ∧
  State.reset.flow = ⟨0, false⟩ ∧ State.reset.stepIdx = 0 ∧ State.reset.inLen = 0 ∧ State.reset.nameLen = 0 ∧
  State.reset.ovalid = false ∧ State.reset.res = [] ∧ State.reset.params = [] ∧ State.reset.evp = none ∧
  (∀ f, State.reset.obsOf f = []) ∧ State.reset.reg = builtinRegistry ∧
  (∀ sp, State.reset.held sp = []) ∧ hostPrev? State.reset = none ∧ hostOut? State.reset = none ∧
  (∀ sp i, hostCell? State.reset sp i = none) ∧
  State.reset.build = Build.reference

/-- R310: reset at any time, also while BUSY = 1, puts the engine in the state of R49 and discards the command
in progress, its event and every subscription; only CFG, TASKS and what sinks have accepted stay.
[Rests on the spec's own decisions D32; log 7, 9, 24.] -/
def Obligations.ResetAtAnyTime : Prop :=
  ∀ (s : State) (rest : List EnvMove), s.env = .reset :: rest → ∃ s', step s = .next s' ∧
    (∀ idx, idx < 9 → s'.csr? idx = some 0) ∧ s'.activity = .idle ∧ s'.evp = none ∧ s'.res = [] ∧
    s'.params = [] ∧ (∀ f, s'.obsOf f = []) ∧ s'.reg = builtinRegistry ∧ s'.inBuf = [] ∧ s'.nameBuf = [] ∧
    (∀ sp, s'.held sp = []) ∧ hostPrev? s' = none ∧ hostOut? s' = none ∧ (∀ sp i, hostCell? s' sp i = none) ∧
    s'.build = s.build ∧ s'.trace = s.trace ∧ s'.env = rest

/-! ### Commands -/

/-- R120, R288: EXEC of a flow id below NFLOWS launches that flow on IN with PARAMS as its mapping; any other id
raises InvalidFlowError and changes nothing but STATUS and ERR, so that OUT stays readable.
[Rests on the spec's own decisions D26, D27, D37; the spec's own derivations in R120; log 12, 22.] -/
def Obligations.ExecLaunchesFlow : Prop :=
  (∀ f : BitVec 8, decodeCommand (0x01#8 ++ f ++ 0#16) = .ok (.exec f)) ∧
  ∀ (f : BitVec 8) (s : State),
    (f.toNat < nflows s.build → Launches (.exec f) s f.toNat s.params) ∧
    (nflows s.build ≤ f.toNat → RaisesAtOnce (.exec f) s .invalidFlow 2)

/-- R121: the eight cipher commands without an empty-input test, and PLOCK and PUNLOCK on a non-empty input,
launch their own flow on IN with their own mapping; CLOCK's shift is the immediate and CUNLOCK's its
negation as an integer; PARAMS is neither read nor changed.
[Rests on the spec's own decisions D9, D27; log 22.] -/
def Obligations.CipherCommandsLaunch : Prop :=
  ∀ (s : State) (imm : BitVec 24),
    Launches (.clock imm) s 0 [(strOf "shift", imm.toInt)] ∧
    Launches (.cunlock imm) s 1 [(strOf "shift", -imm.toInt)] ∧
    Launches .vlock s 2 [] ∧ Launches .vunlock s 3 [] ∧
    (s.inLen ≠ 0 → Launches .plock s 4 [] ∧ Launches .punlock s 5 []) ∧
    Launches .hlock s 6 [] ∧ Launches .hunlock s 7 [] ∧
    Launches .slock s 8 [] ∧ Launches .sunlock s 9 []

/-- R193: PLOCK and PUNLOCK on an empty input launch no flow: OUT becomes the empty string, OUTLEN 0, OVALID 1,
and the command completes OK; RES, PREV, FLOW, STEP keep their values and no event is published.
[Rests on the spec's own decisions D16, D26, D27.] -/
def Obligations.PlayfairShortCircuit : Prop :=
  ∀ (i : Instr) (s : State), i = .plock ∨ i = .punlock → s.inLen = 0 →
    ∃ s', exec i s = .next s' ∧ CompletedAs s .ok 0 0 s' ∧ s'.out = .str [] ∧ s'.outLenWord = 0 ∧
      s'.outTagWord = 8 ∧ s'.ovalid = true ∧ s'.reg = s.reg ∧ s'.obs = s.obs ∧ s'.params = s.params

/-- R124: SUB appends the sink to OBS[FLOW] if it is not in it; a flow id that names no flow, then a sink id
that names no sink, raises.
[Rests on the spec's own decisions D26, D27, D37.] -/
def Obligations.SubSubscribes : Prop :=
  (∀ f k : BitVec 8, decodeCommand (0x02#8 ++ f ++ k ++ 0#8) = .ok (.sub f k)) ∧
  ∀ (f k : BitVec 8) (s : State),
    (nflows s.build ≤ f.toNat → RaisesAtOnce (.sub f k) s .invalidFlow 2) ∧
    (f.toNat < nflows s.build → s.build.nsinks ≤ k.toNat → RaisesAtOnce (.sub f k) s .invalidObserver 4) ∧
    (f.toNat < nflows s.build → k.toNat < s.build.nsinks →
      ∃ s', exec (.sub f k) s = .next s' ∧ CompletedAs s .ok 0 0 s' ∧
        s'.obsOf f.toNat = (if k.toNat ∈ s.obsOf f.toNat then s.obsOf f.toNat else s.obsOf f.toNat ++ [k.toNat]) ∧
        (∀ g, g ≠ f.toNat → s'.obsOf g = s.obsOf g) ∧
        s'.reg = s.reg ∧ s'.params = s.params ∧ s'.out = s.out ∧ s'.ovalid = s.ovalid)

/-- R125: FSUB looks the name in NAME up in REG and appends the sink to that flow's list; an unbound name, then a
sink id that names no sink, raises.
[Rests on the spec's own decisions D10, D26, D27; the spec's own derivations in R125.] -/
def Obligations.FsubSubscribes : Prop :=
  (∀ k : BitVec 8, decodeCommand (0x03#8 ++ 0#8 ++ k ++ 0#8) = .ok (.fsub k)) ∧
  ∀ (k : BitVec 8) (s : State),
    (mapGet s.reg s.nameText = none → RaisesAtOnce (.fsub k) s .notFound 3) ∧
    (∀ f, mapGet s.reg s.nameText = some f →
      (s.build.nsinks ≤ k.toNat → RaisesAtOnce (.fsub k) s .invalidObserver 4) ∧
      (k.toNat < s.build.nsinks →
        ∃ s', exec (.fsub k) s = .next s' ∧ CompletedAs s .ok 0 0 s' ∧
          s'.obsOf f = (if k.toNat ∈ s.obsOf f then s.obsOf f else s.obsOf f ++ [k.toNat]) ∧
          (∀ g, g ≠ f → s'.obsOf g = s.obsOf g) ∧
          s'.reg = s.reg ∧ s'.params = s.params ∧ s'.out = s.out ∧ s'.ovalid = s.ovalid))

/-- R126: FADD binds the name in NAME to FLOW, replacing an earlier binding of it; an empty name, then a flow id
that names no flow, raises.
[Rests on the spec's own decisions D21, D22, D26, D27.] -/
def Obligations.FaddBinds : Prop :=
  (∀ f : BitVec 8, decodeCommand (0x04#8 ++ f ++ 0#16) = .ok (.fadd f)) ∧
  ∀ (f : BitVec 8) (s : State),
    (s.nameText = [] → RaisesAtOnce (.fadd f) s .invalidName 1) ∧
    (s.nameText ≠ [] → nflows s.build ≤ f.toNat → RaisesAtOnce (.fadd f) s .invalidFlow 2) ∧
    (s.nameText ≠ [] → f.toNat < nflows s.build →
      ∃ s', exec (.fadd f) s = .next s' ∧ CompletedAs s .ok 0 0 s' ∧
        mapGet s'.reg s.nameText = some f.toNat ∧ (∀ n, n ≠ s.nameText → mapGet s'.reg n = mapGet s.reg n) ∧
        s'.obs = s.obs ∧ s'.params = s.params ∧ s'.out = s.out ∧ s'.ovalid = s.ovalid)

/-- R127: FREM removes the binding of the name in NAME, if there is one, and always completes OK.
[Rests on the spec's own decisions D23, D26, D27.] -/
def Obligations.FremUnbinds : Prop :=
  decodeCommand 0x05000000 = .ok .frem ∧
  ∀ (s : State), ∃ s', exec .frem s = .next s' ∧ CompletedAs s .ok 0 0 s' ∧
    mapGet s'.reg s.nameText = none ∧ (∀ n, n ≠ s.nameText → mapGet s'.reg n = mapGet s.reg n) ∧
    s'.obs = s.obs ∧ s'.params = s.params ∧ s'.out = s.out ∧ s'.ovalid = s.ovalid

/-- R128, R129: PSET gives the name in NAME the parameter `sext_24(IMM24)`, the empty name included; PCLR leaves
no parameter.
[Rests on the spec's own decisions D26, D27.] -/
def Obligations.ParameterCommands : Prop :=
  (∀ imm : BitVec 24, decodeCommand (0x06#8 ++ imm) = .ok (.pset imm)) ∧ decodeCommand 0x07000000 = .ok .pclr ∧
  (∀ (imm : BitVec 24) (s : State), ∃ s', exec (.pset imm) s = .next s' ∧ CompletedAs s .ok 0 0 s' ∧
    mapGet s'.params s.nameText = some imm.toInt ∧
    (∀ n, n ≠ s.nameText → mapGet s'.params n = mapGet s.params n) ∧
    s'.reg = s.reg ∧ s'.obs = s.obs ∧ s'.out = s.out ∧ s'.ovalid = s.ovalid) ∧
  (∀ (s : State), ∃ s', exec .pclr s = .next s' ∧ CompletedAs s .ok 0 0 s' ∧ s'.params = [] ∧
    s'.reg = s.reg ∧ s'.obs = s.obs ∧ s'.out = s.out ∧ s'.ovalid = s.ovalid)

/-! ### Micro-operations: the pipeline and the Caesar unit -/

/-- R130: IDENT returns PREV, whatever its shape.
[Rests on the spec's own decisions D35.] -/
def Obligations.IdentReturnsPrev : Prop :=
  decodeTask 0x0000 = .ok .ident ∧
  ∀ (s : State) (t : Task) (pm : NameMap Int), TaskReady s t pm → Returns .ident s t s.prev

/-- R12, R153: UPPER returns the string with codes 97 to 122 less 32 and every other code unchanged; a PREV that
is no string raises TypeError.
[Rests on the spec's own decisions D4, D26, D27.] -/
def Obligations.UpperFoldsLetters : Prop :=
  decodeTask 0x1000 = .ok .upper ∧
  ∀ (s : State) (t : Task) (pm : NameMap Int), TaskReady s t pm →
    (∀ m, s.prev = .str m → ∃ r : Str, r.length = m.length ∧
      (∀ j (h : j < m.length) (h' : j < r.length),
        r[j].toNat = if 97 ≤ m[j].toNat ∧ m[j].toNat ≤ 122 then m[j].toNat - 32 else m[j].toNat) ∧
      Returns .upper s t (.str r)) ∧
    ((∀ m, s.prev ≠ .str m) → RaisesInTaskAs .upper s .typeError 6)

/-- R154: A2V maps each letter to its value 0 to 25; any character outside `A` to `Z` raises InvalidInputError, a
PREV that is no string TypeError.
[Rests on the spec's own decisions D7, D26, D27.] -/
def Obligations.A2vMapsLetters : Prop :=
  decodeTask 0x1100 = .ok .a2v ∧
  ∀ (s : State) (t : Task) (pm : NameMap Int), TaskReady s t pm →
    (∀ m, s.prev = .str m → (∀ c ∈ m, 65 ≤ c.toNat ∧ c.toNat ≤ 90) →
      Returns .a2v s t (.ints (m.map fun c => (c.toNat : Int) - 65))) ∧
    (∀ m, s.prev = .str m → (∃ c ∈ m, c.toNat < 65 ∨ 90 < c.toNat) → RaisesInTaskAs .a2v s .invalidInput 5) ∧
    ((∀ m, s.prev ≠ .str m) → RaisesInTaskAs .a2v s .typeError 6)

/-- R155: CADD adds the parameter to every value and reduces modulo 26 to 0..25, however negative the sum; an
absent parameter or a PREV that is no integer list raises TypeError.
[Rests on the spec's own decisions D26, D27, D31.] -/
def Obligations.CaddAddsParameter : Prop :=
  decodeTask 0x1200 = .ok .cadd ∧
  ∀ (s : State) (t : Task) (pm : NameMap Int), TaskReady s t pm →
    (∀ vs k, s.prev = .ints vs → mapGet pm t.name = some k → Returns .cadd s t (.ints (vs.map fun v => (v + k) % 26))) ∧
    (∀ vs, s.prev = .ints vs → mapGet pm t.name = none → RaisesInTaskAs .cadd s .typeError 6) ∧
    ((∀ vs, s.prev ≠ .ints vs) → RaisesInTaskAs .cadd s .typeError 6)

/-- R156: V2A maps each value 0 to 25 to its letter; a negative element, or a PREV that is no integer list,
raises TypeError. No element exceeds 25 (R18).
[Rests on the spec's own decisions D9, D26, D27, D31.] -/
def Obligations.V2aMapsValues : Prop :=
  decodeTask 0x1300 = .ok .v2a ∧
  ∀ (s : State) (t : Task) (pm : NameMap Int), TaskReady s t pm → s.prev.wf = true →
    (∀ vs, s.prev = .ints vs → (∀ v ∈ vs, 0 ≤ v) →
      Returns .v2a s t (.str (vs.map fun v => BitVec.ofInt 8 (65 + v)))) ∧
    (∀ vs, s.prev = .ints vs → (∃ v ∈ vs, v < 0) → RaisesInTaskAs .v2a s .typeError 6) ∧
    ((∀ vs, s.prev ≠ .ints vs) → RaisesInTaskAs .v2a s .typeError 6)

/-! ### Micro-operations: the Vigenere unit -/

/-- R12, R15, R173: VFIX uppercases, strips whitespace (codes 9 to 13 and 32, which the spec takes from general knowledge)
and maps to 0..25; a character that is neither whitespace nor a letter raises InvalidInputError, a PREV that is no string TypeError.
[Rests on the spec's own decisions D4, D5, D7, D26, D27.] -/
def Obligations.VfixStripsAndMaps : Prop :=
  decodeTask 0x2000 = .ok .vfix ∧
  ∀ (s : State) (t : Task) (pm : NameMap Int), TaskReady s t pm →
    (∀ m, s.prev = .str m →
      let kept := (m.map upper).filter fun c => decide (c.toNat ∉ [9, 10, 11, 12, 13, 32])
      ((∀ c ∈ kept, 65 ≤ c.toNat ∧ c.toNat ≤ 90) →
        Returns .vfix s t (.ints (kept.map fun c => (c.toNat : Int) - 65))) ∧
      ((∃ c ∈ kept, c.toNat < 65 ∨ 90 < c.toNat) → RaisesInTaskAs .vfix s .invalidInput 5)) ∧
    ((∀ m, s.prev ≠ .str m) → RaisesInTaskAs .vfix s .typeError 6)

/-- R174: VMKKEY returns as many values as PREV has: the values of the uppercased key word, repeated cyclically; a
PREV that is no integer list raises TypeError. The key word is one that R33(a) allows.
[Rests on the spec's own decisions D20, D26, D27; the spec's own derivations in R174.] -/
def Obligations.VmkkeyRepeatsKey : Prop :=
  decodeTask 0x2100 = .ok .vmkkey ∧
  ∀ (s : State) (t : Task) (pm : NameMap Int), TaskReady s t pm → cfgWf s.build.cfg = true →
    (∀ vs, s.prev = .ints vs → ∃ ks : List Int, ks.length = vs.length ∧
      (∀ j, j < vs.length →
        ks[j]? = s.build.cfg.vigKey[j % s.build.cfg.vigKey.length]?.map fun c => ((upper c).toNat : Int) - 65) ∧
      Returns .vmkkey s t (.ints ks)) ∧
    ((∀ vs, s.prev ≠ .ints vs) → RaisesInTaskAs .vmkkey s .typeError 6)

/-- R175: VNEG negates every value and keeps them negative; a PREV that is no integer list raises TypeError. -/
def Obligations.VnegNegates : Prop :=
  decodeTask 0x2200 = .ok .vneg ∧
  ∀ (s : State) (t : Task) (pm : NameMap Int), TaskReady s t pm →
    (∀ vs, s.prev = .ints vs → Returns .vneg s t (.ints (vs.map fun v => -v))) ∧
    ((∀ vs, s.prev ≠ .ints vs) → RaisesInTask .vneg s .typeError)

/-- R176: VXLT adds the key values in PREV to the message values in RES[name(REF)] position by position modulo 26
and maps the sums to letters; unequal lengths, a missing entry or a wrong shape raise TypeError.
[Rests on the spec's own decisions D26, D27, D31.] -/
def Obligations.VxltTranslates : Prop :=
  (∀ r : BitVec 4, decodeTask (0x23#8 ++ r ++ 0#4) = .ok (.vxlt r)) ∧
  ∀ (s : State) (t : Task) (pm : NameMap Int) (r : BitVec 4), TaskReady s t pm →
    (∀ vals keys, s.prev = .ints keys → s.refVal? r = some (.ints vals) → vals.length = keys.length →
      Returns (.vxlt r) s t (.str (List.zipWith (fun v k => BitVec.ofInt 8 (65 + (v + k) % 26)) vals keys))) ∧
    (∀ vals keys, s.prev = .ints keys → s.refVal? r = some (.ints vals) → vals.length ≠ keys.length →
      RaisesInTaskAs (.vxlt r) s .typeError 6) ∧
    ((∀ keys, s.prev ≠ .ints keys) → RaisesInTaskAs (.vxlt r) s .typeError 6) ∧
    ((∀ vals, s.refVal? r ≠ some (.ints vals)) → RaisesInTaskAs (.vxlt r) s .typeError 6)

/-! ### Micro-operations: the Playfair unit -/

/-- R196: PFFIX uppercases, folds `J` into `I`, runs the spec's loop that puts `X` between the letters of an equal
pair, pads an odd length with `X` and splits into digraphs; a PREV that is no string raises TypeError.
[Rests on the spec's own decisions D14, D26, D27.] -/
def Obligations.PffixFixesUp : Prop :=
  decodeTask 0x3000 = .ok .pffix ∧
  ∀ (s : State) (t : Task) (pm : NameMap Int), TaskReady s t pm →
    (∀ m, s.prev = .str m →
      let f := m.map fun c => if upper c = 74 then 73 else upper c
      Returns .pffix s t (.pairs (digraphs (padEven (insertFillers f.length f 0))))) ∧
    ((∀ m, s.prev ≠ .str m) → RaisesInTaskAs .pffix s .typeError 6)

/-- R197: PFUFIX uppercases and splits a string of even length into digraphs, with no folding, filler or padding;
an odd length raises InvalidInputError, a PREV that is no string TypeError.
[Rests on the spec's own decisions D15, D26, D27.] -/
def Obligations.PfufixSplits : Prop :=
  decodeTask 0x3100 = .ok .pfufix ∧
  ∀ (s : State) (t : Task) (pm : NameMap Int), TaskReady s t pm →
    (∀ m, s.prev = .str m → m.length % 2 = 0 → ∃ ps : List (Byte × Byte),
      ps.flatMap (fun p => [p.1, p.2]) = m.map upper ∧ Returns .pfufix s t (.pairs ps)) ∧
    (∀ m, s.prev = .str m → m.length % 2 = 1 → RaisesInTaskAs .pfufix s .invalidInput 5) ∧
    ((∀ m, s.prev ≠ .str m) → RaisesInTaskAs .pfufix s .typeError 6)

/-- R195: PFKEY, for a key word that R33(b) allows, ignores PREV and returns a square of 25 distinct letters without
`J`, the letters of the folded key word in first-seen order and then the rest of the alphabet in order. -/
def Obligations.PfkeyBuildsSquare : Prop :=
  decodeTask 0x3200 = .ok .pfkey ∧
  ∀ (s : State) (t : Task) (pm : NameMap Int), TaskReady s t pm → cfgWf s.build.cfg = true →
    ∃ sq : Vector Byte 25, Returns .pfkey s t (.square sq) ∧ sq.toList.Nodup ∧
      (∀ c : Byte, c ∈ sq.toList ↔ 65 ≤ c.toNat ∧ c.toNat ≤ 90 ∧ c ≠ 74) ∧
      let folded := s.build.cfg.pfKey.map fun c => if upper c = 74 then 73 else upper c
      ∃ key rest : Str, sq.toList = key ++ rest ∧ (∀ c, c ∈ key ↔ c ∈ folded) ∧
        (key.Pairwise fun a b => folded.idxOf a < folded.idxOf b) ∧
        rest.Pairwise fun a b => a.toNat < b.toNat

/-- R194, R198, R199, R200: PFENC and PFDEC substitute the digraphs of RES[name(REF)] from left to right under the square in
PREV. By the 5x5 positions of the two letters: in one row each is replaced by the letter one column to the right (PFENC)
or to the left (PFDEC, which is 4 to the right); else in one column by the letter below or above; else each by the letter
in its own row and the other's column. A character not in the square raises InvalidInputError, a wrong shape or a missing
entry TypeError.
[Rests on the spec's own decisions D7, D14, D26, D27; the spec's own derivations in R198.] -/
def Obligations.PlayfairSubstitutes : Prop :=
  (∀ r : BitVec 4, decodeTask (0x33#8 ++ r ++ 0#4) = .ok (.pfenc r) ∧ decodeTask (0x34#8 ++ r ++ 0#4) = .ok (.pfdec r)) ∧
  ∀ (s : State) (t : Task) (pm : NameMap Int) (r : BitVec 4) (i : Instr) (d : Nat), TaskReady s t pm →
    (i = .pfenc r ∧ d = 1) ∨ (i = .pfdec r ∧ d = 4) →
    (∀ sq ps, s.prev = .square sq → s.refVal? r = some (.pairs ps) →
      (∀ p ∈ ps, p.1 ∈ sq.toList ∧ p.2 ∈ sq.toList) →
      let row (c : Byte) : Nat := sq.toList.idxOf c / 5
      let col (c : Byte) : Nat := sq.toList.idxOf c % 5
      let letter (r c : Nat) : Option Byte := sq.toList[5 * r + c]?
      ∃ qs : List (Byte × Byte),
        List.Forall₂ (fun p q =>
          if row p.1 = row p.2 then
            some q.1 = letter (row p.1) ((col p.1 + d) % 5) ∧ some q.2 = letter (row p.2) ((col p.2 + d) % 5)
          else if col p.1 = col p.2 then
            some q.1 = letter ((row p.1 + d) % 5) (col p.1) ∧ some q.2 = letter ((row p.2 + d) % 5) (col p.2)
          else some q.1 = letter (row p.1) (col p.2) ∧ some q.2 = letter (row p.2) (col p.1)) ps qs ∧
        Returns i s t (.str (qs.flatMap fun q => [q.1, q.2]))) ∧
    (∀ sq ps, s.prev = .square sq → s.refVal? r = some (.pairs ps) →
      (∃ p ∈ ps, p.1 ∉ sq.toList ∨ p.2 ∉ sq.toList) → RaisesInTaskAs i s .invalidInput 5) ∧
    ((∀ sq, s.prev ≠ .square sq) → RaisesInTaskAs i s .typeError 6) ∧
    ((∀ ps, s.refVal? r ≠ some (.pairs ps)) → RaisesInTaskAs i s .typeError 6)

/-! ### Micro-operations: the Hill unit -/

/-- R224: HFIX uppercases, appends 0, 1 or 2 `X` up to a multiple of 3, and returns the symbol values in rows of
three; a non-letter raises InvalidInputError, a PREV that is no string TypeError.
[Rests on the spec's own decisions D7, D26, D27.] -/
def Obligations.HfixMakesRows : Prop :=
  decodeTask 0x4000 = .ok .hfix ∧
  ∀ (s : State) (t : Task) (pm : NameMap Int), TaskReady s t pm →
    (∀ m, s.prev = .str m → ∃ p, p < 3 ∧ (m.length + p) % 3 = 0 ∧
      let f := m.map upper ++ List.replicate p letterX
      ((∀ c ∈ f, 65 ≤ c.toNat ∧ c.toNat ≤ 90) → ∃ rs : List Row,
        (rs.flatMap fun r => r.toList.map Fin.val) = f.map (fun c => c.toNat - 65) ∧ Returns .hfix s t (.rows rs)) ∧
      ((∃ c ∈ f, c.toNat < 65 ∨ 90 < c.toNat) → RaisesInTaskAs .hfix s .invalidInput 5)) ∧
    ((∀ m, s.prev ≠ .str m) → RaisesInTaskAs .hfix s .typeError 6)

/-- R225, R226, R227: HMULK and HMULU multiply every row vector, on the left, by HILL_KEY and HILL_UKEY, row by row, each
entry reduced modulo 26 after an exact sum; a PREV that is no list of rows raises TypeError.
[Rests on the spec's own decisions D26, D27, D38; the spec's own derivations in R225.] -/
def Obligations.HillMultiplies : Prop :=
  decodeTask 0x4100 = .ok .hmulk ∧ decodeTask 0x4200 = .ok .hmulu ∧
  ∀ (s : State) (t : Task) (pm : NameMap Int) (i : Instr) (k : Matrix), TaskReady s t pm →
    (i = .hmulk ∧ k = s.build.cfg.hillKey) ∨ (i = .hmulu ∧ k = s.build.cfg.hillUKey) →
    (∀ rs, s.prev = .rows rs → ∃ qs : List Row,
      List.Forall₂ (fun (r q : Row) => ∀ j : Fin 3, (q[j]).val =
        ((r[0]).val * (k[0][j]).val + (r[1]).val * (k[1][j]).val + (r[2]).val * (k[2][j]).val) % 26) rs qs ∧
      Returns i s t (.rows qs)) ∧
    ((∀ rs, s.prev ≠ .rows rs) → RaisesInTaskAs i s .typeError 6)

/-- R228: HV2A returns the letters of the rows in order, the three of a row in column order; a PREV that is no list
of rows raises TypeError. -/
def Obligations.Hv2aSpellsRows : Prop :=
  decodeTask 0x4300 = .ok .hv2a ∧
  ∀ (s : State) (t : Task) (pm : NameMap Int), TaskReady s t pm →
    (∀ rs, s.prev = .rows rs →
      Returns .hv2a s t (.str (rs.flatMap fun r => r.toList.map fun v => BitVec.ofNat 8 (65 + v.val)))) ∧
    ((∀ rs, s.prev ≠ .rows rs) → RaisesInTask .hv2a s .typeError)

/-! ### Micro-operations: the S-DES unit -/

/-- R245, R254: SFRAME turns characters into blocks and SUNFR blocks into characters of the same 8 bits; a wrong
shape raises TypeError. -/
def Obligations.SdesFraming : Prop :=
  decodeTask 0x5000 = .ok .sframe ∧ decodeTask 0x5700 = .ok .sunfr ∧
  ∀ (s : State) (t : Task) (pm : NameMap Int), TaskReady s t pm →
    (∀ m, s.prev = .str m → Returns .sframe s t (.blocks m)) ∧
    ((∀ m, s.prev ≠ .str m) → RaisesInTask .sframe s .typeError) ∧
    (∀ bs, s.prev = .blocks bs → Returns .sunfr s t (.str bs)) ∧
    ((∀ bs, s.prev ≠ .blocks bs) → RaisesInTask .sunfr s .typeError)

/-- R16, R241, R246, R247: SKEYS ignores PREV and returns the two subkeys: P10, then both halves rotated left by one, P8; and
once more by one, P8. Bit `p` from the left of a rotated half is bit `p + 1` (mod 5) of the half.
[Rests on the spec's own decisions D17, D18; log 21.] -/
def Obligations.SkeysDerivesSubkeys : Prop :=
  decodeTask 0x5100 = .ok .skeys ∧
  ∀ (s : State) (t : Task) (pm : NameMap Int), TaskReady s t pm →
    ∃ k1 k2 : BitVec 8, Returns .skeys s t (.keys k1 k2) ∧
      ∀ j : Fin 8,
        let src (p : Nat) (n : Nat) : Nat := if p < 5 then (p + n) % 5 else 5 + (p - 5 + n) % 5
        let key (p : Nat) : Bool := (s.build.cfg.p10.toList[p]?.map fun q => s.build.cfg.sdesKey.getMsb q).getD false
        k1.getMsb j = key (src (s.build.cfg.p8[j]).val 1) ∧ k2.getMsb j = key (src (s.build.cfg.p8[j]).val 2)

/-- R16, R241, R248, R253: SIP permutes the blocks of RES[name(REF)] by IP, ignoring PREV, and SRIP the blocks of PREV by
RIP: output position `j` from the left takes the input bit at the table's position; a wrong shape or a missing entry
raises TypeError.
[Rests on the spec's own decisions D17, D18, D26, D27; log 21.] -/
def Obligations.SdesPermutes : Prop :=
  (∀ r : BitVec 4, decodeTask (0x52#8 ++ r ++ 0#4) = .ok (.sip r)) ∧ decodeTask 0x5600 = .ok .srip ∧
  ∀ (s : State) (t : Task) (pm : NameMap Int) (r : BitVec 4), TaskReady s t pm →
    (∀ bs, s.refVal? r = some (.blocks bs) → ∃ cs : List (BitVec 8),
      List.Forall₂ (fun b c => ∀ j : Fin 8, c.getMsb j = b.getMsb s.build.cfg.ip[j]) bs cs ∧
      Returns (.sip r) s t (.blocks cs)) ∧
    ((∀ bs, s.refVal? r ≠ some (.blocks bs)) → RaisesInTaskAs (.sip r) s .typeError 6) ∧
    (∀ bs, s.prev = .blocks bs → ∃ cs : List (BitVec 8),
      List.Forall₂ (fun b c => ∀ j : Fin 8, c.getMsb j = b.getMsb s.build.cfg.rip[j]) bs cs ∧
      Returns .srip s t (.blocks cs)) ∧
    ((∀ bs, s.prev ≠ .blocks bs) → RaisesInTaskAs .srip s .typeError 6)

/-- R16, R241, R249, R250, R251: SFK1 and SFK2 apply the round function to every block of PREV with `K1` and `K2` of
RES[name(REF)]. Bit by bit: `x` is the right half expanded by EP, xor the subkey; S0 takes the left nibble of `x` and S1 the
right one, at row 2*a[0]+a[3] and column 2*a[1]+a[2]; their two-bit cells, permuted by P4, are xored into the left half; the
right half stays. A wrong shape or a missing entry raises TypeError.
[Rests on the spec's own decisions D17, D18, D26, D27; the spec's own derivations in R249; log 21.] -/
def Obligations.SdesRounds : Prop :=
  (∀ r : BitVec 4, decodeTask (0x53#8 ++ r ++ 0#4) = .ok (.sfk1 r) ∧ decodeTask (0x54#8 ++ r ++ 0#4) = .ok (.sfk2 r)) ∧
  ∀ (s : State) (t : Task) (pm : NameMap Int) (r : BitVec 4), TaskReady s t pm →
    (∀ bs k1 k2 i k, s.prev = .blocks bs → s.refVal? r = some (.keys k1 k2) →
      (i = .sfk1 r ∧ k = k1) ∨ (i = .sfk2 r ∧ k = k2) →
      ∃ cs : List (BitVec 8), Returns i s t (.blocks cs) ∧
        List.Forall₂ (fun b c =>
          let x (j : Nat) : Nat :=
            ((s.build.cfg.ep.toList[j]?.map fun p => b.getMsbD (4 + p.val) ^^ k.getMsbD j).getD false).toNat
          let box (sb : SBox) (n : Nat) : Nat :=
            ((sb.toList[2 * x n + x (n + 3)]?.bind fun r => r.toList[2 * x (n + 1) + x (n + 2)]?).map Fin.val).getD 0
          let out : List Nat := [box s.build.cfg.s0 0 / 2, box s.build.cfg.s0 0 % 2, box s.build.cfg.s1 4 / 2,
            box s.build.cfg.s1 4 % 2]
          ∀ j : Fin 4, c.getMsbD (4 + j.val) = b.getMsbD (4 + j.val) ∧
            c.getMsbD j.val = (out[(s.build.cfg.p4[j]).val]? == some 1 ^^ b.getMsbD j.val)) bs cs) ∧
    ((∀ bs, s.prev ≠ .blocks bs) ∨ (∀ k1 k2, s.refVal? r ≠ some (.keys k1 k2)) →
      RaisesInTaskAs (.sfk1 r) s .typeError 6 ∧ RaisesInTaskAs (.sfk2 r) s .typeError 6)

/-- R252: SSW swaps the halves of every block; a PREV that is no list of blocks raises TypeError. -/
def Obligations.SswSwapsHalves : Prop :=
  decodeTask 0x5500 = .ok .ssw ∧
  ∀ (s : State) (t : Task) (pm : NameMap Int), TaskReady s t pm →
    (∀ bs, s.prev = .blocks bs → Returns .ssw s t (.blocks (bs.map fun b => b.rotateLeft 4))) ∧
    ((∀ bs, s.prev ≠ .blocks bs) → RaisesInTask .ssw s .typeError)

/-! ### Rules of the whole machine -/

/-- R44: no instruction writes the build, a cell, a length or a held write of IN or NAME, or what sinks have accepted.
[Rests on the spec's own decisions D27; log 9.] -/
def Obligations.InstructionsLeaveHostSide : Prop :=
  ∀ (i : Instr) (s s' : State), exec i s = .next s' → Untouched s s'

/-- R36, R38: only FADD and FREM change REG; only PSET and PCLR change PARAMS.
[Rests on the spec's own decisions D27.] -/
def Obligations.MapsChangeOnlyByTheirCommands : Prop :=
  ∀ (i : Instr) (s s' : State), exec i s = .next s' →
    ((∀ f, i ≠ .fadd f) → i ≠ .frem → s'.reg = s.reg) ∧
    ((∀ imm, i ≠ .pset imm) → i ≠ .pclr → s'.params = s.params)

/-- R37: only SUB and FSUB change an observer list, and an instruction removes nothing from one: every list goes on
as it was, with at most one sink appended, and stays without repeats. -/
def Obligations.ObserverListsOnlyGrow : Prop :=
  ∀ (i : Instr) (s s' : State), exec i s = .next s' →
    ((∀ f k, i ≠ .sub f k) → (∀ k, i ≠ .fsub k) → s'.obs = s.obs) ∧
    ∀ g, ∃ l, l.length ≤ 1 ∧ s'.obsOf g = s.obsOf g ++ l ∧ ((s.obsOf g).Nodup → (s'.obsOf g).Nodup)

/-- R25, R122: no instruction transfers control: a micro-operation leaves FLOW and leaves STEP or adds 1 to it; a
command leaves STEP or sets it to 0. -/
def Obligations.NoControlTransfer : Prop :=
  ∀ (i : Instr) (s s' : State), exec i s = .next s' →
    (i.isCommand = false → s'.flow = s.flow ∧ (s'.stepIdx = s.stepIdx ∨ s'.stepIdx = s.stepIdx + 1)) ∧
    (i.isCommand = true → s'.stepIdx = s.stepIdx ∨ s'.stepIdx = 0)

/-- R34, R47, R73: no step changes CFG, TASKS or a size.
[Rests on the spec's own decisions D9.] -/
def Obligations.BuildNeverChanges : Prop :=
  ∀ s s' : State, step s = .next s' → s'.build = s.build

/-- R23, R48(c): during an execution RES only grows: every step but a reset, a fault and the completion included, keeps
every entry that a task has written. -/
def Obligations.ResultsOnlyGrow : Prop :=
  ∀ s s' : State, s.Inv → step s = .next s' → (∃ pm, s.activity = .running pm) → (∀ rest, s.env ≠ .reset :: rest) →
    ∀ n v, mapGet s.res n = some v → mapGet s'.res n = some v

/-- R18, R33, R35, R36, R49, R115: the state after reset, of the reference build, meets the invariant: the build is
well-formed, its MAXLEN and NAMEMAX being the model's choice, and PREV and OUT hold the empty string, the model's choice
too.
[Rests on the spec's own decisions D9, D10, D20, D32; log 4, 5, 6, 7, 9, 16, 18.] -/
def Obligations.InvariantAtReset : Prop := State.reset.Inv

/-- R18, R22, R25, R26, R28, R36, R37, R38, R39, R40, R41, R42: every step keeps the invariant: registry, observer lists,
parameters and Values in their ranges, the lengths within the buffers' sizes, STEP within its flow, RES holding exactly the
tasks done, a pending event being that of the task at STEP; and the model's own form of its data: the memory and the maps
are in canonical form (log 18), and so are the epochs of the free values (log 7); written cells lie below the lengths, and
held writes elsewhere in the buffers (log 9).
[Rests on the spec's own decisions D2, D9, D12, D13, D27; the spec's own derivations in R22; log 7, 8, 9, 16, 18.] -/
def Obligations.StepKeepsInvariant : Prop := ∀ s s' : State, s.Inv → step s = .next s' → s'.Inv

/-- R33, R35, R93, R283, R284: from a state that meets the invariant no step faults, and a step is refused only for a
move of the world outside that the spec says does not exist (log 14); no instruction is refused.
[Rests on the spec's own decisions D20, D26, D30; log 13, 14.] -/
def Obligations.NothingButTheWorldIsRefused : Prop :=
  ∀ s : State, s.Inv → (∀ r, step s ≠ .fault r) ∧
    ∀ r, step s = .refused r → r = .hostMoveWhileBusy ∨ r = .noSuchHostMove ∨ r = .noEventOffered

/-- R322: an execution to which no sink listens ends: after the remaining tasks and one more step the engine is idle.
[Rests on the spec's own decisions D24; log 22.] -/
def Obligations.ExecutionTerminates : Prop :=
  ∀ (s : State) (pm : NameMap Int) (ts : List Task), s.Inv → s.activity = .running pm → s.evp = none → s.sinks = [] →
    s.env = [] → s.flowTasks? = some ts →
    ∃ s', Host.Core.run Sys2Proof.core (ts.length - s.stepIdx + 1) s = .next s' ∧ s'.busy = false

/-! ### The ciphers -/

/-- R157, R177: shifting a letter by `k` and then by `-k` modulo 26 gives the letter back, for every integer `k`, and
the shifted character is a letter.
[Rests on the spec's own derivations in R157, R177.] -/
def Obligations.ShiftIsUndone : Prop :=
  ∀ (c : Byte) (k : Int), isLetter c = true →
    isLetter (chr26 (mod26 (sym c + k))) = true ∧ chr26 (mod26 (sym (chr26 (mod26 (sym c + k))) - k)) = c

/-- R151: CLOCK, run to its end from its acceptance with no sink on flow 0, on a message of letters, leaves in OUT the
message with every letter shifted by the immediate modulo 26, completing OK; FLOW is 0 and STEP 4.
[Rests on log 22.] -/
def Obligations.ClockEncryptsText : Prop :=
  ∀ (s : State) (imm : BitVec 24) (w : BitVec 32), s.activity = .command w → decodeCommand w = .ok (.clock imm) →
    s.evp = none → s.env = [] → buildWf s.build = true → s.obsOf 0 = [] →
    (∀ c ∈ s.inText, isLetter (upper c) = true) →
    ∃ s', Host.Core.run Sys2Proof.core 6 s = .next s' ∧ s'.busy = false ∧ s'.err = ⟨.ok, 0⟩ ∧ s'.ovalid = true ∧
      s'.out = .str (s.inText.map fun c => chr26 (mod26 (sym (upper c) + imm.toInt))) ∧
      s'.flow = ⟨0, true⟩ ∧ s'.stepIdx = 4

/-- R157(a), R48(a): CUNLOCK `k`, run to its end on what CLOCK `k` left in OUT, leaves in OUT the uppercased message
that CLOCK was given, for every message of letters and every immediate, with no sinks on flows 0 and 1.
[Rests on the spec's own derivations in R157; log 22.] -/
def Obligations.CunlockUndoesClock : Prop :=
  ∀ (s : State) (imm : BitVec 24) (w : BitVec 32), s.activity = .command w → decodeCommand w = .ok (.clock imm) →
    s.evp = none → s.env = [] → buildWf s.build = true → s.obsOf 0 = [] →
    (∀ c ∈ s.inText, isLetter (upper c) = true) →
    ∃ s₁ m, Host.Core.run Sys2Proof.core 6 s = .next s₁ ∧ s₁.out = .str m ∧
      ∀ (u : State) (v : BitVec 32), u.activity = .command v → decodeCommand v = .ok (.cunlock imm) →
        u.evp = none → u.env = [] → buildWf u.build = true → u.obsOf 1 = [] → u.inText = m →
        ∃ u₁, Host.Core.run Sys2Proof.core 6 u = .next u₁ ∧ u₁.busy = false ∧ u₁.err = ⟨.ok, 0⟩ ∧ u₁.ovalid = true ∧
          u₁.out = .str (s.inText.map upper)

/-- R198: for a square of distinct letters, every digraph of its letters is substituted by letters of the square, and
substituting with step 1 and then with step 4 gives it back, equal letters included.
[Rests on the spec's own decisions D14; the spec's own derivations in R198.] -/
def Obligations.DigraphRuleIsUndone : Prop :=
  ∀ (sq : Vector Byte 25) (a b : Byte), sq.toList.Nodup → a ∈ sq.toList → b ∈ sq.toList →
    ∃ x y, subst sq 1 a b = .ok (x, y) ∧ x ∈ sq.toList ∧ y ∈ sq.toList ∧ subst sq 4 x y = .ok (a, b)

/-- R229: under key matrices that R33(c) allows, multiplying rows by HILL_KEY and then by HILL_UKEY gives them back.
[Rests on the spec's own decisions D20; the spec's own derivations in R229.] -/
def Obligations.HillProductIsUndone : Prop :=
  ∀ (c : Cfg) (rs : List Row), hillWf c = true → matmul (matmul rs c.hillKey) c.hillUKey = rs

/-- R249, R256: for tables that R33(e) allows, the round function is its own inverse, and encoding a block with two
subkeys is undone by encoding with the two exchanged, for every pair of subkeys.
[Rests on the spec's own decisions D20; the spec's own derivations in R249, R256.] -/
def Obligations.SdesBlockIsUndone : Prop :=
  ∀ (c : Cfg), sdesWf c = true → ∀ ka kb b : BitVec 8,
    fK c ka (fK c ka b) = b ∧ encodeBlock c kb ka (encodeBlock c ka kb b) = b
end

