-- ==== Sys2Proof/Laws/Maps.lean ====
section
/-!
SUPPORT. Laws/Maps.lean: reading after writing a map, and the canonical form kept.
-/

namespace Sys2Proof.Machine

variable {κ α : Type} [DecidableEq κ]

theorem mapGet_mapPut_same (lt : κ → κ → Bool) (m : List (κ × α)) (k : κ) (v : α) :
    mapGet (mapPut lt m k v) k = some v := by
  induction m with
  | nil => simp [mapPut, mapGet]
  | cons e rest ih =>
    obtain ⟨k', v'⟩ := e
    unfold mapPut
    split
    · simp [mapGet]
    · split
      · simp [mapGet]
      · rename_i h _
        simp [mapGet, h, ih]

theorem mapGet_mapPut_other (lt : κ → κ → Bool) (m : List (κ × α)) {k k' : κ} (v : α) (h : k' ≠ k) :
    mapGet (mapPut lt m k v) k' = mapGet m k' := by
  induction m with
  | nil => simp [mapPut, mapGet, Ne.symm h]
  | cons e rest ih =>
    obtain ⟨k₁, v₁⟩ := e
    unfold mapPut
    split
    · rename_i h₁
      subst h₁
      simp [mapGet, Ne.symm h]
    · split
      · simp [mapGet, Ne.symm h]
      · simp [mapGet, ih]

/-- Everything a map holds after a write: the new pair and earlier ones. -/
theorem mem_mapPut {lt : κ → κ → Bool} {m : List (κ × α)} {k : κ} {v : α} {e : κ × α}
    (h : e ∈ mapPut lt m k v) : e = (k, v) ∨ e ∈ m := by
  induction m with
  | nil => simpa [mapPut] using h
  | cons e₁ rest ih =>
    obtain ⟨k₁, v₁⟩ := e₁
    unfold mapPut at h
    split at h
    · simp only [List.mem_cons] at h ⊢; tauto
    · split at h
      · simp only [List.mem_cons] at h ⊢; tauto
      · simp only [List.mem_cons] at h ⊢
        rcases h with h | h
        · tauto
        · rcases ih h with h | h <;> tauto

theorem mapGet_some_mem {m : List (κ × α)} {k : κ} {v : α} (h : mapGet m k = some v) : (k, v) ∈ m := by
  induction m with
  | nil => simp [mapGet] at h
  | cons e rest ih =>
    obtain ⟨k₁, v₁⟩ := e
    unfold mapGet at h
    split at h
    · rename_i h₁
      simp_all
    · exact List.mem_cons_of_mem _ (ih h)

/-- A write keeps the canonical form, for an order that is transitive and total. -/
theorem mapWf_mapPut {lt : κ → κ → Bool} (trans : ∀ a b c, lt a b = true → lt b c = true → lt a c = true)
    (total : ∀ a b, a ≠ b → lt a b = false → lt b a = true) {m : List (κ × α)} (k : κ) (v : α)
    (h : mapWf lt m) : mapWf lt (mapPut lt m k v) := by
  induction m with
  | nil => simp [mapPut, mapWf]
  | cons e rest ih =>
    obtain ⟨k₁, v₁⟩ := e
    rw [mapWf, List.pairwise_cons] at h
    unfold mapPut
    split
    · rename_i h₁
      subst h₁
      exact List.pairwise_cons.2 h
    · rename_i h₁
      split
      · rename_i h₂
        refine List.pairwise_cons.2 ⟨?_, List.pairwise_cons.2 h⟩
        intro e he
        rcases List.mem_cons.1 he with rfl | he
        · exact h₂
        · exact trans _ _ _ h₂ (h.1 e he)
      · rename_i h₂
        refine List.pairwise_cons.2 ⟨?_, ih h.2⟩
        intro e he
        rcases mem_mapPut he with rfl | he
        · exact total _ _ (Ne.symm h₁) (by simpa using h₂)
        · exact h.1 e he

omit [DecidableEq κ] in
theorem mapWf_filter {lt : κ → κ → Bool} {m : List (κ × α)} (p : κ × α → Bool) (h : mapWf lt m) :
    mapWf lt (m.filter p) := List.Pairwise.filter p h

theorem mapWf_mapDel {lt : κ → κ → Bool} {m : List (κ × α)} (k : κ) (h : mapWf lt m) :
    mapWf lt (mapDel m k) := mapWf_filter _ h

theorem mapGet_mapDel_same (m : List (κ × α)) (k : κ) : mapGet (mapDel m k) k = none := by
  induction m with
  | nil => rfl
  | cons e rest ih =>
    obtain ⟨k₁, v₁⟩ := e
    by_cases h : k₁ = k
    · simpa [mapDel, h] using ih
    · simpa [mapDel, mapGet, h] using ih

theorem mapGet_mapDel_other (m : List (κ × α)) {k k' : κ} (h : k' ≠ k) :
    mapGet (mapDel m k) k' = mapGet m k' := by
  induction m with
  | nil => rfl
  | cons e rest ih =>
    obtain ⟨k₁, v₁⟩ := e
    by_cases h₁ : k₁ = k
    · subst h₁
      simpa [mapDel, mapGet, Ne.symm h] using ih
    · simp only [mapDel, ne_eq, decide_not] at ih
      simp [mapDel, mapGet, h₁, ih]

theorem nameLt_trans (a b c : Str) (h₁ : nameLt a b = true) (h₂ : nameLt b c = true) : nameLt a c = true := by
  induction a generalizing b c with
  | nil =>
    cases b with
    | nil => simp [nameLt] at h₁
    | cons y t =>
      cases c with
      | nil => simp [nameLt] at h₂
      | cons z u => rfl
  | cons x s ih =>
    cases b with
    | nil => simp [nameLt] at h₁
    | cons y t =>
      cases c with
      | nil => simp [nameLt] at h₂
      | cons z u =>
        simp only [nameLt, Bool.or_eq_true, decide_eq_true_eq, Bool.and_eq_true, beq_iff_eq] at h₁ h₂ ⊢
        rcases h₁ with h₁ | ⟨rfl, h₁⟩
        · rcases h₂ with h₂ | ⟨rfl, h₂⟩
          · exact .inl (by omega)
          · exact .inl h₁
        · rcases h₂ with h₂ | ⟨rfl, h₂⟩
          · exact .inl h₂
          · exact .inr ⟨rfl, ih _ _ h₁ h₂⟩

theorem nameLt_total (a b : Str) (hne : a ≠ b) (h : nameLt a b = false) : nameLt b a = true := by
  induction a generalizing b with
  | nil =>
    cases b with
    | nil => exact absurd rfl hne
    | cons y t => simp [nameLt] at h
  | cons x s ih =>
    cases b with
    | nil => rfl
    | cons y t =>
      simp only [nameLt, Bool.or_eq_false_iff, decide_eq_false_iff_not, Bool.and_eq_false_iff, beq_eq_false_iff_ne] at h
      simp only [nameLt, Bool.or_eq_true, decide_eq_true_eq, Bool.and_eq_true, beq_iff_eq]
      by_cases hxy : x = y
      · subst hxy
        refine .inr ⟨rfl, ih t (fun he => hne (he ▸ rfl)) ?_⟩
        rcases h.2 with h' | h'
        · exact absurd rfl h'
        · exact h'
      · refine .inl ?_
        have : x.toNat ≠ y.toNat := fun he => hxy (BitVec.eq_of_toNat_eq he)
        omega

theorem idxLt_trans (a b c : Nat) (h₁ : idxLt a b = true) (h₂ : idxLt b c = true) : idxLt a c = true := by
  simp only [idxLt, decide_eq_true_eq] at *
  omega

theorem idxLt_total (a b : Nat) (hne : a ≠ b) (h : idxLt a b = false) : idxLt b a = true := by
  simp only [idxLt, decide_eq_true_eq, decide_eq_false_iff_not] at *
  omega

/-- Writing a name-keyed map keeps its form. -/
theorem nameMap_put_wf {m : NameMap α} (k : Str) (v : α) (h : mapWf nameLt m) :
    mapWf nameLt (mapPut nameLt m k v) := mapWf_mapPut nameLt_trans nameLt_total k v h

/-- Writing an index-keyed map keeps its form. -/
theorem natMap_put_wf {m : NatMap α} (k : Nat) (v : α) (h : mapWf idxLt m) :
    mapWf idxLt (mapPut idxLt m k v) := mapWf_mapPut idxLt_trans idxLt_total k v h

/-- The entries below a bound keep what they read as, and no others are left. -/
theorem mapGet_below (m : NatMap Byte) (n j : Nat) : mapGet (below n m) j = if j < n then mapGet m j else none := by
  induction m with
  | nil => simp [below, mapGet]
  | cons e rest ih =>
    obtain ⟨k, v⟩ := e
    unfold below at *
    by_cases hn : k < n <;> by_cases hk : k = j <;> by_cases hj : j < n <;> simp_all [mapGet]

/-- The entries from a bound on keep what they read as, and no others are left. -/
theorem mapGet_beyond (m : NatMap Byte) (n j : Nat) : mapGet (beyond n m) j = if j < n then none else mapGet m j := by
  induction m with
  | nil => simp [beyond, mapGet]
  | cons e rest ih =>
    obtain ⟨k, v⟩ := e
    unfold beyond at *
    by_cases hn : n ≤ k <;> by_cases hk : k = j <;> simp_all [mapGet]

theorem mem_below {m : NatMap Byte} {n : Nat} {e : Nat × Byte} : e ∈ below n m ↔ e ∈ m ∧ e.1 < n := by
  simp [below]

theorem mem_beyond {m : NatMap Byte} {n : Nat} {e : Nat × Byte} : e ∈ beyond n m ↔ e ∈ m ∧ n ≤ e.1 := by
  simp [beyond]

/-- Reading after the writes that a list holds. -/
theorem mapGet_putAll (m h : NatMap Byte) (j : Nat) : mapGet (putAll m h) j = (mapGet h j).or (mapGet m j) := by
  induction h with
  | nil => simp [putAll, mapGet]
  | cons e rest ih =>
    obtain ⟨k, v⟩ := e
    show mapGet (mapPut idxLt (putAll m rest) k v) j = _
    by_cases hk : k = j
    · subst hk
      simp [mapGet, mapGet_mapPut_same]
    · rw [mapGet_mapPut_other _ _ _ (Ne.symm hk), ih]
      simp [mapGet, hk]

/-- Everything a buffer holds after the writes that a list holds. -/
theorem mem_putAll {m h : NatMap Byte} {e : Nat × Byte} (he : e ∈ putAll m h) : e ∈ m ∨ e ∈ h := by
  induction h with
  | nil => exact .inl he
  | cons x rest ih =>
    rcases mem_mapPut he with rfl | he
    · exact .inr (List.mem_cons_self ..)
    · exact (ih he).imp id (List.mem_cons_of_mem _)

theorem putAll_wf {m : NatMap Byte} (h : NatMap Byte) (hm : Memory.wf m) : Memory.wf (putAll m h) := by
  induction h with
  | nil => exact hm
  | cons e rest ih => exact natMap_put_wf _ _ ih

/-- Reading after writing a string of cells. -/
theorem mapGet_putCells (m : NatMap Byte) (i : Nat) (v : Str) (j : Nat) :
    mapGet (putCells m i v) j = if i ≤ j ∧ j < i + v.length then v[j - i]? else mapGet m j := by
  induction v generalizing m i with
  | nil => simp [putCells, show ¬ (i ≤ j ∧ j < i) by omega]
  | cons c v ih =>
    rw [putCells, ih]
    by_cases hj : j = i
    · subst hj
      simp [mapGet_mapPut_same]
    · rw [mapGet_mapPut_other _ _ _ hj]
      by_cases hlt : i + 1 ≤ j ∧ j < i + 1 + v.length
      · rw [if_pos hlt, if_pos (by simp only [List.length_cons]; omega), show j - i = (j - (i + 1)) + 1 by omega,
          List.getElem?_cons_succ]
      · rw [if_neg hlt, if_neg (by simp only [List.length_cons]; omega)]

/-- Everything a buffer holds after a string of cells is written. -/
theorem mem_putCells {m : NatMap Byte} {i : Nat} {v : Str} {e : Nat × Byte} (h : e ∈ putCells m i v) :
    e ∈ m ∨ e.1 < i + v.length := by
  induction v generalizing m i with
  | nil => exact .inl h
  | cons c v ih =>
    rw [putCells] at h
    simp only [List.length_cons]
    rcases ih h with h | h
    · rcases mem_mapPut h with rfl | h
      · exact .inr (by simp)
      · exact .inl h
    · exact .inr (by omega)

theorem putCells_wf {m : NatMap Byte} (i : Nat) (v : Str) (h : Memory.wf m) : Memory.wf (putCells m i v) := by
  induction v generalizing m i with
  | nil => exact h
  | cons c v ih => exact ih _ (natMap_put_wf _ _ h)

/-- Renewing the free values from `n` on leaves those below `n`. -/
theorem freeEpoch_freeFrom_lt (m : List (Nat × Nat)) {n i : Nat} (e : Nat) (h : i < n) :
    freeEpoch (freeFrom m n e) i = freeEpoch m i := by
  simp only [freeEpoch, freeFrom, List.find?_cons, show decide (n ≤ i) = false by simpa using h, List.find?_filter]
  congr 3
  funext x
  by_cases hx : x.1 ≤ i
  · simp [hx, show x.1 < n by omega]
  · simp [hx]

theorem freeEpoch_freeFrom_ge (m : List (Nat × Nat)) {n i : Nat} (e : Nat) (h : n ≤ i) :
    freeEpoch (freeFrom m n e) i = e := by
  simp [freeEpoch, freeFrom, h]

/-- A renewal in the next epoch keeps the canonical form. -/
theorem freeFrom_wf {fresh : Nat} {m : List (Nat × Nat)} (n : Nat) (h : freeWf fresh m) :
    freeWf (fresh + 1) (freeFrom m n (fresh + 1)) := by
  refine ⟨List.pairwise_cons.2 ⟨fun x hx => ?_, h.1.filter _⟩, fun x hx => ?_⟩
  · simpa using (List.mem_filter.1 hx).2
  · rcases List.mem_cons.1 hx with rfl | hx
    · exact Nat.le_refl _
    · exact Nat.le_succ_of_le (h.2 x (List.mem_filter.1 hx).1)

end Sys2Proof.Machine
end

