-- ==== Sys2Proof/Laws/State.lean ====
section
/-!
SUPPORT. Laws/State.lean: one lemma per field per named update of the state, true by rfl, so that no
later proof unfolds a record update. `raise`, `succeed` and `launchIn` are rewritten to the updates
they are.
-/

namespace Sys2Proof.Machine

variable (s : State)

@[simp] theorem raise_eq (c : Code) (e : Nat) : s.raise c e = s.complete c e := rfl
@[simp] theorem succeed_eq : s.succeed = s.complete .ok 0 := rfl
@[simp] theorem launchIn_eq (f : Nat) (pm : NameMap Int) : s.launchIn f pm = s.launch f (.str s.inText) pm := rfl

@[simp] theorem accept_build (w : BitVec 32) : (s.accept w).build = s.build := rfl
@[simp] theorem accept_prev (w : BitVec 32) : (s.accept w).prev = s.prev := rfl
@[simp] theorem accept_res (w : BitVec 32) : (s.accept w).res = s.res := rfl
@[simp] theorem accept_stepIdx (w : BitVec 32) : (s.accept w).stepIdx = s.stepIdx := rfl
@[simp] theorem accept_flow (w : BitVec 32) : (s.accept w).flow = s.flow := rfl
@[simp] theorem accept_status (w : BitVec 32) : (s.accept w).status = ⟨false, false⟩ := rfl
@[simp] theorem accept_err (w : BitVec 32) : (s.accept w).err = s.err := rfl
@[simp] theorem accept_reg (w : BitVec 32) : (s.accept w).reg = s.reg := rfl
@[simp] theorem accept_obs (w : BitVec 32) : (s.accept w).obs = s.obs := rfl
@[simp] theorem accept_params (w : BitVec 32) : (s.accept w).params = s.params := rfl
@[simp] theorem accept_evp (w : BitVec 32) : (s.accept w).evp = s.evp := rfl
@[simp] theorem accept_inBuf (w : BitVec 32) : (s.accept w).inBuf = s.inBuf := rfl
@[simp] theorem accept_inLen (w : BitVec 32) : (s.accept w).inLen = s.inLen := rfl
@[simp] theorem accept_nameBuf (w : BitVec 32) : (s.accept w).nameBuf = s.nameBuf := rfl
@[simp] theorem accept_nameLen (w : BitVec 32) : (s.accept w).nameLen = s.nameLen := rfl
@[simp] theorem accept_out (w : BitVec 32) : (s.accept w).out = s.out := rfl
@[simp] theorem accept_ovalid (w : BitVec 32) : (s.accept w).ovalid = s.ovalid := rfl
@[simp] theorem accept_activity (w : BitVec 32) : (s.accept w).activity = .command w := rfl
@[simp] theorem accept_env (w : BitVec 32) : (s.accept w).env = s.env := rfl
@[simp] theorem accept_trace (w : BitVec 32) : (s.accept w).trace = s.trace := rfl
@[simp] theorem accept_fresh (w : BitVec 32) : (s.accept w).fresh = s.fresh := rfl
@[simp] theorem accept_inFree (w : BitVec 32) : (s.accept w).inFree = s.inFree := rfl
@[simp] theorem accept_nameFree (w : BitVec 32) : (s.accept w).nameFree = s.nameFree := rfl
@[simp] theorem accept_inHeld (w : BitVec 32) : (s.accept w).inHeld = s.inHeld := rfl
@[simp] theorem accept_nameHeld (w : BitVec 32) : (s.accept w).nameHeld = s.nameHeld := rfl

@[simp] theorem complete_build (c : Code) (e : Nat) : (s.complete c e).build = s.build := rfl
@[simp] theorem complete_prev (c : Code) (e : Nat) : (s.complete c e).prev = s.prev := rfl
@[simp] theorem complete_res (c : Code) (e : Nat) : (s.complete c e).res = s.res := rfl
@[simp] theorem complete_stepIdx (c : Code) (e : Nat) : (s.complete c e).stepIdx = s.stepIdx := rfl
@[simp] theorem complete_flow (c : Code) (e : Nat) : (s.complete c e).flow = s.flow := rfl
@[simp] theorem complete_status (c : Code) (e : Nat) : (s.complete c e).status = ⟨true, decide (c ≠ .ok)⟩ := rfl
@[simp] theorem complete_err (c : Code) (e : Nat) : (s.complete c e).err = ⟨c, e⟩ := rfl
@[simp] theorem complete_reg (c : Code) (e : Nat) : (s.complete c e).reg = s.reg := rfl
@[simp] theorem complete_obs (c : Code) (e : Nat) : (s.complete c e).obs = s.obs := rfl
@[simp] theorem complete_params (c : Code) (e : Nat) : (s.complete c e).params = s.params := rfl
@[simp] theorem complete_evp (c : Code) (e : Nat) : (s.complete c e).evp = s.evp := rfl
@[simp] theorem complete_inBuf (c : Code) (e : Nat) : (s.complete c e).inBuf = s.inBuf := rfl
@[simp] theorem complete_inLen (c : Code) (e : Nat) : (s.complete c e).inLen = s.inLen := rfl
@[simp] theorem complete_nameBuf (c : Code) (e : Nat) : (s.complete c e).nameBuf = s.nameBuf := rfl
@[simp] theorem complete_nameLen (c : Code) (e : Nat) : (s.complete c e).nameLen = s.nameLen := rfl
@[simp] theorem complete_out (c : Code) (e : Nat) : (s.complete c e).out = s.out := rfl
@[simp] theorem complete_ovalid (c : Code) (e : Nat) : (s.complete c e).ovalid = s.ovalid := rfl
@[simp] theorem complete_activity (c : Code) (e : Nat) : (s.complete c e).activity = .idle := rfl
@[simp] theorem complete_env (c : Code) (e : Nat) : (s.complete c e).env = s.env := rfl
@[simp] theorem complete_trace (c : Code) (e : Nat) : (s.complete c e).trace = s.trace := rfl
@[simp] theorem complete_fresh (c : Code) (e : Nat) : (s.complete c e).fresh = s.fresh := rfl
@[simp] theorem complete_inFree (c : Code) (e : Nat) : (s.complete c e).inFree = s.inFree := rfl
@[simp] theorem complete_nameFree (c : Code) (e : Nat) : (s.complete c e).nameFree = s.nameFree := rfl
@[simp] theorem complete_inHeld (c : Code) (e : Nat) : (s.complete c e).inHeld = s.inHeld := rfl
@[simp] theorem complete_nameHeld (c : Code) (e : Nat) : (s.complete c e).nameHeld = s.nameHeld := rfl

@[simp] theorem launch_build (f : Nat) (v : Value) (pm : NameMap Int) : (s.launch f v pm).build = s.build := rfl
@[simp] theorem launch_prev (f : Nat) (v : Value) (pm : NameMap Int) : (s.launch f v pm).prev = v := rfl
@[simp] theorem launch_res (f : Nat) (v : Value) (pm : NameMap Int) : (s.launch f v pm).res = [] := rfl
@[simp] theorem launch_stepIdx (f : Nat) (v : Value) (pm : NameMap Int) : (s.launch f v pm).stepIdx = 0 := rfl
@[simp] theorem launch_flow (f : Nat) (v : Value) (pm : NameMap Int) : (s.launch f v pm).flow = ⟨f, true⟩ := rfl
@[simp] theorem launch_status (f : Nat) (v : Value) (pm : NameMap Int) : (s.launch f v pm).status = s.status := rfl
@[simp] theorem launch_err (f : Nat) (v : Value) (pm : NameMap Int) : (s.launch f v pm).err = s.err := rfl
@[simp] theorem launch_reg (f : Nat) (v : Value) (pm : NameMap Int) : (s.launch f v pm).reg = s.reg := rfl
@[simp] theorem launch_obs (f : Nat) (v : Value) (pm : NameMap Int) : (s.launch f v pm).obs = s.obs := rfl
@[simp] theorem launch_params (f : Nat) (v : Value) (pm : NameMap Int) : (s.launch f v pm).params = s.params := rfl
@[simp] theorem launch_evp (f : Nat) (v : Value) (pm : NameMap Int) : (s.launch f v pm).evp = s.evp := rfl
@[simp] theorem launch_inBuf (f : Nat) (v : Value) (pm : NameMap Int) : (s.launch f v pm).inBuf = s.inBuf := rfl
@[simp] theorem launch_inLen (f : Nat) (v : Value) (pm : NameMap Int) : (s.launch f v pm).inLen = s.inLen := rfl
@[simp] theorem launch_nameBuf (f : Nat) (v : Value) (pm : NameMap Int) : (s.launch f v pm).nameBuf = s.nameBuf := rfl
@[simp] theorem launch_nameLen (f : Nat) (v : Value) (pm : NameMap Int) : (s.launch f v pm).nameLen = s.nameLen := rfl
@[simp] theorem launch_out (f : Nat) (v : Value) (pm : NameMap Int) : (s.launch f v pm).out = s.out := rfl
@[simp] theorem launch_ovalid (f : Nat) (v : Value) (pm : NameMap Int) : (s.launch f v pm).ovalid = false := rfl
@[simp] theorem launch_activity (f : Nat) (v : Value) (pm : NameMap Int) : (s.launch f v pm).activity = .running pm := rfl
@[simp] theorem launch_env (f : Nat) (v : Value) (pm : NameMap Int) : (s.launch f v pm).env = s.env := rfl
@[simp] theorem launch_trace (f : Nat) (v : Value) (pm : NameMap Int) : (s.launch f v pm).trace = s.trace := rfl
@[simp] theorem launch_fresh (f : Nat) (v : Value) (pm : NameMap Int) : (s.launch f v pm).fresh = s.fresh := rfl
@[simp] theorem launch_inFree (f : Nat) (v : Value) (pm : NameMap Int) : (s.launch f v pm).inFree = s.inFree := rfl
@[simp] theorem launch_nameFree (f : Nat) (v : Value) (pm : NameMap Int) : (s.launch f v pm).nameFree = s.nameFree := rfl
@[simp] theorem launch_inHeld (f : Nat) (v : Value) (pm : NameMap Int) : (s.launch f v pm).inHeld = s.inHeld := rfl
@[simp] theorem launch_nameHeld (f : Nat) (v : Value) (pm : NameMap Int) : (s.launch f v pm).nameHeld = s.nameHeld := rfl

@[simp] theorem subscribe_build (f k : Nat) : (s.subscribe f k).build = s.build := rfl
@[simp] theorem subscribe_prev (f k : Nat) : (s.subscribe f k).prev = s.prev := rfl
@[simp] theorem subscribe_res (f k : Nat) : (s.subscribe f k).res = s.res := rfl
@[simp] theorem subscribe_stepIdx (f k : Nat) : (s.subscribe f k).stepIdx = s.stepIdx := rfl
@[simp] theorem subscribe_flow (f k : Nat) : (s.subscribe f k).flow = s.flow := rfl
@[simp] theorem subscribe_status (f k : Nat) : (s.subscribe f k).status = s.status := rfl
@[simp] theorem subscribe_err (f k : Nat) : (s.subscribe f k).err = s.err := rfl
@[simp] theorem subscribe_reg (f k : Nat) : (s.subscribe f k).reg = s.reg := rfl
@[simp] theorem subscribe_obs (f k : Nat) : (s.subscribe f k).obs = if k ∈ s.obsOf f then s.obs else mapPut idxLt s.obs f (s.obsOf f ++ [k]) := rfl
@[simp] theorem subscribe_params (f k : Nat) : (s.subscribe f k).params = s.params := rfl
@[simp] theorem subscribe_evp (f k : Nat) : (s.subscribe f k).evp = s.evp := rfl
@[simp] theorem subscribe_inBuf (f k : Nat) : (s.subscribe f k).inBuf = s.inBuf := rfl
@[simp] theorem subscribe_inLen (f k : Nat) : (s.subscribe f k).inLen = s.inLen := rfl
@[simp] theorem subscribe_nameBuf (f k : Nat) : (s.subscribe f k).nameBuf = s.nameBuf := rfl
@[simp] theorem subscribe_nameLen (f k : Nat) : (s.subscribe f k).nameLen = s.nameLen := rfl
@[simp] theorem subscribe_out (f k : Nat) : (s.subscribe f k).out = s.out := rfl
@[simp] theorem subscribe_ovalid (f k : Nat) : (s.subscribe f k).ovalid = s.ovalid := rfl
@[simp] theorem subscribe_activity (f k : Nat) : (s.subscribe f k).activity = s.activity := rfl
@[simp] theorem subscribe_env (f k : Nat) : (s.subscribe f k).env = s.env := rfl
@[simp] theorem subscribe_trace (f k : Nat) : (s.subscribe f k).trace = s.trace := rfl
@[simp] theorem subscribe_fresh (f k : Nat) : (s.subscribe f k).fresh = s.fresh := rfl
@[simp] theorem subscribe_inFree (f k : Nat) : (s.subscribe f k).inFree = s.inFree := rfl
@[simp] theorem subscribe_nameFree (f k : Nat) : (s.subscribe f k).nameFree = s.nameFree := rfl
@[simp] theorem subscribe_inHeld (f k : Nat) : (s.subscribe f k).inHeld = s.inHeld := rfl
@[simp] theorem subscribe_nameHeld (f k : Nat) : (s.subscribe f k).nameHeld = s.nameHeld := rfl

@[simp] theorem publish_build (t : Task) (v : Value) : (s.publish t v).build = s.build := rfl
@[simp] theorem publish_prev (t : Task) (v : Value) : (s.publish t v).prev = v := rfl
@[simp] theorem publish_res (t : Task) (v : Value) : (s.publish t v).res = mapPut nameLt s.res t.name v := rfl
@[simp] theorem publish_stepIdx (t : Task) (v : Value) : (s.publish t v).stepIdx = if s.sinks.isEmpty then s.stepIdx + 1 else s.stepIdx := rfl
@[simp] theorem publish_flow (t : Task) (v : Value) : (s.publish t v).flow = s.flow := rfl
@[simp] theorem publish_status (t : Task) (v : Value) : (s.publish t v).status = s.status := rfl
@[simp] theorem publish_err (t : Task) (v : Value) : (s.publish t v).err = s.err := rfl
@[simp] theorem publish_reg (t : Task) (v : Value) : (s.publish t v).reg = s.reg := rfl
@[simp] theorem publish_obs (t : Task) (v : Value) : (s.publish t v).obs = s.obs := rfl
@[simp] theorem publish_params (t : Task) (v : Value) : (s.publish t v).params = s.params := rfl
@[simp] theorem publish_evp (t : Task) (v : Value) : (s.publish t v).evp = if s.sinks.isEmpty then none else some ⟨taskEvent s t v, 0⟩ := rfl
@[simp] theorem publish_inBuf (t : Task) (v : Value) : (s.publish t v).inBuf = s.inBuf := rfl
@[simp] theorem publish_inLen (t : Task) (v : Value) : (s.publish t v).inLen = s.inLen := rfl
@[simp] theorem publish_nameBuf (t : Task) (v : Value) : (s.publish t v).nameBuf = s.nameBuf := rfl
@[simp] theorem publish_nameLen (t : Task) (v : Value) : (s.publish t v).nameLen = s.nameLen := rfl
@[simp] theorem publish_out (t : Task) (v : Value) : (s.publish t v).out = s.out := rfl
@[simp] theorem publish_ovalid (t : Task) (v : Value) : (s.publish t v).ovalid = s.ovalid := rfl
@[simp] theorem publish_activity (t : Task) (v : Value) : (s.publish t v).activity = s.activity := rfl
@[simp] theorem publish_env (t : Task) (v : Value) : (s.publish t v).env = s.env := rfl
@[simp] theorem publish_trace (t : Task) (v : Value) : (s.publish t v).trace = s.trace := rfl
@[simp] theorem publish_fresh (t : Task) (v : Value) : (s.publish t v).fresh = s.fresh := rfl
@[simp] theorem publish_inFree (t : Task) (v : Value) : (s.publish t v).inFree = s.inFree := rfl
@[simp] theorem publish_nameFree (t : Task) (v : Value) : (s.publish t v).nameFree = s.nameFree := rfl
@[simp] theorem publish_inHeld (t : Task) (v : Value) : (s.publish t v).inHeld = s.inHeld := rfl
@[simp] theorem publish_nameHeld (t : Task) (v : Value) : (s.publish t v).nameHeld = s.nameHeld := rfl

@[simp] theorem deliver_build (k : Nat) (p : PendingEvent) : (s.deliver k p).build = s.build := rfl
@[simp] theorem deliver_prev (k : Nat) (p : PendingEvent) : (s.deliver k p).prev = s.prev := rfl
@[simp] theorem deliver_res (k : Nat) (p : PendingEvent) : (s.deliver k p).res = s.res := rfl
@[simp] theorem deliver_stepIdx (k : Nat) (p : PendingEvent) : (s.deliver k p).stepIdx = if p.next + 1 < s.sinks.length then s.stepIdx else s.stepIdx + 1 := rfl
@[simp] theorem deliver_flow (k : Nat) (p : PendingEvent) : (s.deliver k p).flow = s.flow := rfl
@[simp] theorem deliver_status (k : Nat) (p : PendingEvent) : (s.deliver k p).status = s.status := rfl
@[simp] theorem deliver_err (k : Nat) (p : PendingEvent) : (s.deliver k p).err = s.err := rfl
@[simp] theorem deliver_reg (k : Nat) (p : PendingEvent) : (s.deliver k p).reg = s.reg := rfl
@[simp] theorem deliver_obs (k : Nat) (p : PendingEvent) : (s.deliver k p).obs = s.obs := rfl
@[simp] theorem deliver_params (k : Nat) (p : PendingEvent) : (s.deliver k p).params = s.params := rfl
@[simp] theorem deliver_evp (k : Nat) (p : PendingEvent) : (s.deliver k p).evp = if p.next + 1 < s.sinks.length then some ⟨p.event, p.next + 1⟩ else none := rfl
@[simp] theorem deliver_inBuf (k : Nat) (p : PendingEvent) : (s.deliver k p).inBuf = s.inBuf := rfl
@[simp] theorem deliver_inLen (k : Nat) (p : PendingEvent) : (s.deliver k p).inLen = s.inLen := rfl
@[simp] theorem deliver_nameBuf (k : Nat) (p : PendingEvent) : (s.deliver k p).nameBuf = s.nameBuf := rfl
@[simp] theorem deliver_nameLen (k : Nat) (p : PendingEvent) : (s.deliver k p).nameLen = s.nameLen := rfl
@[simp] theorem deliver_out (k : Nat) (p : PendingEvent) : (s.deliver k p).out = s.out := rfl
@[simp] theorem deliver_ovalid (k : Nat) (p : PendingEvent) : (s.deliver k p).ovalid = s.ovalid := rfl
@[simp] theorem deliver_activity (k : Nat) (p : PendingEvent) : (s.deliver k p).activity = s.activity := rfl
@[simp] theorem deliver_env (k : Nat) (p : PendingEvent) : (s.deliver k p).env = s.env := rfl
@[simp] theorem deliver_trace (k : Nat) (p : PendingEvent) : (s.deliver k p).trace = s.trace ++ [⟨k, p.event⟩] := rfl
@[simp] theorem deliver_fresh (k : Nat) (p : PendingEvent) : (s.deliver k p).fresh = s.fresh := rfl
@[simp] theorem deliver_inFree (k : Nat) (p : PendingEvent) : (s.deliver k p).inFree = s.inFree := rfl
@[simp] theorem deliver_nameFree (k : Nat) (p : PendingEvent) : (s.deliver k p).nameFree = s.nameFree := rfl
@[simp] theorem deliver_inHeld (k : Nat) (p : PendingEvent) : (s.deliver k p).inHeld = s.inHeld := rfl
@[simp] theorem deliver_nameHeld (k : Nat) (p : PendingEvent) : (s.deliver k p).nameHeld = s.nameHeld := rfl

@[simp] theorem finish_build : (s.finish).build = s.build := rfl
@[simp] theorem finish_prev : (s.finish).prev = s.prev := rfl
@[simp] theorem finish_res : (s.finish).res = s.res := rfl
@[simp] theorem finish_stepIdx : (s.finish).stepIdx = s.stepIdx := rfl
@[simp] theorem finish_flow : (s.finish).flow = s.flow := rfl
@[simp] theorem finish_status : (s.finish).status = ⟨true, false⟩ := rfl
@[simp] theorem finish_err : (s.finish).err = ⟨.ok, 0⟩ := rfl
@[simp] theorem finish_reg : (s.finish).reg = s.reg := rfl
@[simp] theorem finish_obs : (s.finish).obs = s.obs := rfl
@[simp] theorem finish_params : (s.finish).params = s.params := rfl
@[simp] theorem finish_evp : (s.finish).evp = s.evp := rfl
@[simp] theorem finish_inBuf : (s.finish).inBuf = s.inBuf := rfl
@[simp] theorem finish_inLen : (s.finish).inLen = s.inLen := rfl
@[simp] theorem finish_nameBuf : (s.finish).nameBuf = s.nameBuf := rfl
@[simp] theorem finish_nameLen : (s.finish).nameLen = s.nameLen := rfl
@[simp] theorem finish_out : (s.finish).out = s.prev := rfl
@[simp] theorem finish_ovalid : (s.finish).ovalid = true := rfl
@[simp] theorem finish_activity : (s.finish).activity = .idle := rfl
@[simp] theorem finish_env : (s.finish).env = s.env := rfl
@[simp] theorem finish_trace : (s.finish).trace = s.trace := rfl
@[simp] theorem finish_fresh : (s.finish).fresh = s.fresh := rfl
@[simp] theorem finish_inFree : (s.finish).inFree = s.inFree := rfl
@[simp] theorem finish_nameFree : (s.finish).nameFree = s.nameFree := rfl
@[simp] theorem finish_inHeld : (s.finish).inHeld = s.inHeld := rfl
@[simp] theorem finish_nameHeld : (s.finish).nameHeld = s.nameHeld := rfl

@[simp] theorem shortCircuit_build : (s.shortCircuit).build = s.build := rfl
@[simp] theorem shortCircuit_prev : (s.shortCircuit).prev = s.prev := rfl
@[simp] theorem shortCircuit_res : (s.shortCircuit).res = s.res := rfl
@[simp] theorem shortCircuit_stepIdx : (s.shortCircuit).stepIdx = s.stepIdx := rfl
@[simp] theorem shortCircuit_flow : (s.shortCircuit).flow = s.flow := rfl
@[simp] theorem shortCircuit_status : (s.shortCircuit).status = ⟨true, false⟩ := rfl
@[simp] theorem shortCircuit_err : (s.shortCircuit).err = ⟨.ok, 0⟩ := rfl
@[simp] theorem shortCircuit_reg : (s.shortCircuit).reg = s.reg := rfl
@[simp] theorem shortCircuit_obs : (s.shortCircuit).obs = s.obs := rfl
@[simp] theorem shortCircuit_params : (s.shortCircuit).params = s.params := rfl
@[simp] theorem shortCircuit_evp : (s.shortCircuit).evp = s.evp := rfl
@[simp] theorem shortCircuit_inBuf : (s.shortCircuit).inBuf = s.inBuf := rfl
@[simp] theorem shortCircuit_inLen : (s.shortCircuit).inLen = s.inLen := rfl
@[simp] theorem shortCircuit_nameBuf : (s.shortCircuit).nameBuf = s.nameBuf := rfl
@[simp] theorem shortCircuit_nameLen : (s.shortCircuit).nameLen = s.nameLen := rfl
@[simp] theorem shortCircuit_out : (s.shortCircuit).out = .str [] := rfl
@[simp] theorem shortCircuit_ovalid : (s.shortCircuit).ovalid = true := rfl
@[simp] theorem shortCircuit_activity : (s.shortCircuit).activity = .idle := rfl
@[simp] theorem shortCircuit_env : (s.shortCircuit).env = s.env := rfl
@[simp] theorem shortCircuit_trace : (s.shortCircuit).trace = s.trace := rfl
@[simp] theorem shortCircuit_fresh : (s.shortCircuit).fresh = s.fresh := rfl
@[simp] theorem shortCircuit_inFree : (s.shortCircuit).inFree = s.inFree := rfl
@[simp] theorem shortCircuit_nameFree : (s.shortCircuit).nameFree = s.nameFree := rfl
@[simp] theorem shortCircuit_inHeld : (s.shortCircuit).inHeld = s.inHeld := rfl
@[simp] theorem shortCircuit_nameHeld : (s.shortCircuit).nameHeld = s.nameHeld := rfl

@[simp] theorem resetNow_build : (s.resetNow).build = s.build := rfl
@[simp] theorem resetNow_prev : (s.resetNow).prev = .str [] := rfl
@[simp] theorem resetNow_res : (s.resetNow).res = [] := rfl
@[simp] theorem resetNow_stepIdx : (s.resetNow).stepIdx = 0 := rfl
@[simp] theorem resetNow_flow : (s.resetNow).flow = ⟨0, false⟩ := rfl
@[simp] theorem resetNow_status : (s.resetNow).status = ⟨false, false⟩ := rfl
@[simp] theorem resetNow_err : (s.resetNow).err = ⟨.ok, 0⟩ := rfl
@[simp] theorem resetNow_reg : (s.resetNow).reg = builtinRegistry := rfl
@[simp] theorem resetNow_obs : (s.resetNow).obs = [] := rfl
@[simp] theorem resetNow_params : (s.resetNow).params = [] := rfl
@[simp] theorem resetNow_evp : (s.resetNow).evp = none := rfl
@[simp] theorem resetNow_inBuf : (s.resetNow).inBuf = [] := rfl
@[simp] theorem resetNow_inLen : (s.resetNow).inLen = 0 := rfl
@[simp] theorem resetNow_nameBuf : (s.resetNow).nameBuf = [] := rfl
@[simp] theorem resetNow_nameLen : (s.resetNow).nameLen = 0 := rfl
@[simp] theorem resetNow_out : (s.resetNow).out = .str [] := rfl
@[simp] theorem resetNow_ovalid : (s.resetNow).ovalid = false := rfl
@[simp] theorem resetNow_activity : (s.resetNow).activity = .idle := rfl
@[simp] theorem resetNow_env : (s.resetNow).env = s.env := rfl
@[simp] theorem resetNow_trace : (s.resetNow).trace = s.trace := rfl
@[simp] theorem resetNow_fresh : (s.resetNow).fresh = s.fresh + 1 := rfl
@[simp] theorem resetNow_inFree : (s.resetNow).inFree = [(0, s.fresh + 1)] := rfl
@[simp] theorem resetNow_nameFree : (s.resetNow).nameFree = [(0, s.fresh + 1)] := rfl
@[simp] theorem resetNow_inHeld : (s.resetNow).inHeld = [] := rfl
@[simp] theorem resetNow_nameHeld : (s.resetNow).nameHeld = [] := rfl

@[simp] theorem setBuf_build (sp : Space) (m : NatMap Byte) : (s.setBuf sp m).build = s.build := rfl
@[simp] theorem setBuf_prev (sp : Space) (m : NatMap Byte) : (s.setBuf sp m).prev = s.prev := rfl
@[simp] theorem setBuf_res (sp : Space) (m : NatMap Byte) : (s.setBuf sp m).res = s.res := rfl
@[simp] theorem setBuf_stepIdx (sp : Space) (m : NatMap Byte) : (s.setBuf sp m).stepIdx = s.stepIdx := rfl
@[simp] theorem setBuf_flow (sp : Space) (m : NatMap Byte) : (s.setBuf sp m).flow = s.flow := rfl
@[simp] theorem setBuf_status (sp : Space) (m : NatMap Byte) : (s.setBuf sp m).status = s.status := rfl
@[simp] theorem setBuf_err (sp : Space) (m : NatMap Byte) : (s.setBuf sp m).err = s.err := rfl
@[simp] theorem setBuf_reg (sp : Space) (m : NatMap Byte) : (s.setBuf sp m).reg = s.reg := rfl
@[simp] theorem setBuf_obs (sp : Space) (m : NatMap Byte) : (s.setBuf sp m).obs = s.obs := rfl
@[simp] theorem setBuf_params (sp : Space) (m : NatMap Byte) : (s.setBuf sp m).params = s.params := rfl
@[simp] theorem setBuf_evp (sp : Space) (m : NatMap Byte) : (s.setBuf sp m).evp = s.evp := rfl
@[simp] theorem setBuf_inLen (sp : Space) (m : NatMap Byte) : (s.setBuf sp m).inLen = s.inLen := rfl
@[simp] theorem setBuf_nameLen (sp : Space) (m : NatMap Byte) : (s.setBuf sp m).nameLen = s.nameLen := rfl
@[simp] theorem setBuf_out (sp : Space) (m : NatMap Byte) : (s.setBuf sp m).out = s.out := rfl
@[simp] theorem setBuf_ovalid (sp : Space) (m : NatMap Byte) : (s.setBuf sp m).ovalid = s.ovalid := rfl
@[simp] theorem setBuf_activity (sp : Space) (m : NatMap Byte) : (s.setBuf sp m).activity = s.activity := rfl
@[simp] theorem setBuf_env (sp : Space) (m : NatMap Byte) : (s.setBuf sp m).env = s.env := rfl
@[simp] theorem setBuf_trace (sp : Space) (m : NatMap Byte) : (s.setBuf sp m).trace = s.trace := rfl
@[simp] theorem setBuf_fresh (sp : Space) (m : NatMap Byte) : (s.setBuf sp m).fresh = s.fresh := rfl
@[simp] theorem setBuf_inFree (sp : Space) (m : NatMap Byte) : (s.setBuf sp m).inFree = s.inFree := rfl
@[simp] theorem setBuf_nameFree (sp : Space) (m : NatMap Byte) : (s.setBuf sp m).nameFree = s.nameFree := rfl
@[simp] theorem setBuf_inHeld (sp : Space) (m : NatMap Byte) : (s.setBuf sp m).inHeld = s.inHeld := rfl
@[simp] theorem setBuf_nameHeld (sp : Space) (m : NatMap Byte) : (s.setBuf sp m).nameHeld = s.nameHeld := rfl

@[simp] theorem setCell_build (sp : Space) (i : Nat) (c : Byte) : (s.setCell sp i c).build = s.build := rfl
@[simp] theorem setCell_prev (sp : Space) (i : Nat) (c : Byte) : (s.setCell sp i c).prev = s.prev := rfl
@[simp] theorem setCell_res (sp : Space) (i : Nat) (c : Byte) : (s.setCell sp i c).res = s.res := rfl
@[simp] theorem setCell_stepIdx (sp : Space) (i : Nat) (c : Byte) : (s.setCell sp i c).stepIdx = s.stepIdx := rfl
@[simp] theorem setCell_flow (sp : Space) (i : Nat) (c : Byte) : (s.setCell sp i c).flow = s.flow := rfl
@[simp] theorem setCell_status (sp : Space) (i : Nat) (c : Byte) : (s.setCell sp i c).status = s.status := rfl
@[simp] theorem setCell_err (sp : Space) (i : Nat) (c : Byte) : (s.setCell sp i c).err = s.err := rfl
@[simp] theorem setCell_reg (sp : Space) (i : Nat) (c : Byte) : (s.setCell sp i c).reg = s.reg := rfl
@[simp] theorem setCell_obs (sp : Space) (i : Nat) (c : Byte) : (s.setCell sp i c).obs = s.obs := rfl
@[simp] theorem setCell_params (sp : Space) (i : Nat) (c : Byte) : (s.setCell sp i c).params = s.params := rfl
@[simp] theorem setCell_evp (sp : Space) (i : Nat) (c : Byte) : (s.setCell sp i c).evp = s.evp := rfl
@[simp] theorem setCell_inLen (sp : Space) (i : Nat) (c : Byte) : (s.setCell sp i c).inLen = s.inLen := rfl
@[simp] theorem setCell_nameLen (sp : Space) (i : Nat) (c : Byte) : (s.setCell sp i c).nameLen = s.nameLen := rfl
@[simp] theorem setCell_out (sp : Space) (i : Nat) (c : Byte) : (s.setCell sp i c).out = s.out := rfl
@[simp] theorem setCell_ovalid (sp : Space) (i : Nat) (c : Byte) : (s.setCell sp i c).ovalid = s.ovalid := rfl
@[simp] theorem setCell_activity (sp : Space) (i : Nat) (c : Byte) : (s.setCell sp i c).activity = s.activity := rfl
@[simp] theorem setCell_env (sp : Space) (i : Nat) (c : Byte) : (s.setCell sp i c).env = s.env := rfl
@[simp] theorem setCell_trace (sp : Space) (i : Nat) (c : Byte) : (s.setCell sp i c).trace = s.trace := rfl
@[simp] theorem setCell_fresh (sp : Space) (i : Nat) (c : Byte) : (s.setCell sp i c).fresh = s.fresh := rfl
@[simp] theorem setCell_inFree (sp : Space) (i : Nat) (c : Byte) : (s.setCell sp i c).inFree = s.inFree := rfl
@[simp] theorem setCell_nameFree (sp : Space) (i : Nat) (c : Byte) : (s.setCell sp i c).nameFree = s.nameFree := rfl
@[simp] theorem setCell_inHeld (sp : Space) (i : Nat) (c : Byte) : (s.setCell sp i c).inHeld = s.inHeld := rfl
@[simp] theorem setCell_nameHeld (sp : Space) (i : Nat) (c : Byte) : (s.setCell sp i c).nameHeld = s.nameHeld := rfl

@[simp] theorem setLen_build (sp : Space) (n : BitVec 32) : (s.setLen sp n).build = s.build := rfl
@[simp] theorem setLen_prev (sp : Space) (n : BitVec 32) : (s.setLen sp n).prev = s.prev := rfl
@[simp] theorem setLen_res (sp : Space) (n : BitVec 32) : (s.setLen sp n).res = s.res := rfl
@[simp] theorem setLen_stepIdx (sp : Space) (n : BitVec 32) : (s.setLen sp n).stepIdx = s.stepIdx := rfl
@[simp] theorem setLen_flow (sp : Space) (n : BitVec 32) : (s.setLen sp n).flow = s.flow := rfl
@[simp] theorem setLen_status (sp : Space) (n : BitVec 32) : (s.setLen sp n).status = s.status := rfl
@[simp] theorem setLen_err (sp : Space) (n : BitVec 32) : (s.setLen sp n).err = s.err := rfl
@[simp] theorem setLen_reg (sp : Space) (n : BitVec 32) : (s.setLen sp n).reg = s.reg := rfl
@[simp] theorem setLen_obs (sp : Space) (n : BitVec 32) : (s.setLen sp n).obs = s.obs := rfl
@[simp] theorem setLen_params (sp : Space) (n : BitVec 32) : (s.setLen sp n).params = s.params := rfl
@[simp] theorem setLen_evp (sp : Space) (n : BitVec 32) : (s.setLen sp n).evp = s.evp := rfl
@[simp] theorem setLen_out (sp : Space) (n : BitVec 32) : (s.setLen sp n).out = s.out := rfl
@[simp] theorem setLen_ovalid (sp : Space) (n : BitVec 32) : (s.setLen sp n).ovalid = s.ovalid := rfl
@[simp] theorem setLen_activity (sp : Space) (n : BitVec 32) : (s.setLen sp n).activity = s.activity := rfl
@[simp] theorem setLen_env (sp : Space) (n : BitVec 32) : (s.setLen sp n).env = s.env := rfl
@[simp] theorem setLen_trace (sp : Space) (n : BitVec 32) : (s.setLen sp n).trace = s.trace := rfl

@[simp] theorem hold_build (sp : Space) (i : Nat) (c : Byte) : (s.hold sp i c).build = s.build := rfl
@[simp] theorem hold_prev (sp : Space) (i : Nat) (c : Byte) : (s.hold sp i c).prev = s.prev := rfl
@[simp] theorem hold_res (sp : Space) (i : Nat) (c : Byte) : (s.hold sp i c).res = s.res := rfl
@[simp] theorem hold_stepIdx (sp : Space) (i : Nat) (c : Byte) : (s.hold sp i c).stepIdx = s.stepIdx := rfl
@[simp] theorem hold_flow (sp : Space) (i : Nat) (c : Byte) : (s.hold sp i c).flow = s.flow := rfl
@[simp] theorem hold_status (sp : Space) (i : Nat) (c : Byte) : (s.hold sp i c).status = s.status := rfl
@[simp] theorem hold_err (sp : Space) (i : Nat) (c : Byte) : (s.hold sp i c).err = s.err := rfl
@[simp] theorem hold_reg (sp : Space) (i : Nat) (c : Byte) : (s.hold sp i c).reg = s.reg := rfl
@[simp] theorem hold_obs (sp : Space) (i : Nat) (c : Byte) : (s.hold sp i c).obs = s.obs := rfl
@[simp] theorem hold_params (sp : Space) (i : Nat) (c : Byte) : (s.hold sp i c).params = s.params := rfl
@[simp] theorem hold_evp (sp : Space) (i : Nat) (c : Byte) : (s.hold sp i c).evp = s.evp := rfl
@[simp] theorem hold_inBuf (sp : Space) (i : Nat) (c : Byte) : (s.hold sp i c).inBuf = s.inBuf := rfl
@[simp] theorem hold_inLen (sp : Space) (i : Nat) (c : Byte) : (s.hold sp i c).inLen = s.inLen := rfl
@[simp] theorem hold_nameBuf (sp : Space) (i : Nat) (c : Byte) : (s.hold sp i c).nameBuf = s.nameBuf := rfl
@[simp] theorem hold_nameLen (sp : Space) (i : Nat) (c : Byte) : (s.hold sp i c).nameLen = s.nameLen := rfl
@[simp] theorem hold_out (sp : Space) (i : Nat) (c : Byte) : (s.hold sp i c).out = s.out := rfl
@[simp] theorem hold_ovalid (sp : Space) (i : Nat) (c : Byte) : (s.hold sp i c).ovalid = s.ovalid := rfl
@[simp] theorem hold_activity (sp : Space) (i : Nat) (c : Byte) : (s.hold sp i c).activity = s.activity := rfl
@[simp] theorem hold_env (sp : Space) (i : Nat) (c : Byte) : (s.hold sp i c).env = s.env := rfl
@[simp] theorem hold_trace (sp : Space) (i : Nat) (c : Byte) : (s.hold sp i c).trace = s.trace := rfl
@[simp] theorem hold_fresh (sp : Space) (i : Nat) (c : Byte) : (s.hold sp i c).fresh = s.fresh := rfl
@[simp] theorem hold_inFree (sp : Space) (i : Nat) (c : Byte) : (s.hold sp i c).inFree = s.inFree := rfl
@[simp] theorem hold_nameFree (sp : Space) (i : Nat) (c : Byte) : (s.hold sp i c).nameFree = s.nameFree := rfl

@[simp] theorem memWrite_build (sp : Space) (i : Nat) (v : Str) : (memWrite s sp i v).build = s.build := rfl
@[simp] theorem memWrite_prev (sp : Space) (i : Nat) (v : Str) : (memWrite s sp i v).prev = s.prev := rfl
@[simp] theorem memWrite_res (sp : Space) (i : Nat) (v : Str) : (memWrite s sp i v).res = s.res := rfl
@[simp] theorem memWrite_stepIdx (sp : Space) (i : Nat) (v : Str) : (memWrite s sp i v).stepIdx = s.stepIdx := rfl
@[simp] theorem memWrite_flow (sp : Space) (i : Nat) (v : Str) : (memWrite s sp i v).flow = s.flow := rfl
@[simp] theorem memWrite_status (sp : Space) (i : Nat) (v : Str) : (memWrite s sp i v).status = s.status := rfl
@[simp] theorem memWrite_err (sp : Space) (i : Nat) (v : Str) : (memWrite s sp i v).err = s.err := rfl
@[simp] theorem memWrite_reg (sp : Space) (i : Nat) (v : Str) : (memWrite s sp i v).reg = s.reg := rfl
@[simp] theorem memWrite_obs (sp : Space) (i : Nat) (v : Str) : (memWrite s sp i v).obs = s.obs := rfl
@[simp] theorem memWrite_params (sp : Space) (i : Nat) (v : Str) : (memWrite s sp i v).params = s.params := rfl
@[simp] theorem memWrite_evp (sp : Space) (i : Nat) (v : Str) : (memWrite s sp i v).evp = s.evp := rfl
@[simp] theorem memWrite_inLen (sp : Space) (i : Nat) (v : Str) : (memWrite s sp i v).inLen = s.inLen := rfl
@[simp] theorem memWrite_nameLen (sp : Space) (i : Nat) (v : Str) : (memWrite s sp i v).nameLen = s.nameLen := rfl
@[simp] theorem memWrite_out (sp : Space) (i : Nat) (v : Str) : (memWrite s sp i v).out = s.out := rfl
@[simp] theorem memWrite_ovalid (sp : Space) (i : Nat) (v : Str) : (memWrite s sp i v).ovalid = s.ovalid := rfl
@[simp] theorem memWrite_activity (sp : Space) (i : Nat) (v : Str) : (memWrite s sp i v).activity = s.activity := rfl
@[simp] theorem memWrite_env (sp : Space) (i : Nat) (v : Str) : (memWrite s sp i v).env = s.env := rfl
@[simp] theorem memWrite_trace (sp : Space) (i : Nat) (v : Str) : (memWrite s sp i v).trace = s.trace := rfl
@[simp] theorem memWrite_fresh (sp : Space) (i : Nat) (v : Str) : (memWrite s sp i v).fresh = s.fresh := rfl
@[simp] theorem memWrite_inFree (sp : Space) (i : Nat) (v : Str) : (memWrite s sp i v).inFree = s.inFree := rfl
@[simp] theorem memWrite_nameFree (sp : Space) (i : Nat) (v : Str) : (memWrite s sp i v).nameFree = s.nameFree := rfl
@[simp] theorem memWrite_inHeld (sp : Space) (i : Nat) (v : Str) : (memWrite s sp i v).inHeld = s.inHeld := rfl
@[simp] theorem memWrite_nameHeld (sp : Space) (i : Nat) (v : Str) : (memWrite s sp i v).nameHeld = s.nameHeld := rfl

@[simp] theorem setLen_fresh (sp : Space) (n : BitVec 32) : (s.setLen sp n).fresh = s.fresh + 1 := rfl

end Sys2Proof.Machine
end

