-- ==== Sys2Proof/Laws/Memory.lean ====
section
/-!
SUPPORT. Laws/Memory.lean: reading a cell of IN or NAME after a write, and the canonical form of the
buffers kept by every memory operation (spec/20_memory.md R60 to R62).
-/

namespace Sys2Proof.Machine

@[simp] theorem setBuf_buf_same (s : State) (sp : Space) (m : NatMap Byte) : (s.setBuf sp m).buf sp = m := by
  cases sp <;> rfl

theorem setBuf_buf_other (s : State) {sp sp' : Space} (m : NatMap Byte) (h : sp' ≠ sp) :
    (s.setBuf sp m).buf sp' = s.buf sp' := by
  cases sp <;> cases sp' <;> first | rfl | exact absurd rfl h

@[simp] theorem setBuf_free (s : State) (sp sp' : Space) (m : NatMap Byte) : (s.setBuf sp m).free sp' = s.free sp' := by
  cases sp' <;> rfl

/-- Reading a cell after a text was written. -/
theorem memWrite_cell (s : State) (sp : Space) (i : Nat) (v : Str) (sp' : Space) (j : Nat) :
    (memWrite s sp i v).cell sp' j =
      if sp' = sp ∧ i ≤ j then (v[j - i]?).getD (s.cell sp' j) else s.cell sp' j := by
  by_cases hsp : sp' = sp
  · subst hsp
    simp only [State.cell, memWrite, setBuf_buf_same, setBuf_free, mapGet_putCells, true_and]
    by_cases hi : i ≤ j
    · by_cases hj : j < i + v.length
      · simp [hi, hj, show j - i < v.length by omega]
      · simp [hi, hj, show v.length ≤ j - i by omega]
    · simp [hi]
  · simp only [hsp, false_and, if_false, State.cell, memWrite, setBuf_free]
    rw [setBuf_buf_other s _ hsp]

/-- A cell reads as what was written to it. -/
theorem setCell_cell_same (s : State) (sp : Space) (i : Nat) (c : Byte) : (s.setCell sp i c).cell sp i = c := by
  simp [State.cell, State.setCell, mapGet_mapPut_same]

/-- Every other cell reads as before. -/
theorem setCell_cell_other (s : State) {sp sp' : Space} {i j : Nat} (c : Byte) (h : sp' ≠ sp ∨ j ≠ i) :
    (s.setCell sp i c).cell sp' j = s.cell sp' j := by
  by_cases hsp : sp' = sp
  · subst hsp
    have hj : j ≠ i := h.resolve_left (fun h => h rfl)
    simp [State.cell, State.setCell, mapGet_mapPut_other _ _ _ hj]
  · simp only [State.cell, State.setCell, setBuf_free]
    rw [setBuf_buf_other s _ hsp]

/-- The write of one cell is the write of a text of one character. -/
theorem setCell_eq_memWrite (s : State) (sp : Space) (i : Nat) (c : Byte) : s.setCell sp i c = memWrite s sp i [c] := rfl

/-- The write of a length makes the held writes below it and leaves every other cell below it (R66, R312(d)). -/
theorem setLen_cell_same (s : State) {sp : Space} {j : Nat} (n : BitVec 32) (h : j < n.toNat) :
    (s.setLen sp n).cell sp j = (mapGet (s.held sp) j).getD (s.cell sp j) := by
  cases sp <;> simp only [State.cell, State.buf, State.free, State.held, State.setLen] <;>
    rw [mapGet_putAll, mapGet_below, mapGet_below, if_pos h, if_pos h, freeEpoch_freeFrom_lt _ _ h]
  · cases mapGet s.inHeld j <;> rfl
  · cases mapGet s.nameHeld j <;> rfl

/-- The write of a length leaves the other buffer. -/
theorem setLen_cell_other (s : State) {sp sp' : Space} (n : BitVec 32) (h : sp' ≠ sp) (j : Nat) :
    (s.setLen sp n).cell sp' j = s.cell sp' j := by
  cases sp <;> cases sp' <;> first | rfl | exact absurd rfl h

/-- After the write of a length no write below it is held, and every other held write still is. -/
theorem setLen_held (s : State) (sp sp' : Space) (n : BitVec 32) (j : Nat) :
    mapGet ((s.setLen sp n).held sp') j = if sp' = sp ∧ j < n.toNat then none else mapGet (s.held sp') j := by
  cases sp <;> cases sp' <;> simp [State.held, State.setLen, mapGet_beyond]

/-- Holding a write leaves every cell. -/
theorem hold_cell (s : State) (sp : Space) (i : Nat) (c : Byte) (sp' : Space) (j : Nat) :
    (s.hold sp i c).cell sp' j = s.cell sp' j := by
  cases sp' <;> rfl

theorem hold_len (s : State) (sp : Space) (i : Nat) (c : Byte) (sp' : Space) : (s.hold sp i c).len sp' = s.len sp' := by
  cases sp' <;> rfl

/-- The write is held, beside the others. -/
theorem hold_held (s : State) (sp : Space) (i : Nat) (c : Byte) (sp' : Space) (j : Nat) :
    mapGet ((s.hold sp i c).held sp') j = if sp' = sp ∧ j = i then some c else mapGet (s.held sp') j := by
  by_cases h : j = i
  · subst h
    cases sp <;> cases sp' <;> simp [State.held, State.hold, mapGet_mapPut_same]
  · cases sp <;> cases sp' <;> simp [State.held, State.hold, h, mapGet_mapPut_other]

theorem setLen_len (s : State) (sp sp' : Space) (n : BitVec 32) :
    (s.setLen sp n).len sp' = if sp' = sp then n else s.len sp' := by
  cases sp <;> cases sp' <;> rfl

theorem memWrite_len (s : State) (sp : Space) (i : Nat) (v : Str) (sp' : Space) :
    (memWrite s sp i v).len sp' = s.len sp' := by
  cases sp' <;> rfl

/-- After a text is written, its buffer reads as the text. -/
theorem setText_read (s : State) (sp : Space) (t : Str) : memRead (s.setText sp t) sp 0 t.length = t := by
  refine List.ext_getElem (by simp [memRead]) fun j h₁ h₂ => ?_
  simp [memRead, State.setText, memWrite_cell, h₂]

/-- The other buffer's cells are as before. -/
theorem setText_cell_other (s : State) {sp sp' : Space} (t : Str) (h : sp' ≠ sp) (j : Nat) :
    (s.setText sp t).cell sp' j = s.cell sp' j := by
  rw [State.setText, memWrite_cell, if_neg (by simp [h]), setLen_cell_other _ _ h]

theorem setText_len (s : State) (sp sp' : Space) (t : Str) :
    (s.setText sp t).len sp' = if sp' = sp then BitVec.ofNat 32 t.length else s.len sp' := by
  rw [State.setText, memWrite_len, setLen_len]

/-- Where `MemWrite` is defined (R62). -/
theorem memWrite?_eq_some {s s' : State} {sp : Space} {i : Nat} {v : Str} :
    memWrite? s sp i v = some s' ↔ i + v.length ≤ (s.len sp).toNat ∧ s' = memWrite s sp i v := by
  unfold memWrite?
  split <;> simp_all [eq_comm]

/-- `MemWrite` keeps both buffers' form. -/
theorem memWrite_wf {s : State} (sp : Space) (i : Nat) (v : Str) (h : ∀ sp, Memory.wf (s.buf sp)) :
    ∀ sp', Memory.wf ((memWrite s sp i v).buf sp') := by
  intro sp'
  by_cases hsp : sp' = sp
  · subst hsp
    rw [memWrite, setBuf_buf_same]
    exact putCells_wf _ _ (h sp')
  · rw [memWrite, setBuf_buf_other s _ hsp]
    exact h sp'

/-- The write of a cell keeps both buffers' form. -/
theorem setCell_wf {s : State} (sp : Space) (i : Nat) (c : Byte) (h : ∀ sp, Memory.wf (s.buf sp)) :
    ∀ sp', Memory.wf ((s.setCell sp i c).buf sp') := memWrite_wf sp i [c] h

/-- The write of a length keeps both buffers' form. -/
theorem setLen_wf {s : State} (sp : Space) (n : BitVec 32) (h : ∀ sp, Memory.wf (s.buf sp)) :
    ∀ sp', Memory.wf ((s.setLen sp n).buf sp') := by
  intro sp'
  cases sp <;> cases sp' <;>
    first
      | exact h .inBuf
      | exact h .nameBuf
      | exact putAll_wf _ (mapWf_filter _ (h .inBuf))
      | exact putAll_wf _ (mapWf_filter _ (h .nameBuf))

/-- The write of a text keeps both buffers' form. -/
theorem setText_wf {s : State} (sp : Space) (t : Str) (h : ∀ sp, Memory.wf (s.buf sp)) :
    ∀ sp', Memory.wf ((s.setText sp t).buf sp') := memWrite_wf sp 0 t (setLen_wf sp _ h)

/-- Reset's buffers have the form. -/
theorem reset_memory_wf : ∀ sp, Memory.wf (State.reset.buf sp) := by
  intro sp
  cases sp <;> exact List.Pairwise.nil

end Sys2Proof.Machine
end

