-- ==== Sys2Proof/Laws/Effects.lean ====
section
/-!
SUPPORT. Laws/Effects.lean: what each shared operation does, in the terms of Safety.lean, said once.
-/

namespace Sys2Proof.Machine

/-- Operations that leave the buffers and the epochs alone leave every cell alone. -/
theorem cell_congr {s s' : State} (hi : s'.inBuf = s.inBuf) (hn : s'.nameBuf = s.nameBuf)
    (hfi : s'.inFree = s.inFree) (hfn : s'.nameFree = s.nameFree) : ∀ sp i, s'.cell sp i = s.cell sp i := by
  intro sp i
  cases sp <;> simp [State.cell, State.buf, State.free, hi, hn, hfi, hfn]

/-- The write of cells below the length keeps the memory's form. -/
theorem memoryInv_memWrite {s : State} {sp : Space} {i : Nat} {v : Str} (h : s.MemoryInv)
    (hi : i + v.length ≤ (s.len sp).toNat) : (memWrite s sp i v).MemoryInv := by
  cases sp
  · refine { h with inWf := putCells_wf _ _ h.inWf, inCells := fun e he => ?_ }
    rcases mem_putCells he with he | he
    · exact h.inCells e he
    · exact Nat.lt_of_lt_of_le he hi
  · refine { h with nameWf := putCells_wf _ _ h.nameWf, nameCells := fun e he => ?_ }
    rcases mem_putCells he with he | he
    · exact h.nameCells e he
    · exact Nat.lt_of_lt_of_le he hi

/-- Holding the write of a cell at or past the length, in the buffer, keeps the memory's form. -/
theorem memoryInv_hold {s : State} {sp : Space} {i : Nat} (c : Byte) (h : s.MemoryInv)
    (hl : (s.len sp).toNat ≤ i) (hi : i < s.cap sp) : (s.hold sp i c).MemoryInv := by
  cases sp
  · refine { h with inHeldWf := natMap_put_wf _ _ h.inHeldWf, inHeld := fun e he => ?_ }
    rcases mem_mapPut he with rfl | he
    · exact ⟨hl, hi⟩
    · exact h.inHeld e he
  · refine { h with nameHeldWf := natMap_put_wf _ _ h.nameHeldWf, nameHeld := fun e he => ?_ }
    rcases mem_mapPut he with rfl | he
    · exact ⟨hl, hi⟩
    · exact h.nameHeld e he

/-- Epochs stay in order when more of them have begun. -/
theorem freeWf_succ {fresh : Nat} {m : List (Nat × Nat)} (h : freeWf fresh m) : freeWf (fresh + 1) m :=
  ⟨h.1, fun x hx => Nat.le_succ_of_le (h.2 x hx)⟩

/-- The write of a length up to the buffer's size keeps the memory's form. -/
theorem memoryInv_setLen {s : State} {sp : Space} {n : BitVec 32} (h : s.MemoryInv) (hn : n.toNat ≤ s.cap sp) :
    (s.setLen sp n).MemoryInv := by
  have key : ∀ {m h : NatMap Byte}, ∀ e ∈ putAll (below n.toNat m) (below n.toNat h), e.1 < n.toNat :=
    fun e he => (mem_putAll he).elim (fun he => (mem_below.1 he).2) fun he => (mem_below.1 he).2
  cases sp
  · exact
      { h with
        inWf := putAll_wf _ (mapWf_filter _ h.inWf), inCells := key, inLen := hn
        inFree := freeFrom_wf _ h.inFree, nameFree := freeWf_succ h.nameFree
        inHeldWf := mapWf_filter _ h.inHeldWf
        inHeld := fun e he => ⟨(mem_beyond.1 he).2, (h.inHeld e (mem_beyond.1 he).1).2⟩ }
  · exact
      { h with
        nameWf := putAll_wf _ (mapWf_filter _ h.nameWf), nameCells := key, nameLen := hn
        inFree := freeWf_succ h.inFree, nameFree := freeFrom_wf _ h.nameFree
        nameHeldWf := mapWf_filter _ h.nameHeldWf
        nameHeld := fun e he => ⟨(mem_beyond.1 he).2, (h.nameHeld e (mem_beyond.1 he).1).2⟩ }

/-- The write of a text keeps the memory's form. -/
theorem memoryInv_setText {s : State} {sp : Space} {t : Str} (h : s.MemoryInv) (ht : t.length ≤ s.cap sp)
    (hs : t.length < 2 ^ 32) : (s.setText sp t).MemoryInv := by
  have hn : (BitVec.ofNat 32 t.length).toNat = t.length := by rw [BitVec.toNat_ofNat, Nat.mod_eq_of_lt hs]
  refine memoryInv_memWrite (memoryInv_setLen h (by rwa [hn])) ?_
  rw [setLen_len, if_pos rfl, hn]
  omega

theorem complete_completed (s : State) (c : Code) (e : Nat) : Completed s c e (s.complete c e) where
  idle := rfl
  done := rfl
  errf := rfl
  code := rfl
  estep := rfl
  prev := rfl
  res := rfl
  stepIdx := rfl
  flow := rfl
  evp := rfl
  rest := ⟨rfl, cell_congr rfl rfl rfl rfl, rfl, rfl, rfl, rfl, rfl, rfl, rfl, rfl, rfl, rfl, rfl⟩

/-- How the registers read after any completion. -/
theorem completedAs_of_completed {s s' : State} {c : Code} {e : Nat} (h : Completed s c e s') : CompletedAs s c c.num e s' where
  completed := h
  statusWord := by
    simp only [State.statusWord, State.busy, h.idle, h.done, h.errf]
    cases c <;> rfl
  errWord := by simp only [State.errWord, h.code, h.estep]
  flowWord := by simp only [State.flowWord, h.flow]
  stepWord := by simp only [State.stepWord, h.stepIdx]

/-- Taking an exception changes the status alone. -/
theorem raise_raised (s : State) {c : Code} (e : Nat) (h : c ≠ .ok) : Raised s c e (s.raise c e) where
  notOk := h
  completed := complete_completed s c e
  stores := ⟨rfl, rfl, rfl, rfl⟩
  ovalid := rfl

theorem launch_launched (s : State) (f : Nat) (input : Value) (pm : NameMap Int) :
    Launched s f input pm (s.launch f input pm) where
  flow := rfl
  stepIdx := rfl
  res := rfl
  prev := rfl
  ovalid := rfl
  activity := rfl
  status := rfl
  err := rfl
  evp := rfl
  flowWord := rfl
  stepWord := by show (0#24 ++ BitVec.ofNat 8 0 : BitVec 32) = 0; decide
  stores := ⟨rfl, rfl, rfl, rfl⟩
  rest := ⟨rfl, cell_congr rfl rfl rfl rfl, rfl, rfl, rfl, rfl, rfl, rfl, rfl, rfl, rfl, rfl, rfl⟩

theorem publish_done (s : State) (t : Task) (v : Value) : TaskDone s t v (s.publish t v) where
  prev := rfl
  resHere := mapGet_mapPut_same _ _ _ _
  resElse := fun _ h => mapGet_mapPut_other _ _ _ h
  noSink := fun h => by simp [h]
  sink := fun h => by simp [h, taskEvent]
  activity := rfl
  flow := rfl
  status := rfl
  err := rfl
  reg := rfl
  obs := rfl
  params := rfl
  out := rfl
  ovalid := rfl
  rest := ⟨rfl, cell_congr rfl rfl rfl rfl, rfl, rfl, rfl, rfl, rfl, rfl, rfl, rfl, rfl, rfl, rfl⟩

theorem runnable_of_ready {s : State} {t : Task} {pm : NameMap Int} (h : TaskReady s t pm) :
    s.runnable? = some (t, pm) := by
  simp [State.runnable?, h.running, h.noEvent, h.task]

theorem ready_of_runnable {s : State} {t : Task} {pm : NameMap Int} (h : s.runnable? = some (t, pm)) :
    TaskReady s t pm := by
  unfold State.runnable? at h
  split at h
  · split at h
    · rename_i h₁ _ h₂
      obtain ⟨t', ht, he⟩ := Option.map_eq_some_iff.1 h
      simp only [Prod.mk.injEq] at he
      obtain ⟨rfl, rfl⟩ := he
      exact ⟨h₁, h₂, ht⟩
    · cases h
  · cases h
  · cases h

/-- Where the micro-operation's function returns, the executor's step ends the task. -/
theorem runTask_ok {u : Operands → Except Code Value} {ref : Option (BitVec 4)} {s : State} {t : Task}
    {pm : NameMap Int} {v : Value} (h : TaskReady s t pm) (hu : u (operandsOf s t pm ref) = .ok v) :
    runTask u ref s = .next (s.publish t v) := by
  simp [runTask, runnable_of_ready h, hu]

/-- Where it raises, the execution ends. -/
theorem runTask_error {u : Operands → Except Code Value} {ref : Option (BitVec 4)} {s : State} {t : Task}
    {pm : NameMap Int} {c : Code} (h : TaskReady s t pm) (hu : u (operandsOf s t pm ref) = .error c) :
    runTask u ref s = .next (s.raise c s.stepIdx) := by
  simp [runTask, runnable_of_ready h, hu]

/-- Everything the executor's step can do. -/
theorem runTask_cases {u : Operands → Except Code Value} {ref : Option (BitVec 4)} {s s' : State}
    (h : runTask u ref s = .next s') : ∃ t pm, TaskReady s t pm ∧
      ((∃ v, u (operandsOf s t pm ref) = .ok v ∧ s' = s.publish t v) ∨
       (∃ c, u (operandsOf s t pm ref) = .error c ∧ s' = s.raise c s.stepIdx)) := by
  unfold runTask at h
  split at h
  · cases h
  · rename_i t pm hr
    refine ⟨t, pm, ready_of_runnable hr, ?_⟩
    split at h <;> rename_i hu <;> cases h
    · exact .inl ⟨_, hu, rfl⟩
    · exact .inr ⟨_, hu, rfl⟩

end Sys2Proof.Machine
end

