-- ==== Sys2Proof/Laws/Operands.lean ====
section
/-!
SUPPORT. Laws/Operands.lean: when an operand has the shape a micro-operation requires and when it raises
TypeError, and how a micro-operation's function that reads several operands returns or raises.
-/

namespace Sys2Proof.Machine

theorem except_bind_ok {ε α β : Type} (x : Except ε α) (f : α → Except ε β) (b : β) :
    (x >>= f) = .ok b ↔ ∃ a, x = .ok a ∧ f a = .ok b := by
  cases x <;> simp [bind, Except.bind]

theorem except_bind_error {ε α β : Type} (x : Except ε α) (f : α → Except ε β) (c : ε) :
    (x >>= f) = .error c ↔ x = .error c ∨ ∃ a, x = .ok a ∧ f a = .error c := by
  cases x <;> simp [bind, Except.bind]

theorem asStr_ok {v : Value} {m : Str} : asStr v = .ok m ↔ v = .str m := by cases v <;> simp [asStr]
theorem asInts_ok {v : Value} {m : List Int} : asInts v = .ok m ↔ v = .ints m := by cases v <;> simp [asInts]
theorem asPairs_ok {v : Value} {m : List (Byte × Byte)} : asPairs v = .ok m ↔ v = .pairs m := by
  cases v <;> simp [asPairs]
theorem asSquare_ok {v : Value} {m : Vector Byte 25} : asSquare v = .ok m ↔ v = .square m := by
  cases v <;> simp [asSquare]
theorem asRows_ok {v : Value} {m : List Row} : asRows v = .ok m ↔ v = .rows m := by cases v <;> simp [asRows]
theorem asBlocks_ok {v : Value} {m : List (BitVec 8)} : asBlocks v = .ok m ↔ v = .blocks m := by
  cases v <;> simp [asBlocks]
theorem asKeys_ok {v : Value} {m : BitVec 8 × BitVec 8} : asKeys v = .ok m ↔ v = .keys m.1 m.2 := by
  cases v <;> simp [asKeys, Prod.ext_iff]

theorem asStr_error {v : Value} {c : Code} : asStr v = .error c ↔ c = .typeError ∧ ∀ m, v ≠ .str m := by
  cases v <;> simp [asStr, eq_comm]
theorem asInts_error {v : Value} {c : Code} : asInts v = .error c ↔ c = .typeError ∧ ∀ m, v ≠ .ints m := by
  cases v <;> simp [asInts, eq_comm]
theorem asPairs_error {v : Value} {c : Code} : asPairs v = .error c ↔ c = .typeError ∧ ∀ m, v ≠ .pairs m := by
  cases v <;> simp [asPairs, eq_comm]
theorem asSquare_error {v : Value} {c : Code} : asSquare v = .error c ↔ c = .typeError ∧ ∀ m, v ≠ .square m := by
  cases v <;> simp [asSquare, eq_comm]
theorem asRows_error {v : Value} {c : Code} : asRows v = .error c ↔ c = .typeError ∧ ∀ m, v ≠ .rows m := by
  cases v <;> simp [asRows, eq_comm]
theorem asBlocks_error {v : Value} {c : Code} : asBlocks v = .error c ↔ c = .typeError ∧ ∀ m, v ≠ .blocks m := by
  cases v <;> simp [asBlocks, eq_comm]
theorem asKeys_error {v : Value} {c : Code} :
    asKeys v = .error c ↔ c = .typeError ∧ ∀ k1 k2, v ≠ .keys k1 k2 := by
  cases v <;> simp [asKeys, eq_comm]

theorem present_ok {α : Type} {o : Option α} {a : α} : present o = .ok a ↔ o = some a := by
  cases o <;> simp [present]
theorem present_error {α : Type} {o : Option α} {c : Code} : present o = .error c ↔ c = .typeError ∧ o = none := by
  cases o <;> simp [present, eq_comm]

theorem symbols_ok {m : Str} {vs : List Int} : symbols m = .ok vs ↔ m.all isLetter = true ∧ m.map sym = vs := by
  unfold symbols
  split <;> simp_all
theorem symbols_error {m : Str} {c : Code} : symbols m = .error c ↔ c = .invalidInput ∧ m.all isLetter = false := by
  unfold symbols
  split
  · simp_all
  · rename_i h
    simp only [Except.error.injEq, Bool.not_eq_true _ ▸ h, and_true]
    exact eq_comm

/-- A character has no position in a square only for InvalidInputError. -/
theorem getPosition_error {sq : Vector Byte 25} {ch : Byte} {c : Code} (h : getPosition sq ch = .error c) :
    c = .invalidInput := by
  unfold getPosition at h
  split at h <;> cases h
  rfl

/-- The digraph rule raises nothing but InvalidInputError. -/
theorem subst_error {sq : Vector Byte 25} {d : Nat} {a b : Byte} {c : Code} (h : subst sq d a b = .error c) :
    c = .invalidInput := by
  simp only [subst, except_bind_error] at h
  rcases h with h | ⟨p, -, h | ⟨q, -, h⟩⟩
  · exact getPosition_error h
  · exact getPosition_error h
  · obtain ⟨ra, ca⟩ := p
    obtain ⟨rb, cb⟩ := q
    dsimp only at h
    split at h
    · cases h
    · split at h <;> cases h

theorem substAll_error {sq : Vector Byte 25} {d : Nat} {ps : List (Byte × Byte)} {c : Code}
    (h : substAll sq d ps = .error c) : c = .invalidInput := by
  induction ps with
  | nil => cases h
  | cons p rest ih =>
    simp only [substAll, except_bind_error] at h
    rcases h with h | ⟨q, -, h | ⟨r, -, h⟩⟩
    · exact subst_error h
    · exact ih h
    · cases h

end Sys2Proof.Machine
end

