-- ==== Sys2Proof/Laws/Exec.lean ====
section
/-!
SUPPORT. Laws/Exec.lean: everything an instruction can do, said once: the micro-operations through the
executor's step, the commands by the update each makes.
-/

namespace Sys2Proof.Machine

/-- The residue modulo 26 as an integer. -/
theorem mod26_val (x : Int) : ((mod26 x).val : Int) = x % 26 := by
  have h₁ : 0 ≤ x % 26 := Int.emod_nonneg x (by decide)
  have h₂ : x % 26 < 26 := Int.emod_lt_of_pos x (by decide)
  have h₃ : (mod26 x).val = (x % 26).toNat % 26 := rfl
  rw [h₃]
  omega

/-- `isLetter` in codes. -/
theorem isLetter_iff (c : Byte) : isLetter c = true ↔ 65 ≤ c.toNat ∧ c.toNat ≤ 90 := by
  simp [isLetter]

/-- The values of letters lie in 0..25. -/
theorem sym_range {c : Byte} (h : isLetter c = true) : 0 ≤ sym c ∧ sym c ≤ 25 := by
  rw [isLetter_iff] at h
  unfold sym
  omega

theorem ints_wf {vs : List Int} : (Value.ints vs).wf = true ↔ ∀ v ∈ vs, -25 ≤ v ∧ v ≤ 25 := by
  simp [Value.wf]

/-- The values of a string of letters are in the range of R18. -/
theorem letters_wf {m : Str} (h : m.all isLetter = true) : (Value.ints (m.map sym)).wf = true := by
  rw [ints_wf]
  intro v hv
  obtain ⟨c, hc, rfl⟩ := List.mem_map.1 hv
  have := sym_range (List.all_eq_true.1 h c hc)
  omega

/-- The key stream of a key word of letters holds values 0..25. -/
theorem keyStream_wf {key : Str} (h : vigKeyWf key = true) (n : Nat) : (Value.ints (keyStream key n)).wf = true := by
  simp only [vigKeyWf, Bool.and_eq_true, List.all_eq_true] at h
  rw [ints_wf]
  intro v hv
  simp only [keyStream, List.mem_map] at hv
  obtain ⟨i, -, rfl⟩ := hv
  rw [List.getD_eq_getElem?_getD]
  rcases hg : (key.map fun c => sym (upper c))[i % (key.map fun c => sym (upper c)).length]? with _ | v
  · simp
  · obtain ⟨c, hc, rfl⟩ := List.mem_map.1 (List.mem_of_getElem? hg)
    have := sym_range (h.2 c hc)
    simp only [Option.getD_some]
    omega

/-- What the executor's step around `u` can do, where `u` keeps to the Values of R18 and raises no OK. -/
theorem runTask_effect {u : Operands → Except Code Value} {ref : Option (BitVec 4)} {s s' : State}
    (hok : ∀ t pm v, u (operandsOf s t pm ref) = .ok v → s.ValuesInv → v.wf = true)
    (herr : ∀ o c, u o = .error c → c ≠ .ok) (h : runTask u ref s = .next s') :
    ∃ t pm, TaskReady s t pm ∧
      ((∃ v, s' = s.publish t v ∧ (s.ValuesInv → v.wf = true)) ∨ (∃ c, c ≠ .ok ∧ s' = s.raise c s.stepIdx)) := by
  obtain ⟨t, pm, hready, ⟨v, hu, rfl⟩ | ⟨c, hu, rfl⟩⟩ := runTask_cases h
  · exact ⟨t, pm, hready, .inl ⟨v, rfl, hok t pm v hu⟩⟩
  · exact ⟨t, pm, hready, .inr ⟨c, herr _ _ hu, rfl⟩⟩

/-- No micro-operation's function raises OK. -/
theorem uop_error_ne_ok (o : Operands) (c : Code) :
    (uopUpper o = .error c → c ≠ .ok) ∧ (uopA2v o = .error c → c ≠ .ok) ∧ (uopCadd o = .error c → c ≠ .ok) ∧
    (uopV2a o = .error c → c ≠ .ok) ∧ (uopVfix o = .error c → c ≠ .ok) ∧ (uopVmkkey o = .error c → c ≠ .ok) ∧
    (uopVneg o = .error c → c ≠ .ok) ∧ (uopVxlt o = .error c → c ≠ .ok) ∧ (uopPffix o = .error c → c ≠ .ok) ∧
    (uopPfufix o = .error c → c ≠ .ok) ∧ (∀ d, uopSubst d o = .error c → c ≠ .ok) ∧
    (uopHfix o = .error c → c ≠ .ok) ∧ (uopHmulk o = .error c → c ≠ .ok) ∧ (uopHmulu o = .error c → c ≠ .ok) ∧
    (uopHv2a o = .error c → c ≠ .ok) ∧ (uopSframe o = .error c → c ≠ .ok) ∧ (uopSip o = .error c → c ≠ .ok) ∧
    (uopSfk1 o = .error c → c ≠ .ok) ∧ (uopSfk2 o = .error c → c ≠ .ok) ∧ (uopSsw o = .error c → c ≠ .ok) ∧
    (uopSrip o = .error c → c ≠ .ok) ∧ (uopSunfr o = .error c → c ≠ .ok) := by
  refine ⟨?_, ?_, ?_, ?_, ?_, ?_, ?_, ?_, ?_, ?_, ?_, ?_, ?_, ?_, ?_, ?_, ?_, ?_, ?_, ?_, ?_, ?_⟩
  case refine_11 =>
    intro d h
    simp only [uopSubst, except_bind_error, asSquare_error, present_error, asPairs_error, reduceCtorEq, and_false, or_false, exists_false] at h
    rcases h with h | ⟨_, _, h | ⟨_, _, h | ⟨_, _, h⟩⟩⟩
    · simp [h]
    · simp [h]
    · simp [h]
    · simp [substAll_error h]
  all_goals
    intro h
    simp only [uopUpper, uopA2v, uopCadd, uopV2a, uopVfix, uopVmkkey, uopVneg, uopVxlt, uopPffix, uopPfufix, uopHfix,
      uopHmulk, uopHmulu, uopHv2a, uopSframe, uopSip, uopSfk1, uopSfk2, uopSsw, uopSrip, uopSunfr, except_bind_error,
      asStr_error, asInts_error, asRows_error, asBlocks_error, asKeys_error, present_error, symbols_error] at h
    rintro rfl
    revert h
    simp
    try (intros; split <;> simp)

/-- The micro-operations that return no integer list return Values of R18. -/
theorem uop_ok_wf (o : Operands) (v : Value) :
    (uopUpper o = .ok v → v.wf = true) ∧ (uopV2a o = .ok v → v.wf = true) ∧ (uopVxlt o = .ok v → v.wf = true) ∧
    (uopPffix o = .ok v → v.wf = true) ∧ (uopPfufix o = .ok v → v.wf = true) ∧
    (∀ d, uopSubst d o = .ok v → v.wf = true) ∧ (uopHfix o = .ok v → v.wf = true) ∧
    (uopHmulk o = .ok v → v.wf = true) ∧ (uopHmulu o = .ok v → v.wf = true) ∧ (uopHv2a o = .ok v → v.wf = true) ∧
    (uopSframe o = .ok v → v.wf = true) ∧ (uopSkeys o = .ok v → v.wf = true) ∧ (uopSip o = .ok v → v.wf = true) ∧
    (uopSfk1 o = .ok v → v.wf = true) ∧ (uopSfk2 o = .ok v → v.wf = true) ∧ (uopSsw o = .ok v → v.wf = true) ∧
    (uopSrip o = .ok v → v.wf = true) ∧ (uopSunfr o = .ok v → v.wf = true) := by
  cases v with
  | ints vs =>
    refine ⟨?_, ?_, ?_, ?_, ?_, ?_, ?_, ?_, ?_, ?_, ?_, ?_, ?_, ?_, ?_, ?_, ?_, ?_⟩
    all_goals
      intros
      exfalso
      rename_i h
      simp only [uopUpper, uopV2a, uopVxlt, uopPffix, uopPfufix, uopSubst, uopHfix, uopHmulk, uopHmulu, uopHv2a,
        uopSframe, uopSkeys, uopSip, uopSfk1, uopSfk2, uopSsw, uopSrip, uopSunfr, except_bind_ok, Except.ok.injEq,
        reduceCtorEq, and_false, exists_false] at h
      try
        obtain ⟨_, _, h⟩ := h
        split at h <;> cases h
      try
        obtain ⟨_, _, _, _, _, _, h⟩ := h
        split at h <;> cases h
  | _ => exact ⟨fun _ => rfl, fun _ => rfl, fun _ => rfl, fun _ => rfl, fun _ => rfl, fun _ _ => rfl, fun _ => rfl,
      fun _ => rfl, fun _ => rfl, fun _ => rfl, fun _ => rfl, fun _ => rfl, fun _ => rfl, fun _ => rfl, fun _ => rfl,
      fun _ => rfl, fun _ => rfl, fun _ => rfl⟩

/-- The micro-operations that return an integer list return one in the range of R18, from a PREV and a
key word in range. -/
theorem uop_ints_wf {o : Operands} {v : Value} :
    (uopIdent o = .ok v → o.prev.wf = true → v.wf = true) ∧ (uopA2v o = .ok v → v.wf = true) ∧
    (uopCadd o = .ok v → v.wf = true) ∧ (uopVfix o = .ok v → v.wf = true) ∧
    (uopVmkkey o = .ok v → vigKeyWf o.cfg.vigKey = true → v.wf = true) ∧
    (uopVneg o = .ok v → o.prev.wf = true → v.wf = true) := by
  refine ⟨?_, ?_, ?_, ?_, ?_, ?_⟩
  · rintro ⟨⟩ h
    exact h
  · intro hu
    simp only [uopA2v, except_bind_ok, symbols_ok, Except.ok.injEq] at hu
    obtain ⟨m, -, vs, ⟨hm, rfl⟩, rfl⟩ := hu
    exact letters_wf hm
  · intro hu
    simp only [uopCadd, except_bind_ok, Except.ok.injEq] at hu
    obtain ⟨vs, -, k, -, rfl⟩ := hu
    rw [ints_wf]
    intro x hx
    obtain ⟨y, -, rfl⟩ := List.mem_map.1 hx
    have := (mod26 (y + k)).isLt
    omega
  · intro hu
    simp only [uopVfix, except_bind_ok, symbols_ok, Except.ok.injEq] at hu
    obtain ⟨m, -, vs, ⟨hm, rfl⟩, rfl⟩ := hu
    exact letters_wf hm
  · intro hu hk
    simp only [uopVmkkey, except_bind_ok, Except.ok.injEq] at hu
    obtain ⟨vs, -, rfl⟩ := hu
    exact keyStream_wf hk _
  · intro hu hw
    simp only [uopVneg, except_bind_ok, asInts_ok, Except.ok.injEq] at hu
    obtain ⟨vs, hp, rfl⟩ := hu
    rw [hp, ints_wf] at hw
    rw [ints_wf]
    intro x hx
    obtain ⟨y, hy, rfl⟩ := List.mem_map.1 hx
    have := hw y hy
    omega

/-- What a micro-operation can do: end its task with a Value of R18, or raise an exception. -/
theorem exec_uop_cases {i : Instr} {s s' : State} (hi : i.isCommand = false) (h : exec i s = .next s') :
    ∃ t pm, TaskReady s t pm ∧
      ((∃ v, s' = s.publish t v ∧ (s.ValuesInv → v.wf = true)) ∨ (∃ c, c ≠ .ok ∧ s' = s.raise c s.stepIdx)) := by
  have e := uop_error_ne_ok
  have w := uop_ok_wf
  cases i
  case ident => exact runTask_effect (u := uopIdent) (ref := none) (fun _ _ _ hu hv => uop_ints_wf.1 hu hv.1) (by rintro o c ⟨⟩) h
  case upper => exact runTask_effect (u := uopUpper) (ref := none) (fun _ _ _ hu _ => (w _ _).1 hu) (fun o c => (e o c).1) h
  case a2v => exact runTask_effect (u := uopA2v) (ref := none) (fun _ _ _ hu _ => uop_ints_wf.2.1 hu) (fun o c => (e o c).2.1) h
  case cadd => exact runTask_effect (u := uopCadd) (ref := none) (fun _ _ _ hu _ => uop_ints_wf.2.2.1 hu) (fun o c => (e o c).2.2.1) h
  case v2a =>
    simp only [exec, execV2a] at h
    split at h
    · cases h
    · exact runTask_effect (fun _ _ _ hu _ => (w _ _).2.1 hu) (fun o c => (e o c).2.2.2.1) h
  case vfix => exact runTask_effect (u := uopVfix) (ref := none) (fun _ _ _ hu _ => uop_ints_wf.2.2.2.1 hu) (fun o c => (e o c).2.2.2.2.1) h
  case vmkkey =>
    simp only [exec, execVmkkey] at h
    split at h
    · rename_i hk
      exact runTask_effect (fun _ _ _ hu _ => uop_ints_wf.2.2.2.2.1 hu hk) (fun o c => (e o c).2.2.2.2.2.1) h
    · cases h
  case vneg => exact runTask_effect (u := uopVneg) (ref := none) (fun _ _ _ hu hv => uop_ints_wf.2.2.2.2.2 hu hv.1) (fun o c => (e o c).2.2.2.2.2.2.1) h
  case vxlt r => exact runTask_effect (u := uopVxlt) (ref := some r) (fun _ _ _ hu _ => (w _ _).2.2.1 hu) (fun o c => (e o c).2.2.2.2.2.2.2.1) h
  case pffix => exact runTask_effect (u := uopPffix) (ref := none) (fun _ _ _ hu _ => (w _ _).2.2.2.1 hu) (fun o c => (e o c).2.2.2.2.2.2.2.2.1) h
  case pfufix => exact runTask_effect (u := uopPfufix) (ref := none) (fun _ _ _ hu _ => (w _ _).2.2.2.2.1 hu) (fun o c => (e o c).2.2.2.2.2.2.2.2.2.1) h
  case pfkey =>
    simp only [exec, execPfkey] at h
    split at h
    · exact runTask_effect (by rintro t pm v ⟨⟩ hv; rfl) (by rintro o c ⟨⟩) h
    · cases h
  case pfenc r => exact runTask_effect (u := uopSubst 1) (ref := some r) (fun _ _ _ hu _ => (w _ _).2.2.2.2.2.1 _ hu) (fun o c => (e o c).2.2.2.2.2.2.2.2.2.2.1 _) h
  case pfdec r => exact runTask_effect (u := uopSubst 4) (ref := some r) (fun _ _ _ hu _ => (w _ _).2.2.2.2.2.1 _ hu) (fun o c => (e o c).2.2.2.2.2.2.2.2.2.2.1 _) h
  case hfix => exact runTask_effect (u := uopHfix) (ref := none) (fun _ _ _ hu _ => (w _ _).2.2.2.2.2.2.1 hu) (fun o c => (e o c).2.2.2.2.2.2.2.2.2.2.2.1) h
  case hmulk => exact runTask_effect (u := uopHmulk) (ref := none) (fun _ _ _ hu _ => (w _ _).2.2.2.2.2.2.2.1 hu) (fun o c => (e o c).2.2.2.2.2.2.2.2.2.2.2.2.1) h
  case hmulu => exact runTask_effect (u := uopHmulu) (ref := none) (fun _ _ _ hu _ => (w _ _).2.2.2.2.2.2.2.2.1 hu) (fun o c => (e o c).2.2.2.2.2.2.2.2.2.2.2.2.2.1) h
  case hv2a => exact runTask_effect (u := uopHv2a) (ref := none) (fun _ _ _ hu _ => (w _ _).2.2.2.2.2.2.2.2.2.1 hu) (fun o c => (e o c).2.2.2.2.2.2.2.2.2.2.2.2.2.2.1) h
  case sframe => exact runTask_effect (u := uopSframe) (ref := none) (fun _ _ _ hu _ => (w _ _).2.2.2.2.2.2.2.2.2.2.1 hu) (fun o c => (e o c).2.2.2.2.2.2.2.2.2.2.2.2.2.2.2.1) h
  case skeys => exact runTask_effect (u := uopSkeys) (ref := none) (fun _ _ _ hu _ => (w _ _).2.2.2.2.2.2.2.2.2.2.2.1 hu) (by rintro o c ⟨⟩) h
  case sip r => exact runTask_effect (u := uopSip) (ref := some r) (fun _ _ _ hu _ => (w _ _).2.2.2.2.2.2.2.2.2.2.2.2.1 hu) (fun o c => (e o c).2.2.2.2.2.2.2.2.2.2.2.2.2.2.2.2.1) h
  case sfk1 r => exact runTask_effect (u := uopSfk1) (ref := some r) (fun _ _ _ hu _ => (w _ _).2.2.2.2.2.2.2.2.2.2.2.2.2.1 hu) (fun o c => (e o c).2.2.2.2.2.2.2.2.2.2.2.2.2.2.2.2.2.1) h
  case sfk2 r => exact runTask_effect (u := uopSfk2) (ref := some r) (fun _ _ _ hu _ => (w _ _).2.2.2.2.2.2.2.2.2.2.2.2.2.2.1 hu) (fun o c => (e o c).2.2.2.2.2.2.2.2.2.2.2.2.2.2.2.2.2.2.1) h
  case ssw => exact runTask_effect (u := uopSsw) (ref := none) (fun _ _ _ hu _ => (w _ _).2.2.2.2.2.2.2.2.2.2.2.2.2.2.2.1 hu) (fun o c => (e o c).2.2.2.2.2.2.2.2.2.2.2.2.2.2.2.2.2.2.2.1) h
  case srip => exact runTask_effect (u := uopSrip) (ref := none) (fun _ _ _ hu _ => (w _ _).2.2.2.2.2.2.2.2.2.2.2.2.2.2.2.2.1 hu) (fun o c => (e o c).2.2.2.2.2.2.2.2.2.2.2.2.2.2.2.2.2.2.2.2.1) h
  case sunfr => exact runTask_effect (u := uopSunfr) (ref := none) (fun _ _ _ hu _ => (w _ _).2.2.2.2.2.2.2.2.2.2.2.2.2.2.2.2.2 hu) (fun o c => (e o c).2.2.2.2.2.2.2.2.2.2.2.2.2.2.2.2.2.2.2.2.2) h
  all_goals cases hi

/-- What a command can do: raise an exception, subscribe a sink, bind or unbind a name, set or clear
parameters, short-circuit, or launch a flow on the text in IN. -/
theorem exec_command_cases {i : Instr} {s s' : State} (hi : i.isCommand = true) (h : exec i s = .next s') :
    (∃ c, c ≠ .ok ∧ s' = s.raise c 0) ∨
    (∃ f k, ((∃ g : BitVec 8, i = .sub g (BitVec.ofNat 8 k) ∧ f = g.toNat ∧ f < nflows s.build) ∨
        (i = .fsub (BitVec.ofNat 8 k) ∧ mapGet s.reg s.nameText = some f)) ∧
      k < s.build.nsinks ∧ s' = (s.subscribe f k).succeed) ∨
    (∃ f, i = .fadd f ∧ s.nameText ≠ [] ∧ f.toNat < nflows s.build ∧
      s' = { s with reg := mapPut nameLt s.reg s.nameText f.toNat }.succeed) ∨
    (i = .frem ∧ s' = { s with reg := mapDel s.reg s.nameText }.succeed) ∨
    (∃ imm, i = .pset imm ∧ s' = { s with params := mapPut nameLt s.params s.nameText imm.toInt }.succeed) ∨
    (i = .pclr ∧ s' = { s with params := [] }.succeed) ∨
    s' = s.shortCircuit ∨
    (∃ f pm, (f < nflows s.build ∨ f < 10) ∧ s' = s.launchIn f pm) := by
  cases i
  case exec f =>
    simp only [exec, execExec] at h
    split at h <;> cases h
    · exact .inl ⟨.invalidFlow, by decide, rfl⟩
    · rename_i hf
      exact .inr (.inr (.inr (.inr (.inr (.inr (.inr ⟨f.toNat, s.params, .inl (Nat.lt_of_not_le hf), rfl⟩))))))
  case sub f k =>
    simp only [exec, execSub] at h
    split at h
    · cases h
      exact .inl ⟨.invalidFlow, by decide, rfl⟩
    · split at h <;> cases h
      · exact .inl ⟨.invalidObserver, by decide, rfl⟩
      · rename_i hf hk
        exact .inr (.inl ⟨f.toNat, k.toNat, .inl ⟨f, by simp, rfl, Nat.lt_of_not_le hf⟩, Nat.lt_of_not_le hk, rfl⟩)
  case fsub k =>
    simp only [exec, execFsub] at h
    split at h
    · cases h
      exact .inl ⟨.notFound, by decide, rfl⟩
    · rename_i f hf
      split at h <;> cases h
      · exact .inl ⟨.invalidObserver, by decide, rfl⟩
      · rename_i hk
        exact .inr (.inl ⟨f, k.toNat, .inr ⟨by simp, hf⟩, Nat.lt_of_not_le hk, rfl⟩)
  case fadd f =>
    simp only [exec, execFadd] at h
    split at h
    · cases h
      exact .inl ⟨.invalidName, by decide, rfl⟩
    · rename_i hn
      split at h <;> cases h
      · exact .inl ⟨.invalidFlow, by decide, rfl⟩
      · rename_i hf
        exact .inr (.inr (.inl ⟨f, rfl, fun h => hn (by rw [h]; rfl), Nat.lt_of_not_le hf, rfl⟩))
  case frem =>
    cases h
    exact .inr (.inr (.inr (.inl ⟨rfl, rfl⟩)))
  case pset imm =>
    cases h
    exact .inr (.inr (.inr (.inr (.inl ⟨imm, rfl, rfl⟩))))
  case pclr =>
    cases h
    exact .inr (.inr (.inr (.inr (.inr (.inl ⟨rfl, rfl⟩)))))
  case plock =>
    simp only [exec, execPlock] at h
    split at h <;> cases h
    · exact .inr (.inr (.inr (.inr (.inr (.inr (.inl rfl))))))
    · exact .inr (.inr (.inr (.inr (.inr (.inr (.inr ⟨4, [], .inr (by decide), rfl⟩))))))
  case punlock =>
    simp only [exec, execPunlock] at h
    split at h <;> cases h
    · exact .inr (.inr (.inr (.inr (.inr (.inr (.inl rfl))))))
    · exact .inr (.inr (.inr (.inr (.inr (.inr (.inr ⟨5, [], .inr (by decide), rfl⟩))))))
  all_goals first
    | exact Bool.noConfusion (show false = true from hi)
    | cases h
      exact .inr (.inr (.inr (.inr (.inr (.inr (.inr ⟨_, _, .inr (by decide), rfl⟩))))))

end Sys2Proof.Machine
end

