-- ==== Sys2Proof/Laws/HostPort.lean ====
section
/-!
SUPPORT. Laws/HostPort.lean: what the host reads, cell by cell, and what a build-time `defineTask` gives
(spec/20_memory.md R62, R63; spec/40_pipeline.md R112).
-/

namespace Sys2Proof.Machine

/-- What the host's `MemWrite` of a cell does (R62). -/
theorem hostMove_writeCell (s : State) (sp : Space) (i : Nat) (c : Byte) : hostMove (.writeCell sp i c) s =
    if i < (s.len sp).toNat then .next (s.setCell sp i c) else .refused .noSuchHostMove := by
  by_cases h : i < (s.len sp).toNat
  · simp [hostMove, memWrite?, h, Nat.succ_le_of_lt h, setCell_eq_memWrite]
  · simp [hostMove, memWrite?, h, show ¬ i + 1 ≤ (s.len sp).toNat by omega]

/-- What the preparation of a cell does (R312(d)). -/
theorem hostMove_prepareCell (s : State) (sp : Space) (i : Nat) (c : Byte) : hostMove (.prepareCell sp i c) s =
    if i < (s.len sp).toNat then .next (s.setCell sp i c)
    else if i < s.cap sp then .next (s.hold sp i c) else .refused .noSuchHostMove := by
  by_cases h : i < (s.len sp).toNat
  · simp [hostMove, memWrite?, h, Nat.succ_le_of_lt h, setCell_eq_memWrite]
  · simp [hostMove, memWrite?, h, show ¬ i + 1 ≤ (s.len sp).toNat by omega]

/-- While BUSY = 1 the host has no read of a cell. -/
theorem hostRead?_busy {s : State} (h : s.busy = true) (cs : CellSpace) (i n : Nat) : hostRead? s cs i n = none := by
  simp [hostRead?, h]

/-- While BUSY = 1 the host has no read of a task record. -/
theorem hostTask?_busy {s : State} (h : s.busy = true) (f pos : Nat) : hostTask? s f pos = none := by
  simp [hostTask?, h]

/-- The cells of IN and NAME that the host can read are those below the length register. -/
theorem hostCell?_eq {s : State} (h : s.busy = false) (sp : Space) (i : Nat) :
    hostCell? s sp i = if i < (s.len sp).toNat then some (s.cell sp i) else none := by
  by_cases hi : i < (s.len sp).toNat
  · simp [hostCell?, hostRead?, h, memRead?, State.spaceLen, memRead, hi, Nat.succ_le_of_lt hi]
  · simp [hostCell?, hostRead?, h, memRead?, State.spaceLen, hi, show ¬ i + 1 ≤ (s.len sp).toNat by omega]

/-- A Value has as many elements as OUTLEN counts. -/
theorem elems_length (v : Value) : v.elems.length = v.len := by
  cases v <;> simp [Value.elems, Value.len]

/-- The elements of OUT that the host can read are all of them, while OVALID = 1. -/
theorem hostOutElem?_eq {s : State} (h : s.busy = false) (hv : s.ovalid = true) (i : Nat) :
    hostOutElem? s i = s.out.elems[i]? := by
  have hl := elems_length s.out
  by_cases hi : i < s.out.len
  · rw [List.getElem?_eq_getElem (by omega)]
    simp [hostOutElem?, hostRead?, h, memRead?, State.spaceLen, hv, Nat.succ_le_of_lt hi,
      List.take_one, List.head?_drop, List.getElem?_eq_getElem (show i < s.out.elems.length by omega)]
  · rw [List.getElem?_eq_none (by omega)]
    simp [hostOutElem?, hostRead?, h, memRead?, State.spaceLen, hv, show ¬ i + 1 ≤ s.out.len by omega]

/-- Reading OUT whole gives the layout of R63. -/
theorem hostRead?_out_all {s : State} (h : s.busy = false) (hv : s.ovalid = true) :
    hostRead? s .out 0 s.out.len = some s.out.cells := by
  simp [hostRead?, h, memRead?, State.spaceLen, hv, Value.cells, ← elems_length]

/-- What `defineTask` gives: the flow with the task appended, which is well-formed. -/
theorem defineTask?_eq_some {b b' : Build} {f : Nat} {name description : Option Str} {body : Option (BitVec 16)}
    (h : defineTask? b f name description body = some b') :
    ∃ ts, b.tasks[f]? = some ts ∧ flowWf (ts ++ [taskRecord name description body]) = true ∧
      b' = { b with tasks := b.tasks.set f (ts ++ [taskRecord name description body]) } := by
  obtain ⟨ts, ht, h⟩ := Option.bind_eq_some_iff.1 h
  split at h <;> cases h
  rename_i hw
  exact ⟨ts, ht, hw, rfl⟩

end Sys2Proof.Machine
end

