-- ==== Sys2Proof/Laws/PerInstr.lean ====
section
/-!
SUPPORT. Laws/PerInstr.lean: the family TableWord: under the mask of its row of spec/opcode_table.json, the
word of every instruction is the row's match, whatever its operands (spec/30_encoding.md R82, R92).
-/

namespace Sys2Proof.Laws.TableWord

open Sys2Proof Sys2Proof.Machine

/-- The encoder agrees with the row of the opcode table. -/
def Statement (i : Instr) : Prop := encode i &&& (tableRow i).1 = (tableRow i).2

/-- What holds of the command word as a bit vector holds of the number. -/
theorem command_word {i : Instr} (hc : i.isCommand = true) (mask : BitVec 32)
    (hm : (tableRow i).1 = mask.toNat) (h : (encodeCommand i &&& mask).toNat = (tableRow i).2) : Statement i := by
  simp only [Statement, encode, hc, if_true, hm, ← h, BitVec.toNat_and]

/-- What holds of the task word as a bit vector holds of the number. -/
theorem task_word {i : Instr} (hc : i.isCommand = false) (mask : BitVec 16)
    (hm : (tableRow i).1 = mask.toNat) (h : (encodeTask i &&& mask).toNat = (tableRow i).2) : Statement i := by
  simp only [Statement, encode, hc, hm, ← h, BitVec.toNat_and]
  rfl

/-- The mask of OP keeps OP and drops the immediate. -/
theorem opcode_of_immediate (op : BitVec 8) (imm : BitVec 24) :
    (op ++ imm) &&& (0xFF#8 ++ 0#24) = op ++ 0#24 := by
  rw [BitVec.and_append, show 0xFF#8 = BitVec.allOnes 8 from rfl, BitVec.and_allOnes]
  simp

/-- The mask of SUB drops both operands. -/
theorem opcode_of_flow_sink (op f k : BitVec 8) :
    (op ++ (f ++ k ++ 0#8)) &&& (0xFF#8 ++ (0#8 ++ 0#8 ++ 0xFF#8)) = op ++ (0#8 ++ 0#8 ++ 0#8) := by
  simp only [BitVec.and_append]
  rw [show 0xFF#8 = BitVec.allOnes 8 from rfl]
  simp only [BitVec.and_allOnes, BitVec.and_zero]

theorem exec (f : BitVec 8) : Statement (.exec f) :=
  command_word rfl 0xFF00FFFF rfl (by revert f; decide +kernel)
theorem sub (f k : BitVec 8) : Statement (.sub f k) :=
  command_word rfl 0xFF0000FF rfl (congrArg BitVec.toNat (opcode_of_flow_sink 0x02 f k))
theorem fsub (k : BitVec 8) : Statement (.fsub k) :=
  command_word rfl 0xFFFF00FF rfl (by revert k; decide +kernel)
theorem fadd (f : BitVec 8) : Statement (.fadd f) :=
  command_word rfl 0xFF00FFFF rfl (by revert f; decide +kernel)
theorem frem : Statement .frem := rfl
theorem pset (imm : BitVec 24) : Statement (.pset imm) :=
  command_word rfl 0xFF000000 rfl (congrArg BitVec.toNat (opcode_of_immediate 0x06 imm))
theorem pclr : Statement .pclr := rfl
theorem clock (imm : BitVec 24) : Statement (.clock imm) :=
  command_word rfl 0xFF000000 rfl (congrArg BitVec.toNat (opcode_of_immediate 0x10 imm))
theorem cunlock (imm : BitVec 24) : Statement (.cunlock imm) :=
  command_word rfl 0xFF000000 rfl (congrArg BitVec.toNat (opcode_of_immediate 0x11 imm))
theorem vlock : Statement .vlock := rfl
theorem vunlock : Statement .vunlock := rfl
theorem plock : Statement .plock := rfl
theorem punlock : Statement .punlock := rfl
theorem hlock : Statement .hlock := rfl
theorem hunlock : Statement .hunlock := rfl
theorem slock : Statement .slock := rfl
theorem sunlock : Statement .sunlock := rfl
theorem ident : Statement .ident := rfl
theorem upper : Statement .upper := rfl
theorem a2v : Statement .a2v := rfl
theorem cadd : Statement .cadd := rfl
theorem v2a : Statement .v2a := rfl
theorem vfix : Statement .vfix := rfl
theorem vmkkey : Statement .vmkkey := rfl
theorem vneg : Statement .vneg := rfl
theorem vxlt (r : BitVec 4) : Statement (.vxlt r) :=
  task_word rfl 0xFF0F rfl (by revert r; decide)
theorem pffix : Statement .pffix := rfl
theorem pfufix : Statement .pfufix := rfl
theorem pfkey : Statement .pfkey := rfl
theorem pfenc (r : BitVec 4) : Statement (.pfenc r) :=
  task_word rfl 0xFF0F rfl (by revert r; decide)
theorem pfdec (r : BitVec 4) : Statement (.pfdec r) :=
  task_word rfl 0xFF0F rfl (by revert r; decide)
theorem hfix : Statement .hfix := rfl
theorem hmulk : Statement .hmulk := rfl
theorem hmulu : Statement .hmulu := rfl
theorem hv2a : Statement .hv2a := rfl
theorem sframe : Statement .sframe := rfl
theorem skeys : Statement .skeys := rfl
theorem sip (r : BitVec 4) : Statement (.sip r) :=
  task_word rfl 0xFF0F rfl (by revert r; decide)
theorem sfk1 (r : BitVec 4) : Statement (.sfk1 r) :=
  task_word rfl 0xFF0F rfl (by revert r; decide)
theorem sfk2 (r : BitVec 4) : Statement (.sfk2 r) :=
  task_word rfl 0xFF0F rfl (by revert r; decide)
theorem ssw : Statement .ssw := rfl
theorem srip : Statement .srip := rfl
theorem sunfr : Statement .sunfr := rfl

end Sys2Proof.Laws.TableWord
end

