-- ==== Sys2Proof/Laws/Step.lean ====
section
/-!
SUPPORT. Laws/Step.lean: everything one step can do, said once.
-/

namespace Sys2Proof.Machine

/-- A command word decodes to a command. -/
theorem isCommand_of_decodeCommand {w : BitVec 32} {i : Instr} (h : decodeCommand w = .ok i) :
    i.isCommand = true := by
  simp only [decodeCommand, zeroField] at h
  split at h <;> first
    | (cases h; rfl)
    | (split at h <;> cases h; rfl)
    | simp at h

/-- A task word decodes to a micro-operation. -/
theorem isCommand_of_decodeTask {w : BitVec 16} {i : Instr} (h : decodeTask w = .ok i) :
    i.isCommand = false := by
  simp only [decodeTask, decodeUop, noRef] at h
  split at h
  · split at h <;> first
      | (cases h; rfl)
      | (split at h <;> cases h; rfl)
      | simp at h
  · cases h

/-- What the engine's own step can do: wait, complete an illegal command, run the accepted command, run
the task at STEP, or end the execution. -/
inductive EngineMove (s s' : State) : Prop where
  | stay (h : s.activity = .idle ∨ ∃ pm, s.activity = .running pm ∧ s.evp.isSome = true) (e : s' = s)
  | illegal (w : BitVec 32) (ha : s.activity = .command w) (hb : buildWf s.build = true)
      (e : s' = s.raise .illegalCommand 0)
  | command (w : BitVec 32) (i : Instr) (ha : s.activity = .command w) (hb : buildWf s.build = true)
      (hi : i.isCommand = true) (e : exec i s = .next s')
  | task (i : Instr) (hi : i.isCommand = false) (e : exec i s = .next s')
  | finish (pm : NameMap Int) (ts : List Task) (ha : s.activity = .running pm) (he : s.evp = none)
      (ht : s.flowTasks? = some ts) (hs : s.stepIdx = ts.length) (e : s' = s.finish)

theorem engineStep_cases {s s' : State} (h : engineStep s = .next s') : EngineMove s s' := by
  unfold engineStep at h
  split at h
  · rename_i ha
    cases h
    exact .stay (.inl ha) rfl
  · rename_i w ha
    unfold startCommand at h
    split at h
    · rename_i hb
      split at h
      · rename_i i hi
        exact .command w i ha hb (isCommand_of_decodeCommand hi) h
      · cases h
        exact .illegal w ha hb rfl
    · cases h
  · rename_i pm ha
    split at h
    · rename_i he
      unfold runStep at h
      split at h
      · cases h
      · rename_i ts ht
        split at h
        · split at h
          · rename_i i hi
            exact .task i (isCommand_of_decodeTask hi) h
          · cases h
        · split at h
          · rename_i hs
            cases h
            exact .finish pm ts ha he ht hs rfl
          · cases h
    · rename_i p he
      cases h
      exact .stay (.inr ⟨pm, ha, by simp [he]⟩) rfl

/-- What a step can do: the engine's own step, with or without using up a `wait`, a reset, the acceptance
of the pending event, a host write of a cell, made or held, of a length or of a text, or a host write of CMD. -/
inductive StepMove (s s' : State) : Prop where
  | engine (h : EngineMove s s')
  | waited (rest : List EnvMove) (he : s.env = .wait :: rest) (h : EngineMove { s with env := rest } s')
  | reset (rest : List EnvMove) (he : s.env = .reset :: rest) (e : s' = { s with env := rest }.resetNow)
  | accept (rest : List EnvMove) (he : s.env = .sinkAccept :: rest) (k : Nat) (p : PendingEvent) (hp : s.evp = some p)
      (hk : s.sinks[p.next]? = some k) (e : s' = { s with env := rest }.deliver k p)
  | cell (rest : List EnvMove) (sp : Space) (i : Nat) (c : Byte) (hb : s.activity = .idle) (hi : i < (s.len sp).toNat)
      (e : s' = { s with env := rest }.setCell sp i c)
  | hold (rest : List EnvMove) (sp : Space) (i : Nat) (c : Byte) (hb : s.activity = .idle) (hl : (s.len sp).toNat ≤ i)
      (hi : i < s.cap sp) (e : s' = { s with env := rest }.hold sp i c)
  | len (rest : List EnvMove) (sp : Space) (n : BitVec 32) (hb : s.activity = .idle) (hn : n.toNat ≤ s.cap sp)
      (e : s' = { s with env := rest }.setLen sp n)
  | text (rest : List EnvMove) (sp : Space) (t : Str) (hb : s.activity = .idle) (ht : t.length ≤ s.cap sp)
      (hs : t.length < 2 ^ 32) (e : s' = { s with env := rest }.setText sp t)
  | cmd (rest : List EnvMove) (w : BitVec 32) (hb : s.activity = .idle) (e : s' = { s with env := rest }.accept w)

theorem offered_eq {s : State} {k : Nat} {p : PendingEvent} (h : s.offered? = some (k, p)) :
    s.evp = some p ∧ s.sinks[p.next]? = some k := by
  unfold State.offered? at h
  split at h
  · rename_i q hq
    obtain ⟨j, hj, he⟩ := Option.map_eq_some_iff.1 h
    simp only [Prod.mk.injEq] at he
    obtain ⟨rfl, rfl⟩ := he
    exact ⟨hq, hj⟩
  · cases h

theorem idle_of_not_busy {s : State} (h : ¬ s.busy = true) : s.activity = .idle := by
  simpa [State.busy] using h

theorem step_cases {s s' : State} (h : step s = .next s') : StepMove s s' := by
  unfold step worldStep at h
  split at h
  · exact .engine (engineStep_cases h)
  · rename_i rest he
    exact .waited rest he (engineStep_cases h)
  · rename_i rest he
    cases h
    exact .reset rest he rfl
  · rename_i rest he
    split at h
    · rename_i k p ho
      cases h
      exact .accept rest he k p (offered_eq ho).1 (offered_eq ho).2 rfl
    · split at h
      · exact .engine (engineStep_cases h)
      · cases h
  · rename_i m rest _
    split at h
    · split at h
      · cases h
      · exact .engine (engineStep_cases h)
    · rename_i hb
      replace hb := idle_of_not_busy hb
      cases m
      · rw [hostMove_writeCell] at h
        split at h <;> cases h
        rename_i hi
        exact .cell rest _ _ _ hb hi rfl
      · rw [hostMove_prepareCell] at h
        split at h
        · cases h
          rename_i hi
          exact .cell rest _ _ _ hb hi rfl
        · split at h <;> cases h
          rename_i hl hi
          exact .hold rest _ _ _ hb (Nat.le_of_not_lt hl) hi rfl
      · simp only [hostMove] at h
        split at h <;> cases h
        rename_i hn
        exact .len rest _ _ hb hn rfl
      · simp only [hostMove] at h
        split at h <;> cases h
        rename_i ht
        exact .text rest _ _ hb ht.1 ht.2 rfl
      · cases h
        exact .cmd rest _ hb rfl

end Sys2Proof.Machine
end

