-- ==== Sys2Proof/Tests/Slice0.lean ====
section
/-!
SUPPORT. Tests/Slice0.lean: what WellFormed refuses; every constructor's word, written out from the encoding
tables of spec/30_encoding.md; small steps with results from spec/95_test_vectors.md; and a witness for
the hypotheses of each obligation that has any.
-/

namespace Sys2Proof.Tests

-- One theorem after another: hundreds of small evaluations at once would each take a thread.
set_option Elab.async false

open Sys2Proof Sys2Proof.Machine

/-! ### WellFormed and Build: ill-formed terms are refused -/

/-- A command is no task (R80). -/
theorem test_wf_command_in_flow : Instr.wfTask .vlock 3 = false := by decide

/-- A micro-operation is not written to CMD (R80). -/
theorem test_wf_task_in_cmd : Instr.wfCommand .ident = false := by decide

/-- EN28: VXLT with REF 2 at position 2; at position 3 it is well-formed. -/
theorem test_wf_ref_not_earlier : Instr.wfTask (.vxlt 2) 2 = false ∧ Instr.wfTask (.vxlt 2) 3 = true := by decide

/-- R35: two tasks of one name; 17 tasks; an undefined word. -/
theorem test_wf_flow : flowWf [mkTask "A" 0, mkTask "A" 0] = false ∧
    flowWf ((List.range 17).map fun i => ⟨[BitVec.ofNat 8 i], [], 0⟩) = false ∧
    flowWf [mkTask "A" 0x1400] = false ∧ flowWf [mkTask "A" 0, mkTask "B" 0x2300] = true := by decide +kernel

/-- R33(a), (b): an empty Vigenere key word, a digit in a key word. -/
theorem test_wf_key_words : vigKeyWf [] = false ∧ vigKeyWf (strOf "a1") = false ∧ pfKeyWf (strOf "a b") = false ∧
    vigKeyWf (strOf "Lemon") = true ∧ pfKeyWf [] = true := by decide +kernel

/-- R33(c): two matrices that are not inverse. -/
theorem test_wf_hill : hillWf { Cfg.reference with hillUKey := Cfg.reference.hillKey } = false := by decide +kernel

/-- R33(e): RIP not the inverse of IP; P4 no permutation. -/
theorem test_wf_sdes : sdesWf { Cfg.reference with rip := Cfg.reference.ip } = false ∧
    sdesWf { Cfg.reference with p4 := #v[0, 0, 1, 2] } = false := by decide +kernel

/-- R9: no sinks; too few flows. -/
theorem test_wf_build : buildWf { Build.reference with nsinks := 0 } = false ∧
    buildWf { Build.reference with tasks := [] } = false ∧ buildWf Build.reference = true := by decide +kernel

/-! ### Decoding: the word of every instruction, from R82 and R92 -/

/-- EN7. -/
theorem test_decode_exec : decodeTableWord 32 0x010A0000 = some (.exec 10) := by decide

/-- EN8. -/
theorem test_decode_sub : decodeTableWord 32 0x02000200 = some (.sub 0 2) := by decide

/-- EN10. -/
theorem test_decode_fsub : decodeTableWord 32 0x03000100 = some (.fsub 1) := by decide

/-- EN12. -/
theorem test_decode_fadd : decodeTableWord 32 0x04C80000 = some (.fadd 200) := by decide

/-- EN13. -/
theorem test_decode_frem : decodeTableWord 32 0x05000000 = some (.frem) := by decide

/-- EN14. -/
theorem test_decode_pset : decodeTableWord 32 0x06FFFFFD = some (.pset (BitVec.ofInt 24 (-3))) := by decide

/-- EN15. -/
theorem test_decode_pclr : decodeTableWord 32 0x07000000 = some (.pclr) := by decide

/-- EN5. -/
theorem test_decode_clock : decodeTableWord 32 0x10800000 = some (.clock (BitVec.ofInt 24 (-8388608))) := by decide

/-- EN2. -/
theorem test_decode_cunlock : decodeTableWord 32 0x11000005 = some (.cunlock 5) := by decide

/-- EN16. -/
theorem test_decode_vlock : decodeTableWord 32 0x20000000 = some (.vlock) := by decide

/-- EN16. -/
theorem test_decode_vunlock : decodeTableWord 32 0x21000000 = some (.vunlock) := by decide

/-- EN16. -/
theorem test_decode_plock : decodeTableWord 32 0x30000000 = some (.plock) := by decide

/-- EN16. -/
theorem test_decode_punlock : decodeTableWord 32 0x31000000 = some (.punlock) := by decide

/-- EN16. -/
theorem test_decode_hlock : decodeTableWord 32 0x40000000 = some (.hlock) := by decide

/-- EN16. -/
theorem test_decode_hunlock : decodeTableWord 32 0x41000000 = some (.hunlock) := by decide

/-- EN16. -/
theorem test_decode_slock : decodeTableWord 32 0x50000000 = some (.slock) := by decide

/-- EN16. -/
theorem test_decode_sunlock : decodeTableWord 32 0x51000000 = some (.sunlock) := by decide

/-- R92. -/
theorem test_decode_ident : decodeTableWord 16 0x0000 = some (.ident) := by decide

/-- R92. -/
theorem test_decode_upper : decodeTableWord 16 0x1000 = some (.upper) := by decide

/-- R92. -/
theorem test_decode_a2v : decodeTableWord 16 0x1100 = some (.a2v) := by decide

/-- R92. -/
theorem test_decode_cadd : decodeTableWord 16 0x1200 = some (.cadd) := by decide

/-- R92. -/
theorem test_decode_v2a : decodeTableWord 16 0x1300 = some (.v2a) := by decide

/-- R92. -/
theorem test_decode_vfix : decodeTableWord 16 0x2000 = some (.vfix) := by decide

/-- R92. -/
theorem test_decode_vmkkey : decodeTableWord 16 0x2100 = some (.vmkkey) := by decide

/-- R92. -/
theorem test_decode_vneg : decodeTableWord 16 0x2200 = some (.vneg) := by decide

/-- R92. -/
theorem test_decode_vxlt : decodeTableWord 16 0x23F0 = some (.vxlt 15) := by decide

/-- R92. -/
theorem test_decode_pffix : decodeTableWord 16 0x3000 = some (.pffix) := by decide

/-- R92. -/
theorem test_decode_pfufix : decodeTableWord 16 0x3100 = some (.pfufix) := by decide

/-- R92. -/
theorem test_decode_pfkey : decodeTableWord 16 0x3200 = some (.pfkey) := by decide

/-- R92. -/
theorem test_decode_pfenc : decodeTableWord 16 0x3310 = some (.pfenc 1) := by decide

/-- R92. -/
theorem test_decode_pfdec : decodeTableWord 16 0x3480 = some (.pfdec 8) := by decide

/-- R92. -/
theorem test_decode_hfix : decodeTableWord 16 0x4000 = some (.hfix) := by decide

/-- R92. -/
theorem test_decode_hmulk : decodeTableWord 16 0x4100 = some (.hmulk) := by decide

/-- R92. -/
theorem test_decode_hmulu : decodeTableWord 16 0x4200 = some (.hmulu) := by decide

/-- R92. -/
theorem test_decode_hv2a : decodeTableWord 16 0x4300 = some (.hv2a) := by decide

/-- R92. -/
theorem test_decode_sframe : decodeTableWord 16 0x5000 = some (.sframe) := by decide

/-- R92. -/
theorem test_decode_skeys : decodeTableWord 16 0x5100 = some (.skeys) := by decide

/-- R92. -/
theorem test_decode_sip : decodeTableWord 16 0x5220 = some (.sip 2) := by decide

/-- R92. -/
theorem test_decode_sfk1 : decodeTableWord 16 0x5310 = some (.sfk1 1) := by decide

/-- R92. -/
theorem test_decode_sfk2 : decodeTableWord 16 0x5440 = some (.sfk2 4) := by decide

/-- R92. -/
theorem test_decode_ssw : decodeTableWord 16 0x5500 = some (.ssw) := by decide

/-- R92. -/
theorem test_decode_srip : decodeTableWord 16 0x5600 = some (.srip) := by decide

/-- R92. -/
theorem test_decode_sunfr : decodeTableWord 16 0x5700 = some (.sunfr) := by decide

/-- EN17 to EN22, EN25 to EN27: words that are no instruction. -/
theorem test_decode_refuses : [0x00000000, 0x12000000, 0x20000001, 0x01000001, 0x03010100, 0x0200020F].map
      (decodeTableWord 32) = List.replicate 6 none ∧
    [0x1210, 0x1001, 0x1400].map (decodeTableWord 16) = List.replicate 3 none := by decide

/-! ### One step of each instruction -/

/-- A field of the next state. -/
def after {α : Type} (o : Host.Outcome State Fault Refusal) (f : State → α) : Option α :=
  match o with
  | .next s => some (f s)
  | .fault _ => none
  | .refused _ => none

/-- The cells of a text. -/
def cellsOf (t : String) : NatMap Byte := (strOf t).zipIdx.map fun e => (e.2, e.1)

/-- After reset and `IN <- t`. -/
def withIn (t : String) : State :=
  { State.reset with inBuf := cellsOf t, inLen := BitVec.ofNat 32 (strOf t).length }

/-- After reset and `NAME <- t`. -/
def withName (t : String) : State :=
  { State.reset with nameBuf := cellsOf t, nameLen := BitVec.ofNat 32 (strOf t).length }

/-- Flow `f` at its task `k`, with this PREV, RES and parameter mapping. -/
def atTask (f k : Nat) (prev : Value) (res : NameMap Value) (pm : NameMap Int) : State :=
  { State.reset with flow := ⟨f, true⟩, stepIdx := k, prev := prev, res := res, activity := .running pm }

/-- The Value a micro-operation leaves in PREV. -/
def result (i : Instr) (s : State) : Option Value := after (exec i s) State.prev

/-- CODE and ESTEP after an instruction. -/
def raised (i : Instr) (s : State) : Option ErrReg := after (exec i s) State.err

def text (t : String) : Value := .str (strOf t)

/-- PL10: EXEC 10 on "q". -/
theorem test_exec : after (exec (.exec 10) (withIn "q")) (fun s => (s.flow, s.stepIdx, s.prev)) = some (⟨10, true⟩, 0, text "q") := by decide +kernel

/-- PL11; R288: the failing EXEC leaves OUT valid. -/
theorem test_exec_invalid : after (exec (.exec 11) { State.reset with ovalid := true }) (fun s => (s.err, s.flow.valid, s.ovalid)) =
    some (⟨.invalidFlow, 0⟩, false, true) := by decide +kernel

/-- PL1. -/
theorem test_sub : (after (exec (.sub 0 2) State.reset) State.obs, after (exec (.sub 0 2) { State.reset with obs := [(0, [2, 1])] }) State.obs) =
    (some [(0, [2])], some [(0, [2, 1])]) := by decide +kernel

/-- PL4, PL3. -/
theorem test_sub_order : (raised (.sub 11 4) State.reset, raised (.sub 0 4) State.reset) =
    (some ⟨.invalidFlow, 0⟩, some ⟨.invalidObserver, 0⟩) := by decide +kernel

/-- PL5. -/
theorem test_fsub : after (exec (.fsub 3) (withName "Hill:lock")) State.obs = some [(6, [3])] := by decide +kernel

/-- PL6, PL7. -/
theorem test_fsub_not_found : (raised (.fsub 3) (withName "hill:lock"), raised (.fsub 0) State.reset) =
    (some ⟨.notFound, 0⟩, some ⟨.notFound, 0⟩) := by decide +kernel

/-- PL8. -/
theorem test_fadd : after (exec (.fadd 6) (withName "Caesar:lock")) (fun s => mapGet s.reg (strOf "Caesar:lock")) = some (some 6) := by decide +kernel

/-- W13, EN12. -/
theorem test_fadd_raises : (raised (.fadd 0) State.reset, raised (.fadd 200) (withName "x")) =
    (some ⟨.invalidName, 0⟩, some ⟨.invalidFlow, 0⟩) := by decide +kernel

/-- R127. -/
theorem test_frem : after (exec .frem (withName "Caesar:lock")) (fun s => (s.reg.length, mapGet s.reg (strOf "Caesar:lock"))) =
    some (9, none) := by decide +kernel

/-- PL9. -/
theorem test_frem_absent : after (exec .frem (withName "nothing")) (fun s => (s.reg, s.err)) = some (builtinRegistry, ⟨.ok, 0⟩) := by decide +kernel

/-- EN14. -/
theorem test_pset : after (exec (.pset 0xFFFFFD) (withName "shift")) State.params = some [(strOf "shift", -3)] := by decide +kernel

/-- R129. -/
theorem test_pclr : after (exec .pclr { State.reset with params := [([], 1)] }) State.params = some [] := by decide +kernel

/-- CA7. -/
theorem test_clock : after (exec (.clock 0xFFFF9C) (withIn "HELLO")) (fun s => (s.activity, s.prev)) =
    some (.running [(strOf "shift", -100)], text "HELLO") := by decide +kernel

/-- CA10: the parameter is +8388608. -/
theorem test_cunlock : after (exec (.cunlock 0x800000) State.reset) (fun s => (s.activity, s.flow.id)) =
    some (.running [(strOf "shift", 8388608)], 1) := by decide +kernel

/-- R115, R121. -/
theorem test_vlock : after (exec .vlock (withIn "A")) (fun s => (s.flow, s.activity, s.prev)) = some (⟨2, true⟩, .running [], text "A") := by decide +kernel

/-- R115, R121. -/
theorem test_vunlock : after (exec .vunlock (withIn "A")) (fun s => (s.flow, s.activity, s.prev)) = some (⟨3, true⟩, .running [], text "A") := by decide +kernel

/-- R115, R121. -/
theorem test_hlock : after (exec .hlock (withIn "A")) (fun s => (s.flow, s.activity, s.prev)) = some (⟨6, true⟩, .running [], text "A") := by decide +kernel

/-- R115, R121. -/
theorem test_hunlock : after (exec .hunlock (withIn "A")) (fun s => (s.flow, s.activity, s.prev)) = some (⟨7, true⟩, .running [], text "A") := by decide +kernel

/-- R115, R121. -/
theorem test_slock : after (exec .slock (withIn "A")) (fun s => (s.flow, s.activity, s.prev)) = some (⟨8, true⟩, .running [], text "A") := by decide +kernel

/-- R115, R121. -/
theorem test_sunlock : after (exec .sunlock (withIn "A")) (fun s => (s.flow, s.activity, s.prev)) = some (⟨9, true⟩, .running [], text "A") := by decide +kernel

/-- R115, R121; PF13. -/
theorem test_plock : after (exec .plock (withIn "A")) State.flow = some ⟨4, true⟩ ∧
    after (exec .plock State.reset) (fun s => (s.flow, s.out, s.ovalid, s.activity)) = some (⟨0, false⟩, .str [], true, .idle) := by decide +kernel

/-- R115, R121; PF13. -/
theorem test_punlock : after (exec .punlock (withIn "A")) State.flow = some ⟨5, true⟩ ∧
    after (exec .punlock State.reset) (fun s => (s.flow, s.out, s.ovalid, s.activity)) = some (⟨0, false⟩, .str [], true, .idle) := by decide +kernel

/-- R130: whatever the shape. -/
theorem test_ident : result .ident (atTask 10 0 (.keys 1 2) [] []) = some (.keys 1 2) := by decide +kernel

/-- 3.3. -/
theorem test_upper : result .upper (atTask 0 0 (text "Hello!") [] []) = some (text "HELLO!") := by decide +kernel

/-- CA1. -/
theorem test_a2v : result .a2v (atTask 0 1 (text "HELLO") [] []) = some (.ints [7, 4, 11, 11, 14]) := by decide +kernel

/-- 3.3: A2V does not fold case. -/
theorem test_a2v_lower : raised .a2v (atTask 0 1 (text "hello") [] []) = some ⟨.invalidInput, 1⟩ := by decide +kernel

/-- CA7. -/
theorem test_cadd : result .cadd (atTask 0 2 (.ints [7, 4, 11, 11, 14]) [] [(strOf "shift", -100)]) = some (.ints [11, 8, 15, 15, 18]) := by decide +kernel

/-- PL14. -/
theorem test_cadd_absent : raised .cadd (atTask 0 2 (.ints [0]) [] []) = some ⟨.typeError, 2⟩ := by decide +kernel

/-- 3.3. -/
theorem test_v2a : result .v2a (atTask 0 3 (.ints [12, 9, 16, 16, 19]) [] []) = some (text "MJQQT") := by decide +kernel

/-- 3.3. -/
theorem test_v2a_negative : raised .v2a (atTask 0 3 (.ints [-1]) [] []) = some ⟨.typeError, 3⟩ := by decide +kernel

/-- VG4, VG1. -/
theorem test_vfix : result .vfix (atTask 2 0 (text "attack at dawn") [] []) = some (.ints [0, 19, 19, 0, 2, 10, 0, 19, 3, 0, 22, 13]) := by decide +kernel

/-- VG10. -/
theorem test_vfix_raises : raised .vfix (atTask 2 0 (text "AT-DAWN") [] []) = some ⟨.invalidInput, 0⟩ := by decide +kernel

/-- VG1. -/
theorem test_vmkkey : result .vmkkey (atTask 2 1 (.ints [0, 19, 19, 0, 2, 10, 0, 19, 3, 0, 22, 13]) [] []) = some (.ints [3, 4, 2, 4, 15, 19, 8, 21, 4, 3, 4, 2]) := by decide +kernel

/-- VG3. -/
theorem test_vneg : result .vneg (atTask 3 2 (.ints [3, 4, 0]) [] []) = some (.ints [-3, -4, 0]) := by decide +kernel

/-- VG3, VG6. -/
theorem test_vxlt : result (.vxlt 0) (atTask 3 3 (.ints [-3, -4, -2, 1]) [(strOf "fix", .ints [3, 23, 21, 25])] []) = some (text "ATTA") := by decide +kernel

/-- R176. -/
theorem test_vxlt_lengths : raised (.vxlt 0) (atTask 3 3 (.ints [0]) [(strOf "fix", .ints [])] []) = some ⟨.typeError, 3⟩ := by decide +kernel

/-- PF8. -/
theorem test_pffix : result .pffix (atTask 4 0 (text "jazz") [] []) = some (.pairs [(73, 65), (90, 88), (90, 88)]) := by decide +kernel

/-- PF5. -/
theorem test_pffix_fillers : result .pffix (atTask 4 0 (text "XX") [] []) = some (.pairs [(88, 88), (88, 88)]) := by decide +kernel

/-- PF16. -/
theorem test_pfufix : result .pfufix (atTask 5 0 (text "ja") [] []) = some (.pairs [(74, 65)]) := by decide +kernel

/-- PF15. -/
theorem test_pfufix_odd : raised .pfufix (atTask 5 0 (text "ABC") [] []) = some ⟨.invalidInput, 0⟩ := by decide +kernel

/-- W5. -/
theorem test_pfkey : result .pfkey (atTask 4 1 (.ints []) [] []) = some (.square #v[77, 79, 78, 65, 82, 67, 72, 89, 66, 68, 69, 70, 71, 73, 75, 76, 80, 81, 83, 84, 85, 86, 87, 88, 90]) := by decide +kernel

/-- The square of W5. -/
def monarchy : Value := .square #v[77, 79, 78, 65, 82, 67, 72, 89, 66, 68, 69, 70, 71, 73, 75, 76, 80, 81, 83, 84, 85, 86,
  87, 88, 90]

/-- 3.5: rectangle, row, column, column and the equal letters of `(Z,Z)`. -/
theorem test_pfenc : result (.pfenc 0) (atTask 4 2 (monarchy) [(strOf "fixMsg", .pairs [(72, 69), (83, 84), (77, 69), (83, 88), (90, 90)])] []) = some (text "CFTLCLXAUU") := by decide +kernel

/-- PF14: a space is not in the square. -/
theorem test_pfenc_raises : raised (.pfenc 0) (atTask 4 2 (monarchy) [(strOf "fixMsg", .pairs [(32, 84)])] []) = some ⟨.invalidInput, 2⟩ := by decide +kernel

/-- 3.5, with `d = 4`. -/
theorem test_pfdec : result (.pfdec 0) (atTask 5 2 (monarchy) [(strOf "fixMsg", .pairs [(72, 69), (83, 84), (77, 69), (83, 88), (90, 90)])] []) = some (text "CFQSUCISXX") := by decide +kernel

/-- HL4. -/
theorem test_hfix : result .hfix (atTask 6 0 (text "Hello") [] []) = some (.rows [#v[7, 4, 11], #v[11, 14, 23]]) := by decide +kernel

/-- HL11. -/
theorem test_hfix_raises : raised .hfix (atTask 6 0 (text "PAY MORE") [] []) = some ⟨.invalidInput, 0⟩ := by decide +kernel

/-- HL4, HL7. -/
theorem test_hmulk : result .hmulk (atTask 6 1 (.rows [#v[7, 4, 11], #v[25, 25, 25]]) [] []) = some (.rows [#v[17, 5, 16], #v[12, 15, 7]]) := by decide +kernel

/-- HL4. -/
theorem test_hmulu : result .hmulu (atTask 7 1 (.rows [#v[17, 5, 16], #v[7, 17, 6]]) [] []) = some (.rows [#v[7, 4, 11], #v[11, 14, 23]]) := by decide +kernel

/-- HL4. -/
theorem test_hv2a : result .hv2a (atTask 6 2 (.rows [#v[17, 5, 16], #v[7, 17, 6]]) [] []) = some (text "RFQHRG") := by decide +kernel

/-- P4. -/
theorem test_sframe : result .sframe (atTask 8 0 (text "Hi") [] []) = some (.blocks [0b01001000, 0b01101001]) := by decide +kernel

/-- SD2. -/
theorem test_skeys : result .skeys (atTask 8 1 (.ints []) [] []) = some (.keys 0b10100100 0b10010010) := by decide +kernel

/-- P4. -/
theorem test_sip : result (.sip 0) (atTask 8 2 (.keys 0 0) [(strOf "frame", .blocks [0b01001000, 0b01101001])] []) = some (.blocks [0b10000010, 0b10100110]) := by decide +kernel

/-- R24: no such entry. -/
theorem test_sip_missing : raised (.sip 0) (atTask 8 2 (.blocks []) [] []) = some ⟨.typeError, 2⟩ := by decide +kernel

/-- P4. -/
theorem test_sfk1 : result (.sfk1 1) (atTask 8 3 (.blocks [0b10000010, 0b10100110]) [(strOf "keys", .keys 0b10100100 0b10010010)] []) = some (.blocks [0b00000010, 0b01010110]) := by decide +kernel

/-- P4. -/
theorem test_sfk2 : result (.sfk2 1) (atTask 8 5 (.blocks [0b00100000, 0b01100101]) [(strOf "keys", .keys 0b10100100 0b10010010)] []) = some (.blocks [0b11110000, 0b00010101]) := by decide +kernel

/-- P4. -/
theorem test_ssw : result .ssw (atTask 8 4 (.blocks [0b00000010, 0b01010110]) [] []) = some (.blocks [0b00100000, 0b01100101]) := by decide +kernel

/-- P4. -/
theorem test_srip : result .srip (atTask 8 6 (.blocks [0b11110000, 0b00010101]) [] []) = some (.blocks [0b11100100, 0b10000011]) := by decide +kernel

/-- P4. -/
theorem test_sunfr : result .sunfr (atTask 8 7 (.blocks [228, 131]) [] []) = some (.str [228, 131]) := by decide +kernel

/-! ### The step and the host's reads -/

/-- EN17: an illegal command word. -/
theorem test_illegal : after (step { State.reset with activity := .command 0 }) (fun s => (s.errWord, s.statusWord)) =
    some (7, 6) := by decide +kernel

/-- PL14: the STATUS and ERR words of a fault in task 2. -/
theorem test_fault_words : after (step (atTask 0 2 (.ints [0]) [] [])) (fun s => (s.statusWord, s.errWord)) =
    some (6, 0x0206) := by decide +kernel

/-- P1: the end of the execution. -/
theorem test_end_words : after (step (atTask 0 4 (text "MJQQT") [] []))
    (fun s => (s.statusWord, s.errWord, s.flowWord, s.stepWord, s.outTagWord, s.outLenWord)) =
    some (2, 0, 0x100, 4, 8, 5) := by decide +kernel

/-- P1: the event of task `upper`, offered to sink 2. -/
theorem test_event : after (step { atTask 0 0 (text "hello") [] [] with obs := [(0, [2])] }) (fun s => (s.evp, s.stepIdx)) =
    some (some ⟨⟨strOf "upper", [], text "HELLO", [(strOf "upper", text "HELLO")]⟩, 0⟩, 0) := by decide +kernel

/-- P2: `-3` is stored as the cell 0xFD; a row's values in column order. -/
theorem test_cells : (Value.ints [-3]).cells = [0xFD] ∧ (Value.rows [#v[1, 2, 3]]).cells = [1, 2, 3] ∧
    (Value.keys 4 5).cells = [4, 5] := by decide

/-- R29: CMD reads as 0 and there is no tenth register. -/
theorem test_csr : State.reset.csr? 0 = some 0 ∧ State.reset.csr? 9 = none := by decide

/-- R62: the write of a cell below the length register shows in the text, the one at it is no move of the host. -/
theorem test_write_cell : after (step { withIn "AB" with env := [.host (.writeCell .inBuf 1 67)] }) State.inText =
      some (strOf "AC") ∧
    (step { withIn "AB" with env := [.host (.writeCell .inBuf 2 67)] } matches .refused .noSuchHostMove) := by
  decide +kernel

/-- R312(d): from reset, cells 1 and 0 of IN and then INLEN; before that the host reads neither. R40: a cell outside
the buffer cannot be prepared. -/
theorem test_cells_then_length :
    let s := (State.reset.hold .inBuf 1 66).hold .inBuf 0 65
    after (step { State.reset with env := [.host (.prepareCell .inBuf 1 66)] }) id = some (State.reset.hold .inBuf 1 66) ∧
    hostCell? s .inBuf 1 = none ∧
    after (step { s with env := [.host (.writeLen .inBuf 2)] }) State.inText = some (strOf "AB") ∧
    (step { s with env := [.host (.prepareCell .inBuf 2147483646 67)] } matches .refused .noSuchHostMove) := by
  decide +kernel

/-- R312(d): `IN[0] <- A`, a PSET, `INLEN <- 1`: the PSET, accepted and completed in between, leaves the held write, and
the text is A. -/
theorem test_cell_command_length :
    let s := State.reset.hold .inBuf 0 65
    after (step { s with env := [.host (.writeCmd 0x06000005)] }) (fun s => s.inHeld) = some [(0, 65)] ∧
    after (step (s.accept 0x06000005)) (fun s => (s.inHeld, s.status.done)) = some ([(0, 65)], true) ∧
    after (step { s with env := [.host (.writeLen .inBuf 1)] }) (fun s => (s.inText, s.inHeld)) = some (strOf "A", []) := by
  decide +kernel

/-- R46: TASKS while BUSY = 0 and while BUSY = 1. -/
theorem test_read_task : (hostTask? State.reset 0 0).isSome = true ∧ hostTask? (atTask 0 0 (text "a") [] []) 0 0 = none := by
  decide +kernel

/-- R95: `NAME <- "shift"` sets the cells and the length register together. -/
theorem test_write_text : after (step { State.reset with env := [.host (.writeText .nameBuf (strOf "shift"))] })
    (fun s => (s.nameText, s.nameLen, s.inLen)) = some (strOf "shift", 5, 0) := by decide +kernel

/-- R62: MemRead of two cells of IN, and of three where there are two. -/
theorem test_mem_read : hostRead? (withIn "AB") (.buf .inBuf) 0 2 = some [65, 66] ∧
    hostRead? (withIn "AB") (.buf .inBuf) 0 3 = none := by decide +kernel

/-- R62, R63: OUT holds two digraphs, OUTLEN is 2, and the host reads each by its index and none past OUTLEN. -/
theorem test_out_elems : let s := { State.reset with out := .pairs [(65, 66), (67, 68)], ovalid := true }
    s.outLenWord = 2 ∧ hostRead? s .out 0 2 = some [65, 66, 67, 68] ∧ hostOutElem? s 1 = some [67, 68] ∧
    hostRead? s .out 0 3 = none ∧ hostOutElem? s 2 = none := by decide +kernel

/-- R112, R113: flow 10 of the reference configuration, defined task by task with the default description and
body; a name used twice is refused (R35). -/
theorem test_define_tasks :
    let b := { Build.reference with tasks := builtinFlows ++ [[]] }
    defineTasks? b 10 [(strOf "A", none, none), (strOf "B", none, none), (strOf "C", none, none)] = some Build.reference ∧
    (defineTask? b 10 none none none).map (fun b => b.tasks[10]?) = some (some [⟨[], [], 0x0000⟩]) ∧
    defineTasks? b 10 [(strOf "A", none, none), (strOf "A", none, none)] = none := by decide +kernel

/-- The first instruction after reset, placed by `withFetchWord`, runs. -/
theorem test_fetch : after (step (State.reset.withFetchWord 32 0x10000005)) (fun s => s.activity) =
      some (.running [(strOf "shift", 5)]) ∧
    after (step (State.reset.withFetchWord 16 0x1000)) (fun s => (s.prev, s.stepIdx)) = some (.str [], 1) := by
  decide +kernel

/-! ### Witnesses: the hypotheses of the obligations can be met -/

/-- The task a state of `atTask` is ready to run. -/
theorem ready {f k : Nat} {prev : Value} {res : NameMap Value} {pm : NameMap Int} {t : Task}
    (h : (Build.reference.tasks[f]?.bind fun ts => ts[k]?) = some t) : TaskReady (atTask f k prev res pm) t pm :=
  ⟨rfl, rfl, h⟩

/-- StepRunsCommand, both clauses. -/
theorem witness_StepRunsCommand :
    let s := { State.reset with activity := .command 0x10000005 }
    s.evp = none ∧ buildWf s.build = true ∧ decodeCommand 0x10000005 = .ok (.clock 5) ∧ s.worldWaits ∧
      { s with env := [.wait] }.env = .wait :: [] :=
  ⟨rfl, by decide +kernel, by decide, .inl rfl, rfl⟩

/-- StepRunsTask, both clauses. -/
theorem witness_StepRunsTask :
    let s := atTask 0 0 (text "a") [] []
    TaskReady s (mkTask "upper" 0x1000) [] ∧ decodeTask 0x1000 = .ok .upper ∧ s.worldWaits ∧
      TaskReady { s with env := [.wait] } (mkTask "upper" 0x1000) [] :=
  ⟨ready rfl, by decide, .inl rfl, ⟨rfl, rfl, rfl⟩⟩

/-- EN19 against every row of the opcode table. -/
theorem no_row : (commandRows.all fun r => (0x20000001 : BitVec 32) &&& r.1 != r.2) = true := by rfl

/-- IllegalCommandCompletes. -/
theorem witness_IllegalCommandCompletes :
    let s := { State.reset with activity := .command 0x20000001, env := [.host (.writeCmd 0)] }
    s.evp = none ∧ buildWf s.build = true ∧ s.worldWaits ∧
      ∀ r ∈ commandRows, (0x20000001 : BitVec 32) &&& r.1 ≠ r.2 :=
  ⟨rfl, by decide +kernel, .inr (.inl ⟨_, _, rfl⟩), fun r hr => by simpa using List.all_eq_true.1 no_row r hr⟩

/-- ExecutionEnds. -/
theorem witness_ExecutionEnds :
    let s := { atTask 10 3 (.ints [1]) [] [] with env := [.sinkAccept] }
    s.activity = .running [] ∧ s.evp = none ∧ s.worldWaits ∧ ∃ ts, s.flowTasks? = some ts ∧ s.stepIdx = ts.length :=
  ⟨rfl, rfl, .inr (.inr ⟨_, rfl⟩), _, rfl, rfl⟩

/-- ExecutionEnds: FVALID = 1 and a number of elements that OUTLEN counts. -/
theorem witness_ExecutionEnds_reads : (atTask 10 3 (.ints [1]) [] []).flow.valid = true ∧ 1 < 2 ^ 32 := by decide

/-- CommandAccepted: idle, with a held write; BUSY = 1 with a command accepted and
with an execution in progress. -/
theorem witness_CommandAccepted : { (withIn "A").hold .inBuf 1 66 with env := [.host (.writeCmd 0xFFFFFFFF)] }.busy = false ∧
    { State.reset with activity := .command 0 }.busy = true ∧ (atTask 0 0 (text "a") [] []).busy = true := by decide +kernel

/-- HostWritesBuffers: the last cell below the length and the first at it, the last cell of the buffer and the first
outside it; the greatest length of each buffer and, for IN, the one above; a text, and a size that is too small for it. -/
theorem witness_HostWritesBuffers : (withIn "AB").busy = false ∧ 1 < ((withIn "AB").len .inBuf).toNat ∧
    ((withIn "AB").len .inBuf).toNat ≤ 2 ∧ 2 < (withIn "AB").cap .inBuf ∧ 2147483645 < (withIn "AB").cap .inBuf ∧
    (withIn "AB").cap .inBuf ≤ 2147483646 ∧ (2147483646#32).toNat ≤ State.reset.cap .inBuf ∧
    State.reset.cap .inBuf < (2147483647#32).toNat ∧ (4294967295#32).toNat ≤ State.reset.cap .nameBuf ∧
    (strOf "AB").length ≤ State.reset.cap .nameBuf ∧ (strOf "AB").length < 2 ^ 32 ∧
    { State.reset with build := { Build.reference with maxLen := 1 } }.cap .inBuf < (strOf "AB").length := by
  decide +kernel

/-- The memory invariant at reset. -/
theorem reset_memoryInv : State.reset.MemoryInv where
  inWf := .nil
  nameWf := .nil
  inCells := by rintro e ⟨⟩
  nameCells := by rintro e ⟨⟩
  inLen := Nat.zero_le _
  nameLen := Nat.zero_le _
  inFree := ⟨.nil, by rintro e ⟨⟩⟩
  nameFree := ⟨.nil, by rintro e ⟨⟩⟩
  inHeldWf := .nil
  nameHeldWf := .nil
  inHeld := by rintro e ⟨⟩
  nameHeld := by rintro e ⟨⟩

/-- HostWritesBuffers, the order of a cell and the length: with a cell that the present length does not take in, and
with one that it does. -/
theorem witness_HostWritesBuffers_order : State.reset.MemoryInv ∧ 0 < (1#32).toNat ∧ (1#32).toNat ≤ State.reset.cap .inBuf ∧
    (State.reset.setLen .inBuf 2).MemoryInv ∧ 0 < ((State.reset.setLen .inBuf 2).len .inBuf).toNat :=
  ⟨reset_memoryInv, by decide, by decide, memoryInv_setLen reset_memoryInv (by decide), by decide⟩

/-- The event of flow 0's task `upper` on "a". -/
def upperEvent : Event := ⟨strOf "upper", [], text "A", [(strOf "upper", text "A")]⟩

/-- Flow 0 after its first task, with the event pending for the sink at position `n` of two. -/
def offering (n : Nat) : State :=
  { atTask 0 0 (text "A") [(strOf "upper", text "A")] [] with
    obs := [(0, [2, 1])], evp := some ⟨upperEvent, n⟩, env := [.sinkAccept] }

/-- SinkAccepts: the first of two sinks, and the last. -/
theorem witness_SinkAccepts : (offering 0).sinks[0]? = some 2 ∧ 0 + 1 < (offering 0).sinks.length ∧
    (offering 1).sinks[1]? = some 1 ∧ (offering 1).sinks.length ≤ 1 + 1 := by decide

/-- CommandAccepted: BUSY = 1 with an event pending. -/
theorem witness_CommandAccepted_event : (offering 0).busy = true ∧ (offering 0).evp.isSome = true := by decide

/-- EngineWaits: idle, and an event that no sink accepts. -/
theorem witness_EngineWaits : State.reset.activity = .idle ∧ State.reset.env = [] ∧
    (offering 0).activity = .running [] ∧ (offering 0).evp.isSome = true ∧
    { offering 0 with env := [.wait] }.env = .wait :: [] :=
  ⟨rfl, rfl, rfl, rfl, rfl⟩

/-- ResetAtAnyTime, while an execution is in progress. -/
theorem witness_ResetAtAnyTime : { offering 0 with env := [.reset, .wait] }.env = .reset :: [.wait] ∧
    (offering 0).busy = true := ⟨rfl, by decide⟩

/-- ExecLaunchesFlow, SubSubscribes: the last flow and the first id that names none; the last sink and the
first id that names none. -/
theorem witness_ExecLaunchesFlow_SubSubscribes : (10#8).toNat < nflows State.reset.build ∧
    nflows State.reset.build ≤ (11#8).toNat ∧ (3#8).toNat < State.reset.build.nsinks ∧
    State.reset.build.nsinks ≤ (4#8).toNat := by decide

/-- CipherCommandsLaunch and PlayfairShortCircuit: a non-empty and an empty input. -/
theorem witness_CipherCommandsLaunch_PlayfairShortCircuit : (withIn "A").inLen ≠ 0 ∧ State.reset.inLen = 0 := by decide

/-- FsubSubscribes: an unbound name and a bound one. -/
theorem witness_FsubSubscribes : mapGet State.reset.reg State.reset.nameText = none ∧
    mapGet (withName "Hill:lock").reg (withName "Hill:lock").nameText = some 6 := by decide +kernel

/-- FaddBinds: an empty name and a non-empty one. -/
theorem witness_FaddBinds : State.reset.nameText = [] ∧ (withName "x").nameText ≠ [] := by decide +kernel

/-- UpperFoldsLetters. -/
theorem witness_UpperFoldsLetters : TaskReady (atTask 0 0 (text "Az[") [] []) (mkTask "upper" 0x1000) [] ∧
    TaskReady (atTask 0 0 (.ints []) [] []) (mkTask "upper" 0x1000) [] ∧
    ∀ m, (atTask 0 0 (.ints []) [] []).prev ≠ .str m := ⟨ready rfl, ready rfl, by rintro m ⟨⟩⟩

/-- A2vMapsLetters: the first and the last letter, the characters beside them, no string. -/
theorem witness_A2vMapsLetters : (∀ p, TaskReady (atTask 0 1 p [] []) (mkTask "toValues" 0x1100) []) ∧
    (∀ c ∈ strOf "AZ", 65 ≤ c.toNat ∧ c.toNat ≤ 90) ∧ (∃ c ∈ strOf "@", c.toNat < 65 ∨ 90 < c.toNat) ∧
    (∃ c ∈ strOf "[", c.toNat < 65 ∨ 90 < c.toNat) ∧ ∀ m, Value.blocks [] ≠ .str m :=
  ⟨fun _ => ready rfl, by decide, by decide, by decide, by rintro m ⟨⟩⟩

/-- CaddAddsParameter: a parameter, none, no integer list. -/
theorem witness_CaddAddsParameter : (∀ p pm, TaskReady (atTask 0 2 p [] pm) (mkTask "shift" 0x1200) pm) ∧
    mapGet [(strOf "shift", (8388608 : Int))] (strOf "shift") = some 8388608 ∧
    mapGet ([] : NameMap Int) (strOf "shift") = none ∧ ∀ vs, text "A" ≠ .ints vs :=
  ⟨fun _ _ => ready rfl, by decide, rfl, by rintro m ⟨⟩⟩

/-- V2aMapsValues: 0 and 25, a negative element, no integer list. -/
theorem witness_V2aMapsValues : (∀ p, TaskReady (atTask 0 3 p [] []) (mkTask "toLetters" 0x1300) []) ∧
    (Value.ints [0, 25]).wf = true ∧ (∀ v ∈ [(0 : Int), 25], 0 ≤ v) ∧ (Value.ints [-25]).wf = true ∧
    (∃ v ∈ [(-25 : Int)], v < 0) ∧ (text "A").wf = true ∧ ∀ vs, text "A" ≠ .ints vs :=
  ⟨fun _ => ready rfl, by decide, by decide, by decide, by decide, rfl, by rintro m ⟨⟩⟩

/-- VfixStripsAndMaps: letters and whitespace, another character, no string. -/
theorem witness_VfixStripsAndMaps : (∀ p, TaskReady (atTask 2 0 p [] []) (mkTask "fix" 0x2000) []) ∧
    (∀ c ∈ ((strOf "a Z").map upper).filter fun c => decide (c.toNat ∉ [9, 10, 11, 12, 13, 32]),
      65 ≤ c.toNat ∧ c.toNat ≤ 90) ∧
    (∃ c ∈ ((strOf "a-").map upper).filter fun c => decide (c.toNat ∉ [9, 10, 11, 12, 13, 32]),
      c.toNat < 65 ∨ 90 < c.toNat) ∧ ∀ m, Value.ints [] ≠ .str m :=
  ⟨fun _ => ready rfl, by decide +kernel, by decide +kernel, by rintro m ⟨⟩⟩

/-- VmkkeyRepeatsKey and PfkeyBuildsSquare: the key words of the reference configuration. -/
theorem witness_VmkkeyRepeatsKey_PfkeyBuildsSquare :
    (∀ p, TaskReady (atTask 2 1 p [] []) (mkTask "makeKey" 0x2100) []) ∧
    (∀ p, TaskReady (atTask 4 1 p [] []) (mkTask "makeKey" 0x3200) []) ∧ cfgWf State.reset.build.cfg = true ∧
    ∀ vs, text "A" ≠ .ints vs := ⟨fun _ => ready rfl, fun _ => ready rfl, by decide +kernel, by rintro m ⟨⟩⟩

/-- VnegNegates, VxltTranslates: equal and unequal lengths, no entry, no integer list. -/
theorem witness_VnegNegates_VxltTranslates :
    (∀ p, TaskReady (atTask 3 2 p [] []) (mkTask "negate" 0x2200) []) ∧
    (∀ p r, TaskReady (atTask 3 3 p r []) (mkTask "translate" 0x2300) []) ∧
    (atTask 3 3 (.ints [-1]) [(strOf "fix", .ints [25])] []).refVal? 0 = some (.ints [25]) ∧
    [(25 : Int)].length = [(-1 : Int)].length ∧ [(25 : Int)].length ≠ ([] : List Int).length ∧
    (∀ vs, (atTask 3 3 (.ints []) [] []).refVal? 0 ≠ some (.ints vs)) ∧ ∀ vs, text "A" ≠ .ints vs :=
  ⟨fun _ => ready rfl, fun _ _ => ready rfl, by decide +kernel, rfl, by decide, by rintro v ⟨⟩, by rintro m ⟨⟩⟩

/-- PffixFixesUp, PfufixSplits: even, odd, no string. -/
theorem witness_PffixFixesUp_PfufixSplits : (∀ p, TaskReady (atTask 4 0 p [] []) (mkTask "fixMsg" 0x3000) []) ∧
    (∀ p, TaskReady (atTask 5 0 p [] []) (mkTask "fixMsg" 0x3100) []) ∧ ([] : Str).length % 2 = 0 ∧
    (strOf "ABC").length % 2 = 1 ∧ ∀ m, Value.ints [] ≠ .str m :=
  ⟨fun _ => ready rfl, fun _ => ready rfl, rfl, by decide, by rintro m ⟨⟩⟩

/-- The square of W5. -/
def monarchySquare : Vector Byte 25 := #v[77, 79, 78, 65, 82, 67, 72, 89, 66, 68, 69, 70, 71, 73, 75, 76, 80, 81, 83, 84,
  85, 86, 87, 88, 90]

/-- PlayfairSubstitutes: letters of the square, a character outside, no square, no entry; both
instructions. -/
theorem witness_PlayfairSubstitutes :
    (∀ p r, TaskReady (atTask 4 2 p r []) (mkTask "substitute" 0x3300) []) ∧
    (∀ p r, TaskReady (atTask 5 2 p r []) (mkTask "substitute" 0x3400) []) ∧
    (atTask 4 2 (.square monarchySquare) [(strOf "fixMsg", .pairs [(77, 90)])] []).refVal? 0 = some (.pairs [(77, 90)]) ∧
    (77 ∈ monarchySquare.toList ∧ 90 ∈ monarchySquare.toList) ∧ 74 ∉ monarchySquare.toList ∧
    (∀ sq, text "A" ≠ .square sq) ∧ ∀ ps, (atTask 4 2 (text "A") [] []).refVal? 0 ≠ some (.pairs ps) :=
  ⟨fun _ _ => ready rfl, fun _ _ => ready rfl, by decide +kernel, by decide, by decide, by rintro m ⟨⟩, by rintro m ⟨⟩⟩

/-- PlayfairSubstitutes: `M` and `N` share a row, `M` and `U` a column, `M` and `Z` neither. -/
theorem witness_PlayfairSubstitutes_cases :
    let pos (c : Byte) := (monarchySquare.toList.idxOf c / 5, monarchySquare.toList.idxOf c % 5)
    pos 77 = (0, 0) ∧ pos 78 = (0, 2) ∧ pos 85 = (4, 0) ∧ pos 90 = (4, 4) := by decide

/-- DigraphRuleIsUndone. -/
theorem witness_DigraphRuleIsUndone : monarchySquare.toList.Nodup ∧ 88 ∈ monarchySquare.toList := by decide

/-- HfixMakesRows: letters after padding, another character, no string. -/
theorem witness_HfixMakesRows : (∀ p, TaskReady (atTask 6 0 p [] []) (mkTask "fix" 0x4000) []) ∧
    ((strOf "A").length + 2) % 3 = 0 ∧
    (∀ c ∈ (strOf "A").map upper ++ List.replicate 2 letterX, 65 ≤ c.toNat ∧ c.toNat ≤ 90) ∧
    (∃ c ∈ (strOf "PAY MORE").map upper ++ List.replicate 1 letterX, c.toNat < 65 ∨ 90 < c.toNat) ∧
    ∀ m, Value.ints [] ≠ .str m :=
  ⟨fun _ => ready rfl, by decide, by decide +kernel, by decide +kernel, by rintro m ⟨⟩⟩

/-- HillMultiplies, Hv2aSpellsRows, HillProductIsUndone. -/
theorem witness_HillMultiplies_Hv2aSpellsRows_HillProductIsUndone :
    (∀ p, TaskReady (atTask 6 1 p [] []) (mkTask "multiply" 0x4100) []) ∧
    (∀ p, TaskReady (atTask 7 1 p [] []) (mkTask "multiply" 0x4200) []) ∧
    (∀ p, TaskReady (atTask 6 2 p [] []) (mkTask "toLetters" 0x4300) []) ∧
    (∀ rs, text "A" ≠ .rows rs) ∧ hillWf Cfg.reference = true :=
  ⟨fun _ => ready rfl, fun _ => ready rfl, fun _ => ready rfl, by rintro m ⟨⟩, by decide +kernel⟩

/-- SdesFraming, SkeysDerivesSubkeys, SswSwapsHalves, SdesBlockIsUndone. -/
theorem witness_SdesFraming_SkeysDerivesSubkeys_SswSwapsHalves_SdesBlockIsUndone :
    (∀ p, TaskReady (atTask 8 0 p [] []) (mkTask "frame" 0x5000) []) ∧
    (∀ p, TaskReady (atTask 8 7 p [] []) (mkTask "unframe" 0x5700) []) ∧
    (∀ p, TaskReady (atTask 8 1 p [] []) (mkTask "keys" 0x5100) []) ∧
    (∀ p, TaskReady (atTask 8 4 p [] []) (mkTask "swap" 0x5500) []) ∧
    (∀ m, Value.ints [] ≠ .str m) ∧ (∀ bs, text "A" ≠ .blocks bs) ∧ sdesWf Cfg.reference = true :=
  ⟨fun _ => ready rfl, fun _ => ready rfl, fun _ => ready rfl, fun _ => ready rfl, by rintro m ⟨⟩, by rintro m ⟨⟩,
    by decide +kernel⟩

/-- SdesPermutes, SdesRounds: blocks and keys in RES, no entry, no blocks in PREV. -/
theorem witness_SdesPermutes_SdesRounds :
    (∀ p r, TaskReady (atTask 8 2 p r []) (mkTask "ip" 0x5200) []) ∧
    (∀ p r, TaskReady (atTask 8 6 p r []) (mkTask "rip" 0x5600) []) ∧
    (∀ p r, TaskReady (atTask 8 3 p r []) (mkTask "round1" 0x5310) []) ∧
    (∀ p r, TaskReady (atTask 8 5 p r []) (mkTask "round2" 0x5410) []) ∧
    (atTask 8 2 (.ints []) [(strOf "frame", .blocks [1])] []).refVal? 0 = some (.blocks [1]) ∧
    (atTask 8 3 (.blocks [1]) [(strOf "keys", .keys 1 2)] []).refVal? 1 = some (.keys 1 2) ∧
    (∀ bs, (atTask 8 2 (.ints []) [] []).refVal? 0 ≠ some (.blocks bs)) ∧
    (∀ k1 k2, (atTask 8 3 (.blocks []) [] []).refVal? 1 ≠ some (.keys k1 k2)) ∧ ∀ bs, text "A" ≠ .blocks bs :=
  ⟨fun _ _ => ready rfl, fun _ _ => ready rfl, fun _ _ => ready rfl, fun _ _ => ready rfl, by decide +kernel,
    by decide +kernel, by rintro m ⟨⟩, by rintro m k ⟨⟩, by rintro m ⟨⟩⟩

/-- InstructionsLeaveHostSide, MapsChangeOnlyByTheirCommands, ObserverListsOnlyGrow, NoControlTransfer: a
command and a micro-operation that answer a next state. -/
theorem witness_exec_next : (after (exec (.sub 0 0) State.reset) State.obs).isSome = true ∧
    (after (exec .ident (atTask 10 0 (text "q") [] [])) State.prev).isSome = true ∧
    (State.reset.obsOf 0).Nodup := by decide +kernel

/-- A state in the middle of an execution of flow 10, with no sink and no outside move. -/
def midway : State := atTask 10 1 (text "q") [(strOf "A", text "q")] []

/-- StepKeepsInvariant, ResultsOnlyGrow, NothingButTheWorldIsRefused, ExecutionTerminates, BuildNeverChanges:
a state in the middle of an execution meets the invariant, and steps. -/
theorem witness_StepKeepsInvariant : midway.Inv where
  build := by decide +kernel
  memory := { reset_memoryInv with }
  maps := ⟨by decide, by decide, .nil, .nil⟩
  reg := by
    intro e he
    have h : ∀ e ∈ builtinRegistry, e.1 ≠ [] ∧ e.1.length ≤ 15 ∧ e.2 < 10 := by decide
    have := h e he
    refine ⟨this.1, ?_, Nat.lt_trans this.2.2 (by decide)⟩
    rw [show midway.build.nameMax = 4294967295 from rfl]
    omega
  obs := by rintro e ⟨⟩
  params := by rintro e ⟨⟩
  values := ⟨rfl, rfl, by decide⟩
  step := by decide
  exec := by
    refine ⟨rfl, rfl, _, rfl, by decide, ?_⟩
    intro n
    show (mapGet [(strOf "A", text "q")] n).isSome = true ↔ n ∈ [strOf "A"]
    by_cases h : strOf "A" = n
    · simp [mapGet, h]
    · simp [mapGet, h, Ne.symm h]

theorem witness_midway_steps : (after (step midway) State.stepIdx) = some 2 ∧ midway.activity = .running [] ∧
    midway.evp = none ∧ midway.sinks = [] ∧ midway.env = [] ∧ midway.flowTasks?.isSome = true ∧
    mapGet midway.res (strOf "A") = some (text "q") := by decide +kernel

/-- ShiftIsUndone. -/
theorem witness_ShiftIsUndone : isLetter 65 = true ∧ isLetter 90 = true := by decide

/-- ClockEncryptsText: CLOCK -100 on "Hello", which then gives "LIPPS" (CA7). -/
theorem witness_ClockEncryptsText :
    let s := (withIn "Hello").accept 0x10FFFF9C
    decodeCommand 0x10FFFF9C = .ok (.clock 0xFFFF9C) ∧ s.evp = none ∧ s.env = [] ∧ buildWf s.build = true ∧
      s.obsOf 0 = [] ∧ (∀ c ∈ s.inText, isLetter (upper c) = true) ∧
      (s.inText.map fun c => chr26 (mod26 (sym (upper c) + (0xFFFF9C#24).toInt))) = strOf "LIPPS" :=
  ⟨by decide, rfl, rfl, by decide +kernel, rfl, by decide +kernel, by decide +kernel⟩

/-- CunlockUndoesClock: CUNLOCK -100 accepted on the "LIPPS" of CA7. -/
theorem witness_CunlockUndoesClock :
    let u := (withIn "LIPPS").accept 0x11FFFF9C
    decodeCommand 0x11FFFF9C = .ok (.cunlock 0xFFFF9C) ∧ u.evp = none ∧ u.env = [] ∧ buildWf u.build = true ∧
      u.obsOf 1 = [] ∧ u.inText = strOf "LIPPS" :=
  ⟨by decide, rfl, rfl, by decide +kernel, rfl, by decide +kernel⟩

end Sys2Proof.Tests
end

/-! ### The invariant: what each operation keeps (spec/10_state.md) -/

namespace Sys2Proof.Proofs

open Sys2Proof Sys2Proof.Machine

/-! #### Well-formed builds -/

theorem flowWf_of_buildWf {b : Build} (hb : buildWf b = true) {ts : List Task} (ht : ts ∈ b.tasks) :
    flowWf ts = true := by
  simp only [buildWf, Bool.and_eq_true, List.all_eq_true] at hb
  tauto

/-- The ten built-in flows are there. -/
theorem ten_le_nflows {b : Build} (hb : buildWf b = true) : 10 ≤ nflows b := by
  simp only [buildWf, Bool.and_eq_true, decide_eq_true_eq] at hb
  unfold nflows
  tauto

/-- NAMEMAX admits the built-in names. -/
theorem fifteen_le_nameMax {b : Build} (hb : buildWf b = true) : 15 ≤ b.nameMax := by
  simp only [buildWf, Bool.and_eq_true, decide_eq_true_eq] at hb
  tauto

/-- A flow of a well-formed build has at most MAXSTEPS tasks (R35). -/
theorem flowTasks_length_le {s : State} (hb : buildWf s.build = true) {ts : List Task}
    (ht : s.flowTasks? = some ts) : ts.length ≤ maxSteps := by
  have h := flowWf_of_buildWf hb (List.mem_of_getElem? ht)
  simp only [flowWf, Bool.and_eq_true, decide_eq_true_eq] at h
  exact h.1.1

/-! #### RES and the task at STEP -/

/-- The entry of the task at position `k` makes RES hold the first `k + 1` tasks. -/
theorem resHolds_mapPut {s s' : State} {ts : List Task} {t : Task} {k : Nat} {v : Value}
    (h : resHolds s ts k) (ht : ts[k]? = some t) (hr : s'.res = mapPut nameLt s.res t.name v) :
    resHolds s' ts (k + 1) := by
  intro n
  rw [hr, List.take_add_one, ht]
  by_cases hn : n = t.name
  · simp [hn, mapGet_mapPut_same]
  · simp [hn, mapGet_mapPut_other, h n]

theorem task_of_flowTasks {s : State} {ts : List Task} {t : Task} (hts : s.flowTasks? = some ts)
    (ht : s.task? = some t) : ts[s.stepIdx]? = some t := by
  simpa [State.task?, hts] using ht

/-! #### Reset -/

/-- The built-in bindings are of non-empty names of at most 15 characters to the built-in flows (R115). -/
theorem builtinRegistry_bound : ∀ e ∈ builtinRegistry, e.1 ≠ [] ∧ e.1.length ≤ 15 ∧ e.2 < 10 := by
  decide

theorem builtinRegistry_wf : mapWf nameLt builtinRegistry := by
  decide

/-- The state of R49, of any well-formed build, with any outside moves, trace and epochs. -/
theorem inv_of_reset {b : Build} (hb : buildWf b = true) (env : List EnvMove) (trace : List Delivery)
    {fresh : Nat} {inFree nameFree : List (Nat × Nat)} (hi : freeWf fresh inFree) (hn : freeWf fresh nameFree) :
    { State.reset with
      build := b, env := env, trace := trace, fresh := fresh, inFree := inFree, nameFree := nameFree }.Inv where
  build := hb
  memory :=
    { inWf := .nil, nameWf := .nil, inCells := by rintro e ⟨⟩, nameCells := by rintro e ⟨⟩
      inLen := Nat.zero_le _, nameLen := Nat.zero_le _, inFree := hi, nameFree := hn
      inHeldWf := .nil, nameHeldWf := .nil, inHeld := by rintro e ⟨⟩, nameHeld := by rintro e ⟨⟩ }
  maps := { res := .nil, reg := builtinRegistry_wf, params := .nil, obs := .nil }
  reg := fun e he =>
    have ⟨hne, hlen, hflow⟩ := builtinRegistry_bound e he
    ⟨hne, hlen.trans (fifteen_le_nameMax hb), hflow.trans_le (ten_le_nflows hb)⟩
  obs := by rintro e ⟨⟩
  params := by rintro e ⟨⟩
  values := ⟨rfl, rfl, by rintro e ⟨⟩⟩
  step := Nat.zero_le _
  exec := rfl

theorem resetNow_inv {s : State} (h : s.Inv) : s.resetNow.Inv :=
  inv_of_reset h.build s.env s.trace ⟨List.pairwise_singleton .., by simp⟩ ⟨List.pairwise_singleton .., by simp⟩

/-! #### The shared operations -/

section
variable {s : State} (h : s.Inv)
include h

/-- An idle engine has no event pending. -/
theorem evp_none_of_idle (ha : s.activity = .idle) : s.evp = none := by
  have he := h.exec
  rwa [State.ExecInv, ha] at he

/-- An accepted command finds no event pending. -/
theorem evp_none_of_command {w : BitVec 32} (ha : s.activity = .command w) : s.evp = none := by
  have he := h.exec
  rwa [State.ExecInv, ha] at he

/-- The outside world's moves are free. -/
theorem env_inv (rest : List EnvMove) : { s with env := rest }.Inv :=
  { h with memory := { h.memory with }, maps := { h.maps with } }

theorem accept_inv (w : BitVec 32) (he : s.evp = none) : (s.accept w).Inv :=
  { h with memory := { h.memory with }, maps := { h.maps with }, exec := he }

theorem complete_inv (c : Code) (e : Nat) (he : s.evp = none) : (s.complete c e).Inv :=
  { h with memory := { h.memory with }, maps := { h.maps with }, exec := he }

theorem finish_inv (he : s.evp = none) : s.finish.Inv :=
  { h with
    memory := { h.memory with }, maps := { h.maps with }, exec := he
    values := have ⟨hprev, _, hres⟩ := h.values; ⟨hprev, hprev, hres⟩ }

theorem shortCircuit_inv (he : s.evp = none) : s.shortCircuit.Inv :=
  { h with
    memory := { h.memory with }, maps := { h.maps with }, exec := he
    values := have ⟨hprev, _, hres⟩ := h.values; ⟨hprev, rfl, hres⟩ }

/-- A launch: RES is empty and no task is done. -/
theorem launch_inv {f : Nat} (m : Str) (pm : NameMap Int) (hf : f < nflows s.build) (he : s.evp = none) :
    (s.launch f (.str m) pm).Inv :=
  { h with
    memory := { h.memory with }
    maps := { h.maps with res := .nil }
    values := ⟨rfl, h.values.2.1, by rintro e ⟨⟩⟩
    step := Nat.zero_le _
    exec := by
      refine ⟨rfl, rfl, s.build.tasks[f], List.getElem?_eq_getElem hf, ?_⟩
      simp [he, resHolds, mapGet] }

/-- Observer lists stay lists of distinct sinks: a sink that is there already is not appended. -/
theorem subscribe_obsInv {f k : Nat} (hf : f < nflows s.build) (hk : k < s.build.nsinks) :
    (s.subscribe f k).ObsInv := by
  intro e he
  simp only [State.subscribe] at he
  split at he
  · exact h.obs e he
  · rename_i hnew
    rcases mem_mapPut he with rfl | he
    · refine ⟨hf, by simp, ?_⟩
      cases hg : mapGet s.obs f with
      | none => simpa [State.obsOf, hg] using hk
      | some l =>
        obtain ⟨-, -, hnd, hlt⟩ := h.obs _ (mapGet_some_mem hg)
        simp only [State.obsOf, hg, Option.getD_some] at hnew ⊢
        refine ⟨List.nodup_append_comm.1 (hnd.cons hnew), fun x hx => ?_⟩
        rcases List.mem_append.1 hx with hx | hx
        · exact hlt x hx
        · exact List.mem_singleton.1 hx ▸ hk
    · exact h.obs e he

theorem subscribe_succeed_inv {f k : Nat} (hf : f < nflows s.build) (hk : k < s.build.nsinks)
    (he : s.evp = none) : (s.subscribe f k).succeed.Inv :=
  { h with
    memory := { h.memory with }
    maps :=
      { h.maps with
        obs := by
          show mapWf idxLt (if k ∈ s.obsOf f then _ else _)
          split
          · exact h.maps.obs
          · exact natMap_put_wf _ _ h.maps.obs }
    obs := subscribe_obsInv h hf hk
    exec := he }

/-- The name in NAME has at most NAMEMAX characters (R41). -/
theorem nameText_length_le : s.nameText.length ≤ s.build.nameMax := by
  simpa [State.nameText, memRead] using h.memory.nameLen

theorem bind_inv {f : Nat} (hn : s.nameText ≠ []) (hf : f < nflows s.build) (he : s.evp = none) :
    { s with reg := mapPut nameLt s.reg s.nameText f }.succeed.Inv :=
  { h with
    memory := { h.memory with }
    maps := { h.maps with reg := nameMap_put_wf _ _ h.maps.reg }
    reg := by
      intro e hmem
      rcases mem_mapPut hmem with rfl | hmem
      · exact ⟨hn, nameText_length_le h, hf⟩
      · exact h.reg e hmem
    exec := he }

theorem unbind_inv (he : s.evp = none) : { s with reg := mapDel s.reg s.nameText }.succeed.Inv :=
  { h with
    memory := { h.memory with }
    maps := { h.maps with reg := mapWf_mapDel _ h.maps.reg }
    reg := fun e hmem => h.reg e (List.mem_filter.1 hmem).1
    exec := he }

theorem pset_inv (imm : BitVec 24) (he : s.evp = none) :
    { s with params := mapPut nameLt s.params s.nameText imm.toInt }.succeed.Inv :=
  { h with
    memory := { h.memory with }
    maps := { h.maps with params := nameMap_put_wf _ _ h.maps.params }
    params := by
      intro e hmem
      rcases mem_mapPut hmem with rfl | hmem
      · have h₁ := BitVec.le_toInt imm
        have h₂ := BitVec.toInt_lt (x := imm)
        exact ⟨by simpa using h₁, by simpa using Int.le_sub_one_of_lt h₂⟩
      · exact h.params e hmem
    exec := he }

theorem pclr_inv (he : s.evp = none) : { s with params := [] }.succeed.Inv :=
  { h with
    memory := { h.memory with }
    maps := { h.maps with params := .nil }
    params := by rintro e ⟨⟩
    exec := he }

/-- During an execution with no event pending, RES holds the tasks before STEP. -/
theorem exec_of_no_event {pm : NameMap Int} (ha : s.activity = .running pm) (he : s.evp = none) :
    s.flow.valid = true ∧ s.ovalid = false ∧
      ∃ ts, s.flowTasks? = some ts ∧ s.stepIdx ≤ ts.length ∧ resHolds s ts s.stepIdx := by
  have hx := h.exec
  rwa [State.ExecInv, ha, he] at hx

/-- A pending event is of the task at STEP, in an execution. -/
theorem exec_of_event {p : PendingEvent} (he : s.evp = some p) :
    ∃ pm, s.activity = .running pm ∧ s.flow.valid = true ∧ s.ovalid = false ∧
      ∃ ts, s.flowTasks? = some ts ∧ p.next < s.sinks.length ∧ resHolds s ts (s.stepIdx + 1) ∧
        ∃ t, ts[s.stepIdx]? = some t ∧ p.event = ⟨t.name, t.description, s.prev, s.res⟩ := by
  have hx := h.exec
  unfold State.ExecInv at hx
  split at hx
  · cases hx.symm.trans he
  · cases hx.symm.trans he
  · rename_i pm ha
    rw [he] at hx
    exact ⟨pm, ha, hx⟩

/-- The end of a task: RES gets the task's entry, and the event of the task at STEP is offered to the first
sink, or with no sink STEP advances within the flow. -/
theorem publish_inv {t : Task} {pm : NameMap Int} {v : Value} (hr : TaskReady s t pm) (hv : v.wf = true) :
    (s.publish t v).Inv := by
  obtain ⟨hvalid, hov, ts, hts, -, hres⟩ := exec_of_no_event h hr.running hr.noEvent
  have ht : ts[s.stepIdx]? = some t := task_of_flowTasks hts hr.task
  have hlt : s.stepIdx < ts.length := (List.getElem?_eq_some_iff.1 ht).1
  have hmax : ts.length ≤ maxSteps := flowTasks_length_le h.build hts
  have hres' : resHolds (s.publish t v) ts (s.stepIdx + 1) := resHolds_mapPut hres ht rfl
  refine
    { h with
      memory := { h.memory with }
      maps := { h.maps with res := nameMap_put_wf _ _ h.maps.res }
      values := ⟨hv, h.values.2.1, fun e he => ?_⟩
      step := ?_
      exec := ?_ }
  · rcases mem_mapPut he with rfl | he
    · exact hv
    · exact h.values.2.2 e he
  · rw [publish_stepIdx]
    split <;> omega
  · rw [State.ExecInv, publish_activity, hr.running]
    refine ⟨hvalid, hov, ts, hts, ?_⟩
    rw [publish_evp, publish_stepIdx]
    cases hs : s.sinks.isEmpty
    · have hpos : 0 < s.sinks.length := by simpa [List.length_pos_iff] using hs
      exact ⟨hpos, hres', t, ht, rfl⟩
    · exact ⟨hlt, hres'⟩

/-- An acceptance: the next sink is offered the same event, or STEP advances past the task. -/
theorem deliver_inv {k : Nat} {p : PendingEvent} (he : s.evp = some p) : (s.deliver k p).Inv := by
  obtain ⟨pm, ha, hvalid, hov, ts, hts, -, hres, t, ht, hev⟩ := exec_of_event h he
  have hlt : s.stepIdx < ts.length := (List.getElem?_eq_some_iff.1 ht).1
  have hmax : ts.length ≤ maxSteps := flowTasks_length_le h.build hts
  refine { h with memory := { h.memory with }, maps := { h.maps with }, step := ?_, exec := ?_ }
  · rw [deliver_stepIdx]
    split <;> omega
  · rw [State.ExecInv, deliver_activity, ha]
    refine ⟨hvalid, hov, ts, hts, ?_⟩
    rw [deliver_evp, deliver_stepIdx]
    by_cases hn : p.next + 1 < s.sinks.length
    · rw [if_pos hn, if_pos hn]
      exact ⟨hn, hres, t, ht, hev⟩
    · rw [if_neg hn, if_neg hn]
      exact ⟨hlt, hres⟩

/-! #### The host's writes -/

theorem memWrite_inv {sp : Space} {i : Nat} {m : Str} (hi : i + m.length ≤ (s.len sp).toNat) :
    (memWrite s sp i m).Inv :=
  { h with memory := memoryInv_memWrite h.memory hi, maps := { h.maps with } }

theorem setCell_inv {sp : Space} {i : Nat} (c : Byte) (hi : i < (s.len sp).toNat) : (s.setCell sp i c).Inv :=
  memWrite_inv h (m := [c]) hi

theorem hold_inv {sp : Space} {i : Nat} (c : Byte) (hl : (s.len sp).toNat ≤ i) (hi : i < s.cap sp) :
    (s.hold sp i c).Inv :=
  { h with memory := memoryInv_hold c h.memory hl hi, maps := { h.maps with } }

theorem setLen_inv {sp : Space} {n : BitVec 32} (hn : n.toNat ≤ s.cap sp) : (s.setLen sp n).Inv :=
  { h with memory := memoryInv_setLen h.memory hn, maps := { h.maps with } }

theorem setText_inv {sp : Space} {m : Str} (hm : m.length ≤ s.cap sp) (hs : m.length < 2 ^ 32) :
    (s.setText sp m).Inv :=
  { h with memory := memoryInv_setText h.memory hm hs, maps := { h.maps with } }

/-! #### Instructions and steps -/

/-- Every command keeps the invariant. -/
theorem exec_command_inv {i : Instr} {s' : State} (hi : i.isCommand = true) (he : s.evp = none)
    (hx : exec i s = .next s') : s'.Inv := by
  rcases exec_command_cases hi hx with ⟨c, -, rfl⟩ | ⟨f, k, hf, hk, rfl⟩ | ⟨f, -, hn, hf, rfl⟩ | ⟨-, rfl⟩ |
    ⟨imm, -, rfl⟩ | ⟨-, rfl⟩ | rfl | ⟨f, pm, hf, rfl⟩
  · exact complete_inv h c 0 he
  · have hflow : f < nflows s.build := by
      rcases hf with ⟨g, -, -, hf⟩ | ⟨-, hf⟩
      · exact hf
      · exact (h.reg _ (mapGet_some_mem hf)).2.2
    exact subscribe_succeed_inv h hflow hk he
  · exact bind_inv h hn hf he
  · exact unbind_inv h he
  · exact pset_inv h imm he
  · exact pclr_inv h he
  · exact shortCircuit_inv h he
  · have hten := ten_le_nflows h.build
    exact launch_inv h _ pm (by omega) he

/-- Every micro-operation keeps the invariant. -/
theorem exec_uop_inv {i : Instr} {s' : State} (hi : i.isCommand = false) (hx : exec i s = .next s') : s'.Inv := by
  obtain ⟨t, pm, hr, ⟨v, rfl, hv⟩ | ⟨c, -, rfl⟩⟩ := exec_uop_cases hi hx
  · exact publish_inv h hr (hv h.values)
  · exact complete_inv h c _ hr.noEvent

/-- The engine's own step keeps the invariant. -/
theorem engineMove_inv {s' : State} (hm : EngineMove s s') : s'.Inv := by
  cases hm with
  | stay _ e => exact e ▸ h
  | illegal w ha _ e => exact e ▸ complete_inv h _ _ (evp_none_of_command h ha)
  | command w i ha _ hi e => exact exec_command_inv h hi (evp_none_of_command h ha) e
  | task i hi e => exact exec_uop_inv h hi e
  | finish pm ts _ he _ _ e => exact e ▸ finish_inv h he

/-- Every step keeps the invariant. -/
theorem stepMove_inv {s' : State} (hm : StepMove s s') : s'.Inv := by
  cases hm with
  | engine hm => exact engineMove_inv h hm
  | waited rest _ hm => exact engineMove_inv (env_inv h rest) hm
  | reset rest _ e => exact e ▸ resetNow_inv (env_inv h rest)
  | accept rest _ k p hp _ e => exact e ▸ deliver_inv (env_inv h rest) hp
  | cell rest sp i c _ hi e => exact e ▸ setCell_inv (env_inv h rest) c hi
  | hold rest sp i c _ hl hi e => exact e ▸ hold_inv (env_inv h rest) c hl hi
  | len rest sp n _ hn e => exact e ▸ setLen_inv (env_inv h rest) hn
  | text rest sp m _ hm hs e => exact e ▸ setText_inv (env_inv h rest) hm hs
  | cmd rest w hb e => exact e ▸ accept_inv (env_inv h rest) w (evp_none_of_idle (env_inv h rest) hb)

end

/-- Settles O52: every move that `step_cases` lists keeps the invariant. -/
theorem stepKeepsInvariant : Obligations.StepKeepsInvariant :=
  fun _ _ h hs => stepMove_inv h (step_cases hs)

/-- Settles O51: reset of the reference build is the state of R49. -/
theorem invariantAtReset : Obligations.InvariantAtReset :=
  inv_of_reset (b := Build.reference) (by decide +kernel) [] [] ⟨.nil, by simp⟩ ⟨.nil, by simp⟩

end Sys2Proof.Proofs

/-! ### Micro-operations: from a function of the operands to what the instruction does -/

namespace Sys2Proof.Proofs

open Sys2Proof Sys2Proof.Machine

/-- A micro-operation whose function returns ends its task with the value. -/
theorem returns_of_ok {i : Instr} {u : Operands → Except Code Value} {ref : Option (BitVec 4)} {s : State} {t : Task}
    {pm : NameMap Int} {v : Value} (hx : exec i s = runTask u ref s) (h : TaskReady s t pm)
    (hu : u (operandsOf s t pm ref) = .ok v) : Returns i s t v :=
  ⟨_, hx.trans (runTask_ok h hu), publish_done s t v⟩

/-- A micro-operation whose function raises ends the execution with the code. -/
theorem raisesInTaskAs_of_error {i : Instr} {u : Operands → Except Code Value} {ref : Option (BitVec 4)} {s : State}
    {t : Task} {pm : NameMap Int} {c : Code} (hx : exec i s = runTask u ref s) (h : TaskReady s t pm)
    (hc : c ≠ .ok) (hu : u (operandsOf s t pm ref) = .error c) : RaisesInTaskAs i s c c.num :=
  have hr := raise_raised s s.stepIdx hc
  ⟨_, hx.trans (runTask_error h hu), hr, completedAs_of_completed hr.completed⟩

/-! #### Operands that lack the shape -/

theorem asStr_typeError {v : Value} (h : ∀ m, v ≠ .str m) : asStr v = .error .typeError := asStr_error.2 ⟨rfl, h⟩

theorem asBlocks_typeError {v : Value} (h : ∀ bs, v ≠ .blocks bs) : asBlocks v = .error .typeError :=
  asBlocks_error.2 ⟨rfl, h⟩

/-- A RES entry that is missing or no list of blocks. -/
theorem present_asBlocks_typeError {α : Type} {o : Option Value} (h : ∀ bs, o ≠ some (.blocks bs))
    (f : List (BitVec 8) → Except Code α) : (present o >>= fun v => asBlocks v >>= f) = .error .typeError := by
  cases o with
  | none => rfl
  | some v =>
    have hv := asBlocks_typeError fun bs e => h bs (congrArg some e)
    exact (except_bind_error ..).2 (.inr ⟨v, rfl, (except_bind_error ..).2 (.inl hv)⟩)

/-- A RES entry that is missing or no pair of subkeys. -/
theorem present_asKeys_typeError {α : Type} {o : Option Value} (h : ∀ k1 k2, o ≠ some (.keys k1 k2))
    (f : BitVec 8 × BitVec 8 → Except Code α) : (present o >>= fun v => asKeys v >>= f) = .error .typeError := by
  cases o with
  | none => rfl
  | some v =>
    have hv : asKeys v = .error .typeError := asKeys_error.2 ⟨rfl, fun k1 k2 e => h k1 k2 (congrArg some e)⟩
    exact (except_bind_error ..).2 (.inr ⟨v, rfl, (except_bind_error ..).2 (.inl hv)⟩)

/-! ### UPPER and VFIX (spec/41_caesar.md R153, spec/42_vigenere.md R173) -/

/-- `upper` in codes (R12). -/
theorem upper_toNat (c : Byte) :
    (upper c).toNat = if 97 ≤ c.toNat ∧ c.toNat ≤ 122 then c.toNat - 32 else c.toNat := by
  unfold upper
  split
  · rw [BitVec.toNat_ofNat]
    omega
  · rfl

/-- Settles O25: UPPER maps `upper` over the string. -/
theorem upperFoldsLetters : Obligations.UpperFoldsLetters := by
  refine ⟨by decide, fun s t pm h => ⟨fun m hp => ⟨m.map upper, by simp, fun j _ _ => ?_, ?_⟩, fun hp => ?_⟩⟩
  · rw [List.getElem_map, upper_toNat]
  · refine returns_of_ok (u := uopUpper) (ref := none) rfl h ?_
    simp [uopUpper, operandsOf, except_bind_ok, asStr_ok, hp]
  · refine raisesInTaskAs_of_error (u := uopUpper) (ref := none) rfl h (by decide) ?_
    exact (except_bind_error ..).2 (.inl (asStr_typeError hp))

/-- Stripping whitespace keeps the codes that are not of R15. -/
theorem strip_eq (m : Str) :
    strip m = (m.map upper).filter fun c => decide (c.toNat ∉ [9, 10, 11, 12, 13, 32]) := by
  simp [strip, isWs]

theorem all_isLetter_iff (m : Str) : m.all isLetter = true ↔ ∀ c ∈ m, 65 ≤ c.toNat ∧ c.toNat ≤ 90 := by
  simp [isLetter_iff]

/-- VFIX on a string is `symbols` of what is left of it. -/
theorem uopVfix_str {o : Operands} {m : Str} (h : o.prev = .str m) :
    uopVfix o = symbols (strip m) >>= fun vs => .ok (.ints vs) := by
  rw [uopVfix, asStr_ok.2 h]
  rfl

/-- Settles O29: VFIX takes the symbols of the stripped string, or raises where it has another character. -/
theorem vfixStripsAndMaps : Obligations.VfixStripsAndMaps := by
  refine ⟨by decide, fun s t pm h => ⟨fun m hp => ?_, fun hp => ?_⟩⟩
  · rw [← strip_eq]
    refine ⟨fun hall => ?_, fun ⟨c, hc, hout⟩ => ?_⟩
    · refine returns_of_ok (u := uopVfix) (ref := none) rfl h ?_
      rw [uopVfix_str hp, symbols_ok.2 ⟨(all_isLetter_iff _).2 hall, rfl⟩]
      rfl
    · refine raisesInTaskAs_of_error (u := uopVfix) (ref := none) rfl h (by decide) ?_
      have hno : (strip m).all isLetter = false := by
        rw [Bool.eq_false_iff, Ne, all_isLetter_iff]
        intro hall
        have := hall c hc
        omega
      rw [uopVfix_str hp, symbols_error.2 ⟨rfl, hno⟩]
      rfl
  · refine raisesInTaskAs_of_error (u := uopVfix) (ref := none) rfl h (by decide) ?_
    exact (except_bind_error ..).2 (.inl (asStr_typeError hp))

end Sys2Proof.Proofs

/-! ### S-DES, bit by bit (spec/45_sdes.md) -/

namespace Sys2Proof.Proofs

open Sys2Proof Sys2Proof.Machine

/-- Output position `j` takes the input bit at the table's entry `j` (R16). -/
theorem permBits_getMsb {n m : Nat} (b : BitVec n) (t : Table n m) (j : Fin m) :
    (permBits b t).getMsb j = b.getMsb t[j] := by
  rw [permBits, BitVec.getMsb_ofFnBE]

theorem permBits_getMsbD {n m : Nat} (b : BitVec n) (t : Table n m) (j : Nat) :
    (permBits b t).getMsbD j = (t.toList[j]?.map fun q => b.getMsb q).getD false := by
  rw [permBits, BitVec.getMsbD_ofFnBE]
  by_cases hj : j < m
  · simp [hj]
  · simp [hj]

/-- Applying a permutation table to every block relates input and output position by position. -/
theorem forall₂_map_permBits (t : Table 8 8) (bs : List (BitVec 8)) :
    List.Forall₂ (fun b c => ∀ j : Fin 8, c.getMsb j = b.getMsb t[j]) bs (bs.map fun b => permBits b t) := by
  rw [List.forall₂_map_right_iff, List.forall₂_same]
  exact fun b _ j => permBits_getMsb b t j

/-- Settles O42: SIP and SRIP map `permBits` over the blocks. -/
theorem sdesPermutes : Obligations.SdesPermutes := by
  refine ⟨by decide, by decide, fun s t pm r h => ⟨fun bs hr => ?_, fun hr => ?_, fun bs hp => ?_, fun hp => ?_⟩⟩
  · refine ⟨_, forall₂_map_permBits _ bs, returns_of_ok (u := uopSip) (ref := some r) rfl h ?_⟩
    simp [uopSip, operandsOf, except_bind_ok, present_ok, asBlocks_ok, hr]
  · refine raisesInTaskAs_of_error (u := uopSip) (ref := some r) rfl h (by decide) ?_
    exact present_asBlocks_typeError hr _
  · refine ⟨_, forall₂_map_permBits _ bs, returns_of_ok (u := uopSrip) (ref := none) rfl h ?_⟩
    simp [uopSrip, operandsOf, except_bind_ok, asBlocks_ok, hp]
  · refine raisesInTaskAs_of_error (u := uopSrip) (ref := none) rfl h (by decide) ?_
    exact (except_bind_error ..).2 (.inl (asBlocks_typeError hp))

/-! #### SKEYS -/

theorem getMsb_eq_getMsbD {n : Nat} (b : BitVec n) (j : Fin n) : b.getMsb j = b.getMsbD j := by
  simp [BitVec.getMsb, BitVec.getMsbD, BitVec.getLsbD, BitVec.getLsb]

/-- The position in 10 bits that position `p` holds once both halves are rotated left by `n`. -/
def rotatedSource (p n : Nat) : Nat := if p < 5 then (p + n) % 5 else 5 + (p - 5 + n) % 5

/-- Bit `p` of a rotated half is bit `p + n` (mod 5) of the half. -/
theorem rotated_halves_getMsbD (b : BitVec 10) (n : Nat) (p : Fin 10) :
    ((b.extractLsb' 5 5).rotateLeft n ++ (b.extractLsb' 0 5).rotateLeft n).getMsbD p.val =
      b.getMsbD (rotatedSource p.val n) := by
  have hp := p.isLt
  rw [BitVec.getMsbD_append, rotatedSource]
  by_cases h : p.val < 5
  · have hq : (p.val + n) % 5 < 5 := Nat.mod_lt _ (by decide)
    rw [if_neg (by omega), if_pos h, BitVec.getMsbD_rotateLeft, BitVec.getMsbD_extractLsb', Nat.add_comm n]
    have hi : 10 - (5 + 5 - (p.val + n) % 5) = (p.val + n) % 5 := by omega
    simp [h, hq, hi]
  · have hq : (p.val - 5 + n) % 5 < 5 := Nat.mod_lt _ (by decide)
    rw [if_pos (by omega), if_neg h, BitVec.getMsbD_rotateLeft, BitVec.getMsbD_extractLsb', Nat.add_comm n]
    have hi : 10 - (5 - (p.val - 5 + n) % 5) = 5 + (p.val - 5 + n) % 5 := by omega
    have hlt : p.val - 5 < 5 := by omega
    have hle : 5 - (p.val - 5 + n) % 5 ≤ 10 := by omega
    simp [hq, hi, hlt, hle]

/-- Rotating by one twice is rotating by two. -/
theorem rotl1_rotl1 (x : BitVec 5) : rotl1 (rotl1 x) = x.rotateLeft 2 := by
  revert x
  decide

/-- The subkey made with the halves rotated by `n`. -/
def subkey (c : Cfg) (n : Nat) : BitVec 8 :=
  let p := permBits c.sdesKey c.p10
  permBits ((p.extractLsb' 5 5).rotateLeft n ++ (p.extractLsb' 0 5).rotateLeft n) c.p8

/-- R246: the first subkey rotates by one, the second by one more. -/
theorem keySched_eq (c : Cfg) : keySched c = (subkey c 1, subkey c 2) := by
  simp only [keySched, rotl1_rotl1]
  rfl

theorem subkey_getMsb (c : Cfg) (n : Nat) (j : Fin 8) : (subkey c n).getMsb j =
    (c.p10.toList[rotatedSource (c.p8[j]).val n]?.map fun q => c.sdesKey.getMsb q).getD false := by
  rw [subkey, permBits_getMsb, getMsb_eq_getMsbD, rotated_halves_getMsbD, permBits_getMsbD]

/-- Settles O41: both subkeys are P8 of the rotated halves of P10 of the key. -/
theorem skeysDerivesSubkeys : Obligations.SkeysDerivesSubkeys := by
  refine ⟨by decide, fun s t pm h => ⟨subkey s.build.cfg 1, subkey s.build.cfg 2, ?_, fun j => ?_⟩⟩
  · refine returns_of_ok (u := uopSkeys) (ref := none) rfl h ?_
    rw [uopSkeys, keySched_eq]
    rfl
  · exact ⟨subkey_getMsb _ 1 j, subkey_getMsb _ 2 j⟩

/-! #### SFK1 and SFK2 -/

theorem leftHalf_getMsbD (b : BitVec 8) {j : Nat} (hj : j < 4) : (leftHalf b).getMsbD j = b.getMsbD j := by
  have hi : 8 - (4 + 4 - j) = j := by omega
  rw [leftHalf, BitVec.getMsbD_extractLsb', hi]
  simp [hj]

theorem rightHalf_getMsbD (b : BitVec 8) {j : Nat} (hj : j < 4) : (rightHalf b).getMsbD j = b.getMsbD (4 + j) := by
  have hi : 8 - (0 + 4 - j) = 4 + j := by omega
  have hle : 0 + 4 - j ≤ 8 := by omega
  rw [rightHalf, BitVec.getMsbD_extractLsb', hi]
  simp [hj, hle]

/-- Position `j` of the right half expanded by EP, xor the subkey, as 0 or 1. -/
def expandedBit (c : Cfg) (k b : BitVec 8) (j : Nat) : Nat :=
  ((c.ep.toList[j]?.map fun p => b.getMsbD (4 + p.val) ^^ k.getMsbD j).getD false).toNat

theorem expandedBit_eq (c : Cfg) (k b : BitVec 8) (j : Nat) :
    expandedBit c k b j = ((permBits (rightHalf b) c.ep ^^^ k).getMsbD j).toNat := by
  rw [expandedBit, BitVec.getMsbD_xor, permBits_getMsbD]
  by_cases hj : j < 8
  · simp [hj, getMsb_eq_getMsbD, rightHalf_getMsbD]
  · simp [hj, BitVec.getMsbD_of_ge k j (Nat.le_of_not_lt hj)]

/-- The S-box cell that the four bits `x n` to `x (n + 3)` select. -/
def boxCell (x : Nat → Nat) (sb : SBox) (n : Nat) : Nat :=
  ((sb.toList[2 * x n + x (n + 3)]?.bind fun r => r.toList[2 * x (n + 1) + x (n + 2)]?).map Fin.val).getD 0

/-- The S-box output is the selected cell, which is 0 to 3, in two bits (R249). -/
theorem sboxOut_eq {x : Nat → Nat} {n : Nat} {a : BitVec 4} (h : ∀ j < 4, x (n + j) = (a.getMsbD j).toNat)
    (sb : SBox) : ∃ v : Fin 4, boxCell x sb n = v.val ∧ sboxOut sb a = BitVec.ofNat 2 v.val := by
  have hbit (i : Nat) : (a.getMsbD i).toNat ≤ 1 := Bool.toNat_le _
  have hr : 2 * (a.getMsbD 0).toNat + (a.getMsbD 3).toNat < 4 := by have := hbit 0; have := hbit 3; omega
  have hc : 2 * (a.getMsbD 1).toNat + (a.getMsbD 2).toNat < 4 := by have := hbit 1; have := hbit 2; omega
  refine ⟨_, ?_, rfl⟩
  have h0 := h 0 (by decide)
  rw [Nat.add_zero] at h0
  rw [boxCell, h0, h 1 (by decide), h 2 (by decide), h 3 (by decide)]
  simp [hr, hc, Nat.mod_eq_of_lt]

/-- The bits of the four positions before P4. -/
def boxBits (c : Cfg) (x : Nat → Nat) : List Nat :=
  [boxCell x c.s0 0 / 2, boxCell x c.s0 0 % 2, boxCell x c.s1 4 / 2, boxCell x c.s1 4 % 2]

/-- Two cells of two bits side by side, bit by bit. -/
theorem cells_append_getMsb (v w q : Fin 4) : (BitVec.ofNat 2 v.val ++ BitVec.ofNat 2 w.val).getMsb q =
    ([v.val / 2, v.val % 2, w.val / 2, w.val % 2][q.val]? == some 1) := by
  revert v w q
  decide

theorem roundBits_getMsb (c : Cfg) (k b : BitVec 8) (j : Fin 4) : (roundBits c (rightHalf b) k).getMsb j =
    ((boxBits c (expandedBit c k b))[(c.p4[j]).val]? == some 1) := by
  obtain ⟨v, hv, hv'⟩ := sboxOut_eq (x := expandedBit c k b) (n := 0)
    (a := leftHalf (permBits (rightHalf b) c.ep ^^^ k))
    (fun j hj => by rw [expandedBit_eq, leftHalf_getMsbD _ hj, Nat.zero_add]) c.s0
  obtain ⟨w, hw, hw'⟩ := sboxOut_eq (x := expandedBit c k b) (n := 4)
    (a := rightHalf (permBits (rightHalf b) c.ep ^^^ k))
    (fun j hj => by rw [expandedBit_eq, rightHalf_getMsbD _ hj]) c.s1
  rw [roundBits, permBits_getMsb, hv', hw', cells_append_getMsb, boxBits, hv, hw]

/-- R249 bit by bit: the right half stays, and the round's bits are xored into the left half. -/
theorem fK_getMsbD (c : Cfg) (k b : BitVec 8) (j : Fin 4) :
    (fK c k b).getMsbD (4 + j.val) = b.getMsbD (4 + j.val) ∧
    (fK c k b).getMsbD j.val =
      ((boxBits c (expandedBit c k b))[(c.p4[j]).val]? == some 1 ^^ b.getMsbD j.val) := by
  have hj := j.isLt
  rw [fK, BitVec.getMsbD_append, BitVec.getMsbD_append]
  constructor
  · rw [if_pos (by omega), Nat.add_sub_cancel_left, rightHalf_getMsbD _ hj]
  · rw [if_neg (by omega), BitVec.getMsbD_xor, leftHalf_getMsbD _ hj, ← getMsb_eq_getMsbD, roundBits_getMsb]

/-- SFK1 and SFK2 need blocks in PREV and subkeys in RES. -/
theorem blocks_keys_typeError {α : Type} {o : Operands}
    (h : (∀ bs, o.prev ≠ .blocks bs) ∨ ∀ k1 k2, o.refval ≠ some (.keys k1 k2))
    (f : List (BitVec 8) → BitVec 8 × BitVec 8 → Except Code α) :
    (asBlocks o.prev >>= fun bs => present o.refval >>= fun v => asKeys v >>= f bs) = .error .typeError := by
  rcases h with h | h
  · exact (except_bind_error ..).2 (.inl (asBlocks_typeError h))
  · cases hp : asBlocks o.prev with
    | error c => exact congrArg _ (asBlocks_error.1 hp).1
    | ok bs => exact present_asKeys_typeError h (f bs)

/-- Settles O43: SFK1 and SFK2 map `fK` over the blocks. -/
theorem sdesRounds : Obligations.SdesRounds := by
  refine ⟨by decide, fun s t pm r h => ⟨fun bs k1 k2 i k hp hr hik => ?_, fun hbad => ?_⟩⟩
  · refine ⟨bs.map (fK s.build.cfg k), ?_, ?_⟩
    · rcases hik with ⟨rfl, rfl⟩ | ⟨rfl, rfl⟩
      · refine returns_of_ok (u := uopSfk1) (ref := some r) rfl h ?_
        simp [uopSfk1, operandsOf, except_bind_ok, asBlocks_ok, present_ok, asKeys_ok, hp, hr]
      · refine returns_of_ok (u := uopSfk2) (ref := some r) rfl h ?_
        simp [uopSfk2, operandsOf, except_bind_ok, asBlocks_ok, present_ok, asKeys_ok, hp, hr]
    · rw [List.forall₂_map_right_iff, List.forall₂_same]
      exact fun b _ j => fK_getMsbD s.build.cfg k b j
  · have huop (f) := blocks_keys_typeError (α := Value) (o := operandsOf s t pm (some r)) hbad f
    exact ⟨raisesInTaskAs_of_error (u := uopSfk1) (ref := some r) rfl h (by decide) (huop _),
      raisesInTaskAs_of_error (u := uopSfk2) (ref := some r) rfl h (by decide) (huop _)⟩

end Sys2Proof.Proofs

/-! ### What an instruction changes and what it leaves (spec/10_state.md R25, R34 to R38, R44) -/

namespace Sys2Proof.Proofs

open Sys2Proof Sys2Proof.Machine

/-- Settles O45: a micro-operation publishes or raises, and a command updates no field of the host's side. -/
theorem instructionsLeaveHostSide : Obligations.InstructionsLeaveHostSide := by
  intro i s s' h
  cases hi : i.isCommand
  · obtain ⟨t, pm, -, ⟨v, rfl, -⟩ | ⟨c, -, rfl⟩⟩ := exec_uop_cases hi h
    · exact (publish_done s t v).rest
    · exact (complete_completed s c _).rest
  · rcases exec_command_cases hi h with ⟨c, -, rfl⟩ | ⟨f, k, -, -, rfl⟩ | ⟨f, -, -, -, rfl⟩ | ⟨-, rfl⟩ | ⟨imm, -, rfl⟩ |
      ⟨-, rfl⟩ | rfl | ⟨f, pm, -, rfl⟩
    all_goals exact ⟨rfl, cell_congr rfl rfl rfl rfl, rfl, rfl, rfl, rfl, rfl, rfl, rfl, rfl, rfl, rfl, rfl⟩

/-- Settles O46: among the updates that instructions make, only those of FADD and FREM write REG and only those of
PSET and PCLR write PARAMS. -/
theorem mapsChangeOnlyByTheirCommands : Obligations.MapsChangeOnlyByTheirCommands := by
  intro i s s' h
  cases hi : i.isCommand
  · obtain ⟨t, pm, -, ⟨v, rfl, -⟩ | ⟨c, -, rfl⟩⟩ := exec_uop_cases hi h
    · exact ⟨fun _ _ => rfl, fun _ _ => rfl⟩
    · exact ⟨fun _ _ => rfl, fun _ _ => rfl⟩
  · rcases exec_command_cases hi h with ⟨c, -, rfl⟩ | ⟨f, k, -, -, rfl⟩ | ⟨f, hf, -, -, rfl⟩ | ⟨hfrem, rfl⟩ |
      ⟨imm, himm, rfl⟩ | ⟨hpclr, rfl⟩ | rfl | ⟨f, pm, -, rfl⟩
    case inr.inr.inl => -- FADD
      exact ⟨fun hno _ => absurd hf (hno f), fun _ _ => rfl⟩
    case inr.inr.inr.inl => -- FREM
      exact ⟨fun _ hno => absurd hfrem hno, fun _ _ => rfl⟩
    case inr.inr.inr.inr.inl => -- PSET
      exact ⟨fun _ _ => rfl, fun hno _ => absurd himm (hno imm)⟩
    case inr.inr.inr.inr.inr.inl => -- PCLR
      exact ⟨fun _ _ => rfl, fun _ hno => absurd hpclr hno⟩
    all_goals exact ⟨fun _ _ => rfl, fun _ _ => rfl⟩

/-! #### Observer lists (R37, R110) -/

theorem obsOf_congr {s s' : State} (h : s'.obs = s.obs) (g : Nat) : s'.obsOf g = s.obsOf g := by
  rw [State.obsOf, h, State.obsOf]

/-- `subscribe` appends to the list of its flow a sink that is new there, and leaves every other list. -/
theorem subscribe_obsOf (s : State) (f k g : Nat) :
    (s.subscribe f k).obsOf g = if g = f ∧ k ∉ s.obsOf f then s.obsOf f ++ [k] else s.obsOf g := by
  by_cases hk : k ∈ s.obsOf f
  · rw [if_neg (fun h => h.2 hk)]
    exact obsOf_congr (by simp [hk]) g
  · have hobs : (s.subscribe f k).obs = mapPut idxLt s.obs f (s.obsOf f ++ [k]) := by simp [hk]
    rw [State.obsOf, hobs]
    by_cases hg : g = f
    · rw [if_pos ⟨hg, hk⟩, hg, mapGet_mapPut_same, Option.getD_some]
    · rw [if_neg (fun h => hg h.1), mapGet_mapPut_other _ _ _ hg, State.obsOf]

/-- What an instruction does to the observer lists: nothing, or, if it is SUB or FSUB, what `subscribe` does. -/
theorem exec_obs_cases {i : Instr} {s s' : State} (h : exec i s = .next s') :
    s'.obs = s.obs ∨ ∃ f k, ((∃ g j, i = .sub g j) ∨ ∃ j, i = .fsub j) ∧ s'.obs = (s.subscribe f k).obs := by
  cases hi : i.isCommand
  · obtain ⟨t, pm, -, ⟨v, rfl, -⟩ | ⟨c, -, rfl⟩⟩ := exec_uop_cases hi h
    · exact .inl rfl
    · exact .inl rfl
  · rcases exec_command_cases hi h with ⟨c, -, rfl⟩ | ⟨f, k, hf, -, rfl⟩ | ⟨f, -, -, -, rfl⟩ | ⟨-, rfl⟩ | ⟨imm, -, rfl⟩ |
      ⟨-, rfl⟩ | rfl | ⟨f, pm, -, rfl⟩
    case inr.inl => -- SUB, FSUB
      exact .inr ⟨f, k, hf.imp (fun ⟨g, hg, _⟩ => ⟨g, _, hg⟩) (fun ⟨hg, _⟩ => ⟨_, hg⟩), rfl⟩
    all_goals exact .inl rfl

/-- Settles O47: the one update of an observer list is `subscribe`, which appends a sink only if it is new. -/
theorem observerListsOnlyGrow : Obligations.ObserverListsOnlyGrow := by
  intro i s s' h
  rcases exec_obs_cases h with hobs | ⟨f, k, hi, hobs⟩
  · refine ⟨fun _ _ => hobs, fun g => ⟨[], by simp, ?_, ?_⟩⟩
    · rw [obsOf_congr hobs, List.append_nil]
    · rw [obsOf_congr hobs]
      exact id
  · refine ⟨fun hsub hfsub => ?_, fun g => ?_⟩
    · rcases hi with ⟨g, j, hi⟩ | ⟨j, hi⟩
      · exact absurd hi (hsub g j)
      · exact absurd hi (hfsub j)
    · have hg : s'.obsOf g = _ := (obsOf_congr hobs g).trans (subscribe_obsOf s f k g)
      rw [hg]
      split
      case isTrue hnew =>
        obtain ⟨rfl, hk⟩ := hnew
        exact ⟨[k], by simp, rfl, fun hnd => List.nodup_append_comm.1 (hnd.cons hk)⟩
      case isFalse => exact ⟨[], by simp, by simp, id⟩

/-- Settles O48: publication advances STEP or leaves it, a launch sets it to 0, and nothing else writes it. -/
theorem noControlTransfer : Obligations.NoControlTransfer := by
  intro i s s' h
  refine ⟨fun hi => ?_, fun hi => ?_⟩
  · obtain ⟨t, pm, -, ⟨v, rfl, -⟩ | ⟨c, -, rfl⟩⟩ := exec_uop_cases hi h
    · refine ⟨rfl, ?_⟩
      rw [publish_stepIdx]
      split
      · exact .inr rfl
      · exact .inl rfl
    · exact ⟨rfl, .inl rfl⟩
  · rcases exec_command_cases hi h with ⟨c, -, rfl⟩ | ⟨f, k, -, -, rfl⟩ | ⟨f, -, -, -, rfl⟩ | ⟨-, rfl⟩ | ⟨imm, -, rfl⟩ |
      ⟨-, rfl⟩ | rfl | ⟨f, pm, -, rfl⟩
    case inr.inr.inr.inr.inr.inr.inr => exact .inr rfl -- the launch
    all_goals exact .inl rfl

/-! #### Steps -/

theorem engineMove_build {s s' : State} (h : EngineMove s s') : s'.build = s.build := by
  cases h with
  | stay _ e => rw [e]
  | illegal w _ _ e => rw [e]; rfl
  | command w i _ _ _ e => exact (instructionsLeaveHostSide i s s' e).build
  | task i _ e => exact (instructionsLeaveHostSide i s s' e).build
  | finish pm ts _ _ _ _ e => rw [e]; rfl

/-- Settles O49: instructions leave the build, and every other move of `step_cases` is an update of other fields. -/
theorem buildNeverChanges : Obligations.BuildNeverChanges := by
  intro s s' h
  cases step_cases h with
  | engine hm => exact engineMove_build hm
  | waited rest _ hm => exact (engineMove_build hm :)
  | reset rest _ e => rw [e]; rfl
  | accept rest _ k p _ _ e => rw [e]; rfl
  | cell rest sp i c _ _ e => rw [e]; rfl
  | hold rest sp i c _ _ _ e => rw [e]; rfl
  | len rest sp n _ _ e => rw [e]; rfl
  | text rest sp t _ _ _ e => rw [e]; rfl
  | cmd rest w _ e => rw [e]; rfl

/-! #### RES only grows (R23, R48) -/

/-- The names of a flow's tasks are distinct (R35), so a task's name is none of those before it. -/
theorem name_not_mem_take {ts : List Task} {t : Task} {k : Nat} (hnd : (ts.map Task.name).Nodup) (ht : ts[k]? = some t) :
    t.name ∉ (ts.take k).map Task.name := by
  have hsplit : ts.take (k + 1) = ts.take k ++ [t] := by rw [List.take_add_one, ht]; rfl
  have hsub : ((ts.take (k + 1)).map Task.name).Nodup := hnd.sublist ((List.take_sublist _ _).map _)
  rw [hsplit, List.map_append, List.nodup_append] at hsub
  exact fun hmem => hsub.2.2 _ hmem _ (List.mem_singleton.2 rfl) rfl

theorem flow_names_nodup {s : State} (hb : buildWf s.build = true) {ts : List Task} (ht : s.flowTasks? = some ts) :
    (ts.map Task.name).Nodup := by
  have h := flowWf_of_buildWf hb (List.mem_of_getElem? ht)
  simp only [flowWf, Bool.and_eq_true, decide_eq_true_eq] at h
  exact h.1.2

/-- The task that may run has no entry in RES yet. -/
theorem res_none_of_ready {s : State} (h : s.Inv) {t : Task} {pm : NameMap Int} (hr : TaskReady s t pm) :
    mapGet s.res t.name = none := by
  obtain ⟨-, -, ts, hts, -, hres⟩ := exec_of_no_event h hr.running hr.noEvent
  have hnew := name_not_mem_take (flow_names_nodup h.build hts) (task_of_flowTasks hts hr.task)
  rw [← hres] at hnew
  simpa using hnew

/-- A micro-operation keeps every entry of RES. -/
theorem exec_uop_keeps_res {i : Instr} {s s' : State} (h : s.Inv) (hi : i.isCommand = false) (hx : exec i s = .next s')
    {n : Str} {v : Value} (hn : mapGet s.res n = some v) : mapGet s'.res n = some v := by
  obtain ⟨t, pm, hr, ⟨w, rfl, -⟩ | ⟨c, -, rfl⟩⟩ := exec_uop_cases hi hx
  · have hne : n ≠ t.name := by
      rintro rfl
      rw [res_none_of_ready h hr] at hn
      cases hn
    rw [publish_res, mapGet_mapPut_other _ _ _ hne, hn]
  · exact hn

/-- So does the engine's own step, during an execution. -/
theorem engineMove_keeps_res {s s' : State} (h : s.Inv) (hm : EngineMove s s') {pm : NameMap Int}
    (ha : s.activity = .running pm) {n : Str} {v : Value} (hn : mapGet s.res n = some v) : mapGet s'.res n = some v := by
  cases hm with
  | stay _ e => rwa [e]
  | illegal w hc _ _ => cases ha.symm.trans hc
  | command w i hc _ _ _ => cases ha.symm.trans hc
  | task i hi e => exact exec_uop_keeps_res h hi e hn
  | finish _ ts _ _ _ _ e => rwa [e]

/-- Settles O50: a task writes RES under a name that has no entry yet, and no other move during an execution but a
reset writes it. -/
theorem resultsOnlyGrow : Obligations.ResultsOnlyGrow := by
  rintro s s' h hs ⟨pm, ha⟩ hreset n v hn
  cases step_cases hs with
  | engine hm => exact engineMove_keeps_res h hm ha hn
  | waited rest _ hm => exact engineMove_keeps_res (env_inv h rest) hm ha hn
  | reset rest he _ => exact absurd he (hreset rest)
  | accept rest _ k p _ _ e => rwa [e]
  | cell rest sp i c hb _ _ => cases ha.symm.trans hb
  | hold rest sp i c hb _ _ _ => cases ha.symm.trans hb
  | len rest sp n hb _ _ => cases ha.symm.trans hb
  | text rest sp t hb _ _ _ => cases ha.symm.trans hb
  | cmd rest w hb _ => cases ha.symm.trans hb

end Sys2Proof.Proofs

/-! ### No instruction is refused (spec/10_state.md R33, R35; spec/30_encoding.md R93) -/

namespace Sys2Proof.Proofs

open Sys2Proof Sys2Proof.Machine

/-! #### The key square of a well-formed key word -/

/-- The letters of the alphabet but `J` (R195). -/
def squareAlphabet : Str := strOf "ABCDEFGHIKLMNOPQRSTUVWXYZ"

/-- A folded letter is one of the 25 of the square. -/
theorem foldJ_mem_squareAlphabet {c : Byte} (h : isLetter c = true) : foldJ c ∈ squareAlphabet := by
  revert c
  decide +kernel

theorem placeNew_cons (out rest : Str) (c : Byte) :
    placeNew out (c :: rest) = placeNew (if c ∈ out then out else out ++ [c]) rest := rfl

theorem mem_placeNew {out t : Str} {c : Byte} : c ∈ placeNew out t ↔ c ∈ out ∨ c ∈ t := by
  induction t generalizing out with
  | nil => simp [placeNew]
  | cons d t ih =>
    rw [placeNew_cons, ih]
    split
    · grind
    · simp [or_assoc]

theorem placeNew_nodup {out : Str} (t : Str) (h : out.Nodup) : (placeNew out t).Nodup := by
  induction t generalizing out with
  | nil => exact h
  | cons d t ih =>
    rw [placeNew_cons]
    split
    · exact ih h
    · rename_i hd
      exact ih (List.nodup_append_comm.1 (h.cons hd))

/-- The square's letters are the 25, each once, whatever the key word of letters. -/
theorem squareLetters_perm {key : Str} (h : pfKeyWf key = true) : (squareLetters key).Perm squareAlphabet := by
  have hnd : (squareLetters key).Nodup := placeNew_nodup _ (placeNew_nodup _ .nil)
  refine (List.perm_ext_iff_of_nodup hnd (by decide +kernel)).2 fun c => ?_
  rw [squareLetters, mem_placeNew, mem_placeNew]
  refine ⟨?_, .inr⟩
  rintro ((hc | hc) | hc)
  · cases hc
  · obtain ⟨d, hd, rfl⟩ := List.mem_map.1 hc
    exact foldJ_mem_squareAlphabet (List.all_eq_true.1 h d hd)
  · exact hc

/-- PFKEY has a square for every key word that R33(b) allows. -/
theorem keySquare?_isSome {key : Str} (h : pfKeyWf key = true) : ∃ sq, keySquare? key = some sq := by
  have hlen : (squareLetters key).length = 25 := (squareLetters_perm h).length_eq
  exact ⟨_, by rw [keySquare?, if_pos h, dif_pos hlen]⟩

/-! #### Every instruction goes on -/

/-- Every command has a next state. -/
theorem exec_command_goesOn {i : Instr} (s : State) (hi : i.isCommand = true) : goesOn (exec i s) := by
  cases i
  case exec f => simp only [exec, execExec]; split <;> exact ⟨_, rfl⟩
  case sub f k => simp only [exec, execSub]; split <;> [skip; split] <;> exact ⟨_, rfl⟩
  case fsub k => simp only [exec, execFsub]; split <;> [skip; split] <;> exact ⟨_, rfl⟩
  case fadd f => simp only [exec, execFadd]; split <;> [skip; split] <;> exact ⟨_, rfl⟩
  case plock => simp only [exec, execPlock]; split <;> exact ⟨_, rfl⟩
  case punlock => simp only [exec, execPunlock]; split <;> exact ⟨_, rfl⟩
  case frem | pset | pclr | clock | cunlock | vlock | vunlock | hlock | hunlock | slock | sunlock => exact ⟨_, rfl⟩
  all_goals cases hi

/-- The executor's step goes on where a task may run. -/
theorem runTask_goesOn (u : Operands → Except Code Value) (ref : Option (BitVec 4)) {s : State} {t : Task}
    {pm : NameMap Int} (h : TaskReady s t pm) : goesOn (runTask u ref s) := by
  cases hu : u (operandsOf s t pm ref) with
  | ok v => exact ⟨_, runTask_ok h hu⟩
  | error c => exact ⟨_, runTask_error h hu⟩

/-- No Value holds an integer above 25 (R18). -/
theorem prevTooLarge_of_wf {v : Value} (h : v.wf = true) : prevTooLarge v = false := by
  cases v with
  | ints vs =>
    rw [ints_wf] at h
    simpa [prevTooLarge] using fun x hx => (h x hx).2
  | _ => rfl

/-- Every micro-operation has a next state, where a task may run, CFG is well-formed (R33) and PREV is a Value of R18. -/
theorem exec_uop_goesOn {i : Instr} {s : State} {t : Task} {pm : NameMap Int} (hi : i.isCommand = false)
    (h : TaskReady s t pm) (hc : cfgWf s.build.cfg = true) (hv : s.prev.wf = true) : goesOn (exec i s) := by
  simp only [cfgWf, Bool.and_eq_true] at hc
  obtain ⟨⟨⟨hvig, hpf⟩, -⟩, -⟩ := hc
  cases i
  case v2a =>
    simp only [exec, execV2a, prevTooLarge_of_wf hv]
    exact runTask_goesOn uopV2a none h
  case vmkkey =>
    simp only [exec, execVmkkey, hvig]
    exact runTask_goesOn uopVmkkey none h
  case pfkey =>
    obtain ⟨sq, hsq⟩ := keySquare?_isSome hpf
    simp only [exec, execPfkey, hsq]
    exact runTask_goesOn _ none h
  case exec | sub | fsub | fadd | frem | pset | pclr | clock | cunlock | vlock | vunlock | plock | punlock | hlock |
      hunlock | slock | sunlock => cases hi
  case ident => exact runTask_goesOn uopIdent none h
  case skeys => exact runTask_goesOn uopSkeys none h
  all_goals exact runTask_goesOn _ _ h

/-! #### The engine's own step goes on -/

theorem cfgWf_of_buildWf {b : Build} (hb : buildWf b = true) : cfgWf b.cfg = true := by
  simp only [buildWf, Bool.and_eq_true] at hb
  tauto

/-- Every task word of a well-formed flow decodes (R35, R93). -/
theorem decodeTask_of_flowWf {ts : List Task} (hw : flowWf ts = true) {k : Nat} {t : Task} (ht : ts[k]? = some t) :
    ∃ i, decodeTask t.word = .ok i := by
  simp only [flowWf, Bool.and_eq_true, List.all_eq_true] at hw
  have htask : taskWf k t = true := hw.2 (t, k) (List.mem_zipIdx_iff_getElem?.2 ht)
  cases hd : decodeTask t.word with
  | ok i => exact ⟨i, rfl⟩
  | error e => simp [taskWf, hd] at htask

theorem startCommand_goesOn {s : State} (hb : buildWf s.build = true) (w : BitVec 32) : goesOn (startCommand w s) := by
  rw [startCommand, if_pos hb]
  cases hd : decodeCommand w with
  | ok i => exact exec_command_goesOn s (isCommand_of_decodeCommand hd)
  | error e => exact ⟨_, rfl⟩

/-- With no event pending the execution goes on with the task at STEP, or ends at the end of the flow. -/
theorem runStep_goesOn {s : State} (h : s.Inv) {pm : NameMap Int} (ha : s.activity = .running pm) (he : s.evp = none) :
    goesOn (runStep s) := by
  obtain ⟨-, -, ts, hts, hle, -⟩ := exec_of_no_event h ha he
  simp only [runStep, hts]
  cases ht : ts[s.stepIdx]? with
  | none =>
    have hend : s.stepIdx = ts.length := Nat.le_antisymm hle (List.getElem?_eq_none_iff.1 ht)
    simp only [if_pos hend]
    exact ⟨_, rfl⟩
  | some t =>
    obtain ⟨i, hi⟩ := decodeTask_of_flowWf (flowWf_of_buildWf h.build (List.mem_of_getElem? hts)) ht
    have hready : TaskReady s t pm := ⟨ha, he, by simp [State.task?, hts, ht]⟩
    simp only [hi]
    exact exec_uop_goesOn (isCommand_of_decodeTask hi) hready (cfgWf_of_buildWf h.build) h.values.1

theorem engineStep_goesOn {s : State} (h : s.Inv) : goesOn (engineStep s) := by
  cases ha : s.activity with
  | idle => exact ⟨s, by simp only [engineStep, ha]⟩
  | command w => simpa only [engineStep, ha] using startCommand_goesOn h.build w
  | running pm =>
    cases he : s.evp with
    | none => simpa only [engineStep, ha, he] using runStep_goesOn h ha he
    | some p => exact ⟨s, by simp only [engineStep, ha, he]⟩

/-! #### Only a move of the world outside is refused -/

/-- A host move has a next state or is no move of the host (log 14). -/
theorem hostMove_goesOn_or (m : HostMove) (s : State) :
    goesOn (hostMove m s) ∨ hostMove m s = .refused .noSuchHostMove := by
  cases m with
  | writeCell sp i c =>
    rw [hostMove_writeCell]
    split
    · exact .inl ⟨_, rfl⟩
    · exact .inr rfl
  | prepareCell sp i c =>
    rw [hostMove_prepareCell]
    split
    · exact .inl ⟨_, rfl⟩
    · split
      · exact .inl ⟨_, rfl⟩
      · exact .inr rfl
  | writeLen sp n =>
    rw [hostMove]
    split
    · exact .inl ⟨_, rfl⟩
    · exact .inr rfl
  | writeText sp t =>
    rw [hostMove]
    split
    · exact .inl ⟨_, rfl⟩
    · exact .inr rfl
  | writeCmd w => exact .inl ⟨_, rfl⟩

/-- A step that meets the invariant goes on, or is refused for the move that comes next in the world outside. -/
theorem step_goesOn_or {s : State} (h : s.Inv) :
    goesOn (step s) ∨ step s = .refused .hostMoveWhileBusy ∨ step s = .refused .noSuchHostMove ∨
      step s = .refused .noEventOffered := by
  unfold step worldStep
  split
  · exact .inl (engineStep_goesOn h)
  · exact .inl (engineStep_goesOn (env_inv h _))
  · exact .inl ⟨_, rfl⟩
  · split
    · exact .inl ⟨_, rfl⟩
    · split
      · exact .inl (engineStep_goesOn h)
      · exact .inr (.inr (.inr rfl))
  · split
    · split
      · exact .inr (.inl rfl)
      · exact .inl (engineStep_goesOn h)
    · exact (hostMove_goesOn_or _ _).imp_right fun hr => .inr (.inl hr)

/-- Settles O53: the engine's own step always goes on, so only the next outside move can stop a step. -/
theorem nothingButTheWorldIsRefused : Obligations.NothingButTheWorldIsRefused := by
  intro s h
  refine ⟨fun r hr => ?_, fun r hr => ?_⟩
  · rcases step_goesOn_or h with ⟨s', hs⟩ | hs | hs | hs <;> cases hr.symm.trans hs
  · rcases step_goesOn_or h with ⟨s', hs⟩ | hs | hs | hs <;> cases hr.symm.trans hs <;> simp

end Sys2Proof.Proofs

/-! ### One step, by what the world outside does next (spec/70_reset_and_hazards.md R326) -/

namespace Sys2Proof.Proofs

open Sys2Proof Sys2Proof.Machine

theorem busy_of_command {s : State} {w : BitVec 32} (h : s.activity = .command w) : s.busy = true := by
  simp [State.busy, h]

theorem busy_of_running {s : State} {pm : NameMap Int} (h : s.activity = .running pm) : s.busy = true := by
  simp [State.busy, h]

/-- While BUSY = 1 and no event is pending, the engine steps by itself when the world outside waits for it. -/
theorem step_of_worldWaits {s : State} (hb : s.busy = true) (he : s.evp = none) (hw : s.worldWaits) :
    step s = engineStep s := by
  rcases hw with henv | ⟨m, rest, henv⟩ | ⟨rest, henv⟩
  · simp only [step, worldStep, henv]
  · simp [step, worldStep, henv, hb, he]
  · simp [step, worldStep, henv, hb, State.offered?, he]

/-- While BUSY = 0 the host's next move is made at once. -/
theorem step_of_host {s : State} {m : HostMove} {rest : List EnvMove} (hb : s.busy = false)
    (he : s.env = .host m :: rest) : step s = hostMove m { s with env := rest } := by
  simp [step, worldStep, he, hb]

/-- A step makes the acceptance of the event by the sink that is offered it. -/
theorem step_of_sinkAccept {s : State} {p : PendingEvent} {k : Nat} {rest : List EnvMove}
    (he : s.env = .sinkAccept :: rest) (hp : s.evp = some p) (hk : s.sinks[p.next]? = some k) :
    step s = .next ({ s with env := rest }.deliver k p) := by
  simp [step, worldStep, he, State.offered?, hp, hk]

/-! #### An illegal command word (spec/30_encoding.md R85) -/

theorem eq_zero_of_append_eq_zero {n m : Nat} {a : BitVec n} {b : BitVec m} (h : a ++ b = 0) : a = 0 ∧ b = 0 := by
  have hn : a.toNat <<< m ||| b.toNat = 0 := by rw [← BitVec.toNat_append, h]; rfl
  obtain ⟨ha, hb⟩ := Nat.or_eq_zero_iff.1 hn
  exact ⟨BitVec.eq_of_toNat_eq (by simpa [Nat.shiftLeft_eq] using ha), BitVec.eq_of_toNat_eq hb⟩

theorem zeroField_ok {n : Nat} {z : BitVec n} {i j : Instr} : zeroField z i = .ok j ↔ z = 0 ∧ i = j := by
  unfold zeroField
  split <;> simp_all

/-- ARG is FLOW, SINK and the low byte side by side (R81). -/
theorem arg_eq_append (w : BitVec 32) :
    w.extractLsb' 0 24 = w.extractLsb' 16 8 ++ w.extractLsb' 8 8 ++ w.extractLsb' 0 8 := by
  rw [BitVec.extractLsb'_append_extractLsb'_eq_extractLsb' (start₂ := 16) (start₁ := 8) rfl,
    BitVec.extractLsb'_append_extractLsb'_eq_extractLsb' (start₂ := 8) (start₁ := 0) rfl]

/-- A word that decodes holds OP and ARG of the command it decodes to (R81, R82). -/
theorem fields_of_decodeCommand {w : BitVec 32} {i : Instr} (h : decodeCommand w = .ok i) :
    w.extractLsb' 24 8 = i.opcode ∧ w.extractLsb' 0 24 = i.arg := by
  simp only [decodeCommand] at h
  split at h
  all_goals rename_i hop
  case h_1 | h_4 => -- EXEC, FADD
    obtain ⟨hz, rfl⟩ := zeroField_ok.1 h
    obtain ⟨hsink, hlow⟩ := eq_zero_of_append_eq_zero hz
    refine ⟨BitVec.eq_of_toNat_eq hop, ?_⟩
    rw [arg_eq_append, hsink, hlow]
    rfl
  case h_2 => -- SUB
    obtain ⟨hlow, rfl⟩ := zeroField_ok.1 h
    refine ⟨BitVec.eq_of_toNat_eq hop, ?_⟩
    rw [arg_eq_append, hlow]
    rfl
  case h_3 => -- FSUB
    obtain ⟨hz, rfl⟩ := zeroField_ok.1 h
    obtain ⟨hflow, hlow⟩ := eq_zero_of_append_eq_zero hz
    refine ⟨BitVec.eq_of_toNat_eq hop, ?_⟩
    rw [arg_eq_append, hflow, hlow]
    rfl
  case h_6 | h_8 | h_9 => -- PSET, CLOCK, CUNLOCK: ARG is the immediate
    cases h
    exact ⟨BitVec.eq_of_toNat_eq hop, rfl⟩
  case h_18 => cases h
  all_goals -- the commands without an operand: ARG is 0
    obtain ⟨harg, rfl⟩ := zeroField_ok.1 h
    exact ⟨BitVec.eq_of_toNat_eq hop, harg⟩

/-- So it is the word of that command. -/
theorem encodeCommand_of_decodeCommand {w : BitVec 32} {i : Instr} (h : decodeCommand w = .ok i) :
    encodeCommand i = w := by
  obtain ⟨hop, harg⟩ := fields_of_decodeCommand h
  rw [encodeCommand, ← hop, ← harg]
  exact BitVec.extractLsb'_append_extractLsb'

/-- The word of every command is the match of its row under the row's mask. -/
theorem tableWord_of_command {i : Instr} (hi : i.isCommand = true) : Laws.TableWord.Statement i := by
  cases i
  case exec f => exact Laws.TableWord.exec f
  case sub f k => exact Laws.TableWord.sub f k
  case fsub k => exact Laws.TableWord.fsub k
  case fadd f => exact Laws.TableWord.fadd f
  case pset imm => exact Laws.TableWord.pset imm
  case clock imm => exact Laws.TableWord.clock imm
  case cunlock imm => exact Laws.TableWord.cunlock imm
  case frem | pclr | vlock | vunlock | plock | punlock | hlock | hunlock | slock | sunlock => rfl
  all_goals cases hi

/-- The row of every command is one of the seventeen. -/
theorem tableRow_mem_commandRows {i : Instr} (hi : i.isCommand = true) :
    ∃ r ∈ commandRows, tableRow i = (r.1.toNat, r.2.toNat) := by
  have hmem : tableRow i ∈ commandRows.map fun r => (r.1.toNat, r.2.toNat) := by
    cases i <;> simp [tableRow, commandRows, Instr.isCommand] at hi ⊢
  obtain ⟨r, hr, he⟩ := List.mem_map.1 hmem
  exact ⟨r, hr, he.symm⟩

/-- A command word that decodes matches a row of the opcode table. -/
theorem matches_row_of_decodeCommand {w : BitVec 32} {i : Instr} (h : decodeCommand w = .ok i) :
    ∃ r ∈ commandRows, w &&& r.1 = r.2 := by
  have hi := isCommand_of_decodeCommand h
  obtain ⟨r, hr, hrow⟩ := tableRow_mem_commandRows hi
  have hw : encode i &&& (tableRow i).1 = (tableRow i).2 := tableWord_of_command hi
  rw [encode, if_pos hi, encodeCommand_of_decodeCommand h, hrow, ← BitVec.toNat_and] at hw
  exact ⟨r, hr, BitVec.eq_of_toNat_eq hw⟩

/-- Settles O8: a word that matches no row does not decode, and then the command is completed with the exception. -/
theorem illegalCommandCompletes : Obligations.IllegalCommandCompletes := by
  intro s w ha he hb hw hrows
  have hstep : step s = .next (s.raise .illegalCommand 0) := by
    rw [step_of_worldWaits (busy_of_command ha) he hw]
    cases hd : decodeCommand w with
    | ok i =>
      obtain ⟨r, hr, hm⟩ := matches_row_of_decodeCommand hd
      exact absurd hm (hrows r hr)
    | error e => simp only [engineStep, ha, startCommand, hb, if_true, hd]
  have hraised : Raised s .illegalCommand 0 (s.raise .illegalCommand 0) := raise_raised s 0 (by decide)
  have hwords : CompletedAs s .illegalCommand 7 0 _ := completedAs_of_completed hraised.completed
  exact ⟨_, hstep, hraised, hwords, hwords.statusWord, hwords.errWord, hwords.flowWord, hwords.stepWord⟩

/-! #### The end of an execution (spec/40_pipeline.md R119) -/

theorem step_at_end {s : State} {pm : NameMap Int} {ts : List Task} (ha : s.activity = .running pm) (he : s.evp = none)
    (ht : s.flowTasks? = some ts) (hs : s.stepIdx = ts.length) (hw : s.worldWaits) : step s = .next s.finish := by
  have hend : ts[s.stepIdx]? = none := List.getElem?_eq_none (Nat.le_of_eq hs.symm)
  rw [step_of_worldWaits (busy_of_running ha) he hw]
  simp only [engineStep, ha, he, runStep, ht, hend, if_pos hs]

theorem finish_completed (s : State) : Completed s .ok 0 s.finish :=
  { complete_completed { s with out := s.prev, ovalid := true } .ok 0 with
    rest := ⟨rfl, cell_congr rfl rfl rfl rfl, rfl, rfl, rfl, rfl, rfl, rfl, rfl, rfl, rfl, rfl, rfl⟩ }

/-- The three cells of a row (R61). -/
theorem row_cells (r : Row) :
    r.toList.map symCell = [BitVec.ofNat 8 r[0].val, BitVec.ofNat 8 r[1].val, BitVec.ofNat 8 r[2].val] := by
  match r with
  | ⟨⟨[a, b, c]⟩, _⟩ => rfl

/-- The elements of a Value are what the host is to see of it (R61, R63). -/
theorem elems_shownAs (v : Value) : v.ShownAs v.tag v.len fun i => v.elems[i]? := by
  cases v with
  | str m => exact ⟨rfl, rfl, fun i => List.getElem?_map ..⟩
  | ints vs => exact ⟨rfl, rfl, fun i => List.getElem?_map ..⟩
  | pairs ps => exact ⟨rfl, rfl, fun i => List.getElem?_map ..⟩
  | blocks bs => exact ⟨rfl, rfl, fun i => List.getElem?_map ..⟩
  | rows rs =>
    refine ⟨rfl, rfl, fun i => (List.getElem?_map ..).trans ?_⟩
    simp only [row_cells]
  | square sq =>
    refine ⟨rfl, rfl, fun r c => ?_, fun i hi => ?_⟩
    · have hlt : 5 * r.val + c.val < 25 := by omega
      simp [Value.elems, hlt]
    · simp [Value.elems, hi]
  | keys k1 k2 => exact ⟨rfl, rfl, rfl, rfl, fun i hi => List.getElem?_eq_none hi⟩

/-- While BUSY = 0 the host reads every control and status register (R44). -/
theorem hostCsr?_of_not_busy {s : State} (hb : s.busy = false) (idx : Nat) : hostCsr? s idx = s.csr? idx := by
  simp [hostCsr?, hb]

/-- Settles O9: the step is `finish`, and the host's reads are those of the state it leaves. -/
theorem executionEnds : Obligations.ExecutionEnds := by
  intro s pm ts ha he ht hs hw
  have hb : s.finish.busy = false := rfl
  have hwords : CompletedAs s .ok 0 0 s.finish := completedAs_of_completed (finish_completed s)
  have hcsr := hostCsr?_of_not_busy hb
  have helems : hostOutElem? s.finish = fun i => s.prev.elems[i]? := funext (hostOutElem?_eq hb rfl)
  refine ⟨s.finish, step_at_end ha he ht hs hw, hwords, rfl, rfl, rfl, rfl, rfl, ?_, ?_, ?_, ?_, ?_, ?_, ?_, ?_, ?_, ?_, ?_⟩
  · exact (hcsr 1).trans (congrArg some hwords.statusWord)
  · exact (hcsr 2).trans (congrArg some hwords.errWord)
  · exact (hcsr 3).trans (congrArg some hwords.flowWord)
  · rw [← hs]
    exact (hcsr 4).trans (congrArg some hwords.stepWord)
  · exact hcsr 5
  · exact hcsr 6
  · rfl
  · refine ⟨s.prev.tag, s.prev.len, helems ▸ elems_shownAs s.prev, hcsr 7, fun hlen => (hcsr 8).trans ?_⟩
    exact congrArg some (if_pos hlen)
  · exact fun name => rfl
  · intro hvalid
    simp [hostPrev?, hb, hvalid]
  · intro sp i
    rw [hostCell?_eq hb, hwords.completed.rest.cells]
    cases sp <;> rfl

/-! #### The acceptance of a command, of an event, and reset -/

/-- Settles O10: the step accepts the word, and every read but those of STATUS and CFG asks for BUSY = 0. -/
theorem commandAccepted : Obligations.CommandAccepted := by
  refine ⟨fun s w rest hb he => ?_, fun s hb => ?_⟩
  · refine ⟨_, step_of_host hb he, busy_of_command rfl, ?_, rfl, rfl, rfl, rfl, rfl⟩
    simp [State.statusWord, busy_of_command (accept_activity _ w)]
  · refine ⟨?_, fun m => rfl, fun idx hidx => ?_, ?_, fun i => hostRead?_busy hb .out i 1, ?_, fun name => ?_,
      fun name i => ?_, hostRead?_busy hb, fun sp i => ?_, hostTask?_busy hb⟩
    · simp [hostCsr?, State.csr?, State.statusWord, hb]
    · simp [hostCsr?, hb, hidx]
    · simp [hostOut?, hb]
    · simp [hostPrev?, hb]
    · simp [hostRes?, hb]
    · simp [hostResElem?, hostRes?, hb]
    · simp [hostCell?, hostRead?_busy hb]

/-- Settles O12: the step is `deliver`. -/
theorem sinkAccepts : Obligations.SinkAccepts := by
  intro s p k rest he hp hk
  refine ⟨_, step_of_sinkAccept he hp hk, rfl, fun hnext => ?_, fun hlast => ?_, rfl⟩
  · exact ⟨if_pos hnext, if_pos hnext⟩
  · exact ⟨if_neg (Nat.not_lt.2 hlast), if_neg (Nat.not_lt.2 hlast)⟩

/-- No control or status register has a bit set after reset (R49). -/
theorem reset_csr : ∀ idx < 9, State.reset.csr? idx = some 0 := by
  decide

/-- Settles O14: every field is the one of R49; the lengths are 0, so no cell is within R62. -/
theorem resetLeaves : Obligations.ResetLeaves := by
  refine ⟨reset_csr, rfl, rfl, rfl, rfl, rfl, rfl, rfl, rfl, rfl, rfl, rfl, fun f => rfl, rfl, fun sp => ?_, rfl, rfl,
    fun sp i => ?_, rfl⟩
  · cases sp <;> rfl
  · have hlen : (State.reset.len sp).toNat = 0 := by cases sp <;> rfl
    rw [hostCell?_eq rfl, hlen, if_neg (Nat.not_lt_zero i)]

end Sys2Proof.Proofs

/-! ### The host's writes of IN and NAME (spec/20_memory.md R62, R66; spec/70_reset_and_hazards.md R312) -/

namespace Sys2Proof.Proofs

open Sys2Proof Sys2Proof.Machine

theorem setCell_len (s : State) (sp : Space) (i : Nat) (c : Byte) (sp' : Space) :
    (s.setCell sp i c).len sp' = s.len sp' := memWrite_len s sp i [c] sp'

theorem memWrite_held (s : State) (sp : Space) (i : Nat) (m : Str) (sp' : Space) :
    (memWrite s sp i m).held sp' = s.held sp' := by
  cases sp' <;> rfl

theorem setText_held (s : State) (sp sp' : Space) (t : Str) (j : Nat) (ht : t.length < 2 ^ 32) :
    mapGet ((s.setText sp t).held sp') j = if sp' = sp ∧ j < t.length then none else mapGet (s.held sp') j := by
  rw [State.setText, memWrite_held, setLen_held, BitVec.toNat_ofNat, Nat.mod_eq_of_lt ht]

/-- In the memory invariant no write is held below the length. -/
theorem held_none_below {s : State} (h : s.MemoryInv) {sp : Space} {j : Nat} (hj : j < (s.len sp).toNat) :
    mapGet (s.held sp) j = none := by
  cases hg : mapGet (s.held sp) j with
  | none => rfl
  | some c =>
    have hle : (s.len sp).toNat ≤ j := by
      cases sp
      · exact (h.inHeld _ (mapGet_some_mem hg)).1
      · exact (h.nameHeld _ (mapGet_some_mem hg)).1
    omega

section
variable {s : State} {sp : Space} {i : Nat}

theorem hostCell?_setCell_same (c : Byte) (hb : s.busy = false) (hi : i < (s.len sp).toNat) :
    hostCell? (s.setCell sp i c) sp i = some c := by
  rw [hostCell?_eq (s := s.setCell sp i c) hb, setCell_len, if_pos hi, setCell_cell_same]

theorem hostCell?_hold_beyond (c : Byte) (hb : s.busy = false) (hi : (s.len sp).toNat ≤ i) :
    hostCell? (s.hold sp i c) sp i = none := by
  rw [hostCell?_eq (s := s.hold sp i c) hb, hold_len, if_neg (Nat.not_lt.2 hi)]

/-- The host reads the same where the lengths agree and so do the cells below them. -/
theorem hostCell?_congr {s' : State} (hb : s.busy = false) (hb' : s'.busy = false) (hlen : s.len sp = s'.len sp)
    (hcell : i < (s.len sp).toNat → s.cell sp i = s'.cell sp i) : hostCell? s sp i = hostCell? s' sp i := by
  rw [hostCell?_eq hb, hostCell?_eq hb', ← hlen]
  split
  case isTrue hi => rw [hcell hi]
  case isFalse => rfl

end

/-! #### A cell prepared before or after its length (R312(d)) -/

/-- What cell `j` reads once a length takes it in: the held write, if there is one. -/
def pendingCell (s : State) (sp : Space) (j : Nat) : Byte := (mapGet (s.held sp) j).getD (s.cell sp j)

/-- What the preparation of cell `i` does, whether the write is made or held: the cell reads `c` once a length takes it
in, and nothing else changes. -/
structure Prepared (s : State) (sp : Space) (i : Nat) (c : Byte) (p : State) : Prop where
  len : ∀ sp', p.len sp' = s.len sp'
  cellOther : ∀ sp' j, sp' ≠ sp → p.cell sp' j = s.cell sp' j
  heldOther : ∀ sp' j, ¬ (sp' = sp ∧ j = i) → mapGet (p.held sp') j = mapGet (s.held sp') j
  pendingHere : pendingCell p sp i = c
  pendingElse : ∀ j, j ≠ i → pendingCell p sp j = pendingCell s sp j
  rest : p = { s with inBuf := p.inBuf, nameBuf := p.nameBuf, inHeld := p.inHeld, nameHeld := p.nameHeld }

theorem setCell_prepared {s : State} {sp : Space} {i : Nat} (c : Byte) (h : s.MemoryInv) (hi : i < (s.len sp).toNat) :
    Prepared s sp i c (s.setCell sp i c) := by
  have hheld (sp') : (s.setCell sp i c).held sp' = s.held sp' := memWrite_held s sp i [c] sp'
  refine ⟨setCell_len s sp i c, fun sp' j hsp => setCell_cell_other s c (.inl hsp), fun sp' j _ => by rw [hheld], ?_,
    fun j hj => ?_, rfl⟩
  · rw [pendingCell, hheld, held_none_below h hi]
    exact setCell_cell_same s sp i c
  · rw [pendingCell, hheld, setCell_cell_other s c (.inr hj), pendingCell]

theorem hold_prepared (s : State) (sp : Space) (i : Nat) (c : Byte) : Prepared s sp i c (s.hold sp i c) := by
  refine ⟨hold_len s sp i c, fun sp' j _ => hold_cell s sp i c sp' j, fun sp' j hne => ?_, ?_, fun j hj => ?_, rfl⟩
  · rw [hold_held, if_neg hne]
  · rw [pendingCell, hold_held, if_pos ⟨rfl, rfl⟩, Option.getD_some]
  · rw [pendingCell, hold_held, if_neg (fun hne => hj hne.2), hold_cell, pendingCell]

theorem hostMove_prepareCell_prepared {s : State} {sp : Space} {i : Nat} (c : Byte) (h : s.MemoryInv)
    (hi : i < s.cap sp) : ∃ p, hostMove (.prepareCell sp i c) s = .next p ∧ Prepared s sp i c p := by
  rw [hostMove_prepareCell, if_pos hi]
  split
  case isTrue hlen => exact ⟨_, rfl, setCell_prepared c h hlen⟩
  case isFalse => exact ⟨_, rfl, hold_prepared s sp i c⟩

section
variable {s p : State} {sp : Space} {i : Nat} {c : Byte} {n : BitVec 32} (hp : Prepared s sp i c p)
include hp

/-- What the world outside does next plays no part. -/
theorem prepared_with_env (env : List EnvMove) : Prepared { s with env := env } sp i c { p with env := env } :=
  { hp with rest := congrArg (fun q : State => { q with env := env }) hp.rest }

theorem setLen_cell_of_prepared (hi : i < n.toNat) : (p.setLen sp n).cell sp i = c :=
  (setLen_cell_same p n hi).trans hp.pendingHere

/-- The cells that the host can read are the same in either order. -/
theorem prepared_setLen_cell {sp' : Space} {j : Nat} (hi : i < n.toNat) (hj : sp' = sp → j < n.toNat) :
    (p.setLen sp n).cell sp' j = ((s.setLen sp n).setCell sp i c).cell sp' j := by
  by_cases hsp : sp' = sp
  · subst hsp
    by_cases hji : j = i
    · rw [hji, setLen_cell_of_prepared hp hi, setCell_cell_same]
    · rw [setCell_cell_other _ _ (.inr hji), setLen_cell_same p n (hj rfl), setLen_cell_same s n (hj rfl)]
      exact hp.pendingElse j hji
  · rw [setCell_cell_other _ _ (.inl hsp), setLen_cell_other p n hsp, setLen_cell_other s n hsp, hp.cellOther _ _ hsp]

/-- So are the held writes. -/
theorem prepared_setLen_held (hi : i < n.toNat) (sp' : Space) (j : Nat) :
    mapGet ((p.setLen sp n).held sp') j = mapGet (((s.setLen sp n).setCell sp i c).held sp') j := by
  rw [setCell_eq_memWrite, memWrite_held, setLen_held, setLen_held]
  split
  case isTrue => rfl
  case isFalse hno => exact hp.heldOther _ _ fun ⟨hsp, hj⟩ => hno ⟨hsp, hj ▸ hi⟩

theorem prepared_setLen_len (sp' : Space) :
    (p.setLen sp n).len sp' = ((s.setLen sp n).setCell sp i c).len sp' := by
  rw [setCell_len, setLen_len, setLen_len, hp.len]

end

theorem step_host_cons {s : State} (m : HostMove) (rest : List EnvMove) (hb : s.busy = false) :
    step { s with env := .host m :: rest } = hostMove m { s with env := rest } :=
  step_of_host (s := { s with env := .host m :: rest }) hb rfl

theorem run_two_steps {s a b : State} (ha : step s = .next a) (hb : step a = .next b) :
    Host.Core.run Sys2Proof.core 2 s = .next b := by
  have ha' : Sys2Proof.core.step s = .next a := ha
  have hb' : Sys2Proof.core.step a = .next b := hb
  simp only [Host.Core.run, ha', hb']

theorem hostMove_writeLen {s : State} {sp : Space} {n : BitVec 32} (hn : n.toNat ≤ s.cap sp) :
    hostMove (.writeLen sp n) s = .next (s.setLen sp n) := if_pos hn

/-- A prepared cell and the length that takes it in, in both orders. -/
theorem run_prepareCell_writeLen {s : State} {sp : Space} {i : Nat} {n : BitVec 32} (c : Byte) (rest : List EnvMove)
    (hb : s.busy = false) (h : s.MemoryInv) (hi : i < n.toNat) (hn : n.toNat ≤ s.cap sp) :
    ∃ p, Prepared { s with env := rest } sp i c p ∧
      Host.Core.run Sys2Proof.core 2 { s with env := .host (.prepareCell sp i c) :: .host (.writeLen sp n) :: rest } =
        .next (p.setLen sp n) ∧
      Host.Core.run Sys2Proof.core 2 { s with env := .host (.writeLen sp n) :: .host (.prepareCell sp i c) :: rest } =
        .next (({ s with env := rest }.setLen sp n).setCell sp i c) := by
  have hcap : i < s.cap sp := Nat.lt_of_lt_of_le hi hn
  obtain ⟨p, hmove, hp⟩ := hostMove_prepareCell_prepared (s := { s with env := .host (.writeLen sp n) :: rest }) c
    { h with } hcap
  refine ⟨{ p with env := rest }, prepared_with_env hp rest, ?_, ?_⟩
  · have hpb : p.busy = false := (congrArg State.busy hp.rest).trans hb
    have hpe : p.env = .host (.writeLen sp n) :: rest := congrArg State.env hp.rest
    have hpn : n.toNat ≤ p.cap sp := hn.trans_eq (congrArg (State.cap · sp) hp.rest).symm
    exact run_two_steps ((step_host_cons _ _ hb).trans hmove) ((step_of_host hpb hpe).trans (hostMove_writeLen hpn))
  · have hlen : i < ((s.setLen sp n).len sp).toNat := by rwa [setLen_len, if_pos rfl]
    refine run_two_steps ((step_host_cons _ _ hb).trans (hostMove_writeLen hn)) ?_
    exact (step_host_cons (s := s.setLen sp n) _ _ hb).trans ((hostMove_prepareCell ..).trans (if_pos hlen))

/-- Settles O11: each clause is the rule of the one memory operation that the host's move makes. -/
theorem hostWritesBuffers : Obligations.HostWritesBuffers := by
  intro s rest sp hb
  refine ⟨fun i c he hi => ?_, fun i c he hi => ?_, fun i c he hi => ⟨fun hcap => ?_, fun hcap => ?_⟩,
    fun n he => ⟨fun hn => ?_, fun hn => ?_⟩, fun t he => ⟨fun ht hs => ?_, fun ht => ?_⟩, fun i c n h hi hn => ?_⟩
  · have hstep : step s = .next ({ s with env := rest }.setCell sp i c) := by
      rcases he with he | he
      · exact (step_of_host hb he).trans ((hostMove_writeCell ..).trans (if_pos hi))
      · exact (step_of_host hb he).trans ((hostMove_prepareCell ..).trans (if_pos hi))
    refine ⟨_, hstep, setCell_cell_same .., hostCell?_setCell_same c hb hi, fun sp' j hne => ?_, rfl⟩
    exact setCell_cell_other _ c (not_and_or.1 fun ⟨hsp, hj⟩ => hne (Prod.ext hsp hj))
  · exact (step_of_host hb he).trans ((hostMove_writeCell ..).trans (if_neg (Nat.not_lt.2 hi)))
  · have hstep : step s = .next ({ s with env := rest }.hold sp i c) :=
      (step_of_host hb he).trans ((hostMove_prepareCell ..).trans ((if_neg (Nat.not_lt.2 hi)).trans (if_pos hcap)))
    exact ⟨_, hstep, hostCell?_hold_beyond c hb hi, hold_held _ sp i c, rfl⟩
  · exact (step_of_host hb he).trans
      ((hostMove_prepareCell ..).trans ((if_neg (Nat.not_lt.2 hi)).trans (if_neg (Nat.not_lt.2 hcap))))
  · refine ⟨_, (step_of_host hb he).trans (hostMove_writeLen hn), ?_, fun sp' hsp => ?_, fun j hj => ?_,
      fun sp' j hsp => ?_, fun sp' j => setLen_held _ sp sp' n j, rfl⟩
    · exact (setLen_len ..).trans (if_pos rfl)
    · exact (setLen_len ..).trans (if_neg hsp)
    · exact setLen_cell_same _ n hj
    · exact setLen_cell_other _ n hsp j
  · exact (step_of_host hb he).trans (if_neg (Nat.not_le.2 hn))
  · refine ⟨_, (step_of_host hb he).trans (if_pos ⟨ht, hs⟩), ?_, setText_read _ sp t, fun sp' hsp => ?_,
      fun sp' j hsp => ?_, fun sp' j => setText_held _ sp sp' t j hs, rfl⟩
    · rw [setText_len, if_pos rfl, BitVec.toNat_ofNat, Nat.mod_eq_of_lt hs]
    · exact (setText_len ..).trans (if_neg hsp)
    · exact setText_cell_other _ t hsp j
  · exact (step_of_host hb he).trans (if_neg fun hle => Nat.not_le.2 ht hle.1)
  · obtain ⟨p, hp, hrun, hrun'⟩ := run_prepareCell_writeLen c rest hb h hi hn
    have hpb : p.busy = false := (congrArg State.busy hp.rest).trans hb
    refine ⟨_, _, hrun, hrun', setLen_cell_of_prepared hp hi, (setLen_len ..).trans (if_pos rfl), fun sp' j => ?_,
      prepared_setLen_held hp hi, ?_⟩
    · refine hostCell?_congr hpb hb (prepared_setLen_len hp sp') fun hj => prepared_setLen_cell hp hi fun hsp => ?_
      rwa [setLen_len, if_pos hsp] at hj
    · rw [hp.rest]
      rfl

end Sys2Proof.Proofs

/-! ### The encodings, in both directions (spec/30_encoding.md R80 to R92) -/

namespace Sys2Proof.Proofs

open Sys2Proof Sys2Proof.Machine

/-! #### Commands: OP, and ARG as FLOW, SINK and the low byte -/

theorem flow_of_append (f k l : BitVec 8) : (f ++ k ++ l).extractLsb' 16 8 = f :=
  (BitVec.extractLsb'_append_eq_of_le (by decide)).trans BitVec.extractLsb'_append_eq_left

theorem sink_of_append (f k l : BitVec 8) : (f ++ k ++ l).extractLsb' 8 8 = k :=
  (BitVec.extractLsb'_append_eq_of_le (by decide)).trans BitVec.extractLsb'_append_eq_right

theorem low_of_append (f k l : BitVec 8) : (f ++ k ++ l).extractLsb' 0 8 = l :=
  BitVec.extractLsb'_append_eq_right

theorem op_of_encodeCommand (i : Instr) : (encodeCommand i).extractLsb' 24 8 = i.opcode :=
  BitVec.extractLsb'_append_eq_left

theorem arg_of_encodeCommand (i : Instr) : (encodeCommand i).extractLsb' 0 24 = i.arg :=
  BitVec.extractLsb'_append_eq_right

/-- FLOW, SINK and the low byte are read from ARG. -/
theorem byte_of_encodeCommand (i : Instr) {start : Nat} (h : start + 8 ≤ 24) :
    (encodeCommand i).extractLsb' start 8 = i.arg.extractLsb' start 8 :=
  BitVec.extractLsb'_append_eq_of_add_le h

theorem decodeCommand_encodeCommand {i : Instr} (hi : i.isCommand = true) :
    decodeCommand (encodeCommand i) = .ok i := by
  simp only [decodeCommand, op_of_encodeCommand, arg_of_encodeCommand,
    byte_of_encodeCommand i (start := 16) (by decide), byte_of_encodeCommand i (start := 8) (by decide),
    byte_of_encodeCommand i (start := 0) (by decide)]
  cases i
  case exec | sub | fsub | fadd =>
    simp only [Instr.arg, flow_of_append, sink_of_append, low_of_append]
    rfl
  case frem | pset | pclr | clock | cunlock | vlock | vunlock | plock | punlock | hlock | hunlock | slock
    | sunlock => rfl
  all_goals cases hi

/-- The command words that decode are the words of the commands. -/
theorem decodeCommand_ok_iff {w : BitVec 32} {i : Instr} :
    decodeCommand w = .ok i ↔ i.isCommand = true ∧ encodeCommand i = w where
  mp h := ⟨isCommand_of_decodeCommand h, encodeCommand_of_decodeCommand h⟩
  mpr := fun ⟨hi, hw⟩ => hw ▸ decodeCommand_encodeCommand hi

/-! #### Micro-operations: UOP, REF and four bits 0 -/

theorem uop_of_encodeTask (i : Instr) : (encodeTask i).extractLsb' 8 8 = i.opcode :=
  (BitVec.extractLsb'_append_eq_of_le (by decide)).trans BitVec.extractLsb'_append_eq_left

theorem ref_of_encodeTask (i : Instr) : (encodeTask i).extractLsb' 4 4 = i.ref?.getD 0 :=
  (BitVec.extractLsb'_append_eq_of_le (by decide)).trans BitVec.extractLsb'_append_eq_right

theorem low_of_encodeTask (i : Instr) : (encodeTask i).extractLsb' 0 4 = 0 :=
  BitVec.extractLsb'_append_eq_right

/-- A task word is its three fields side by side (R90). -/
theorem taskWord_eq_append (w : BitVec 16) : w.extractLsb' 8 8 ++ w.extractLsb' 4 4 ++ w.extractLsb' 0 4 = w := by
  rw [BitVec.extractLsb'_append_extractLsb'_eq_extractLsb' (start₂ := 8) (start₁ := 4) rfl,
    BitVec.extractLsb'_append_extractLsb'_eq_extractLsb' (start₂ := 4) (start₁ := 0) rfl]
  exact BitVec.extractLsb'_eq_self

theorem noRef_ok {ref : BitVec 4} {i j : Instr} : noRef ref i = .ok j ↔ ref = 0 ∧ i = j := by
  unfold noRef
  split <;> simp_all

theorem decodeUop_opcode_ref {i : Instr} (hi : i.isCommand = false) :
    decodeUop i.opcode.toNat (i.ref?.getD 0) = .ok i := by
  cases i
  case exec | sub | fsub | fadd | frem | pset | pclr | clock | cunlock | vlock | vunlock | plock | punlock | hlock
    | hunlock | slock | sunlock => cases hi
  all_goals rfl

/-- UOP and REF that decode are those of the micro-operation they decode to (R91, R92). -/
theorem fields_of_decodeUop {uop : Nat} {ref : BitVec 4} {i : Instr} (h : decodeUop uop ref = .ok i) :
    uop = i.opcode.toNat ∧ ref = i.ref?.getD 0 := by
  unfold decodeUop at h
  split at h
  case h_9 | h_13 | h_14 | h_21 | h_22 | h_23 => -- VXLT, PFENC, PFDEC, SIP, SFK1, SFK2: REF is the operand
    cases h
    exact ⟨rfl, rfl⟩
  case h_27 => cases h
  all_goals -- the micro-operations without an operand: REF is 0
    obtain ⟨href, rfl⟩ := noRef_ok.1 h
    exact ⟨rfl, href⟩

theorem decodeTask_encodeTask {i : Instr} (hi : i.isCommand = false) : decodeTask (encodeTask i) = .ok i := by
  rw [decodeTask, if_pos (low_of_encodeTask i), uop_of_encodeTask, ref_of_encodeTask]
  exact decodeUop_opcode_ref hi

theorem encodeTask_of_decodeTask {w : BitVec 16} {i : Instr} (h : decodeTask w = .ok i) : encodeTask i = w := by
  unfold decodeTask at h
  split at h
  case isTrue hlow =>
    obtain ⟨huop, href⟩ := fields_of_decodeUop h
    have hw := taskWord_eq_append w
    rwa [BitVec.eq_of_toNat_eq huop, href, hlow] at hw
  case isFalse => cases h

/-- The task words that decode are the words of the micro-operations. -/
theorem decodeTask_ok_iff {w : BitVec 16} {i : Instr} :
    decodeTask w = .ok i ↔ i.isCommand = false ∧ encodeTask i = w where
  mp h := ⟨isCommand_of_decodeTask h, encodeTask_of_decodeTask h⟩
  mpr := fun ⟨hi, hw⟩ => hw ▸ decodeTask_encodeTask hi

/-! #### The round trips -/

theorem decodeTableWord_command {i : Instr} (hi : i.isCommand = true) :
    decodeTableWord i.width (encode i) = some i := by
  simp only [decodeTableWord, decodeWord, Instr.width, encode, hi, if_true, BitVec.ofNat_toNat, BitVec.setWidth_eq,
    decodeCommand_encodeCommand hi]

theorem decodeTableWord_task {i : Instr} (hi : i.isCommand = false) :
    decodeTableWord i.width (encode i) = some i := by
  simp [decodeTableWord, decodeWord, Instr.width, encode, hi, decodeTask_encodeTask hi]

/-- Settles O1: the decoder of either format reads from the word the fields that the encoder put there. -/
theorem decodeOfEncode : Obligations.DecodeOfEncode := by
  intro i
  cases hi : i.isCommand with
  | true => exact decodeTableWord_command hi
  | false => exact decodeTableWord_task hi

/-- Settles O2: every field of a word that decodes is kept in the instruction or is 0. -/
theorem encodeOfDecode : Obligations.EncodeOfDecode :=
  ⟨fun _ _ => decodeCommand_ok_iff.1, fun _ _ => decodeTask_ok_iff.1⟩

/-! #### The rows of the opcode table (R82, R85, R91, R92) -/

theorem append_inj {n m : Nat} {a a' : BitVec n} {b b' : BitVec m} (h : a ++ b = a' ++ b') : a = a' ∧ b = b' := by
  have hhigh := congrArg (BitVec.extractLsb' m n) h
  have hlow := congrArg (BitVec.extractLsb' 0 m) h
  rw [BitVec.extractLsb'_append_eq_left, BitVec.extractLsb'_append_eq_left] at hhigh
  rw [BitVec.extractLsb'_append_eq_right, BitVec.extractLsb'_append_eq_right] at hlow
  exact ⟨hhigh, hlow⟩

/-- Where a mask has only ones, the bits are those of the match. -/
theorem eq_of_and_allOnes_eq {n : Nat} {w m : BitVec n} (h : w &&& BitVec.allOnes n = m) : m = w :=
  h.symm.trans BitVec.and_allOnes

/-- A command word is its four bytes side by side (R81). -/
theorem exists_bytes (w : BitVec 32) : ∃ o f k l : BitVec 8, w = o ++ (f ++ k ++ l) :=
  ⟨w.extractLsb' 24 8, w.extractLsb' 16 8, w.extractLsb' 8 8, w.extractLsb' 0 8, by
    rw [← arg_eq_append w]
    exact (BitVec.extractLsb'_append_extractLsb' (w := 8) (len := 24)).symm⟩

/-- A word that matches a row has the row's OP, and 0 where the mask of ARG has its ones. -/
theorem bytes_of_row {w : BitVec 32} {op a b c : BitVec 8}
    (h : w &&& (BitVec.allOnes 8 ++ (a ++ b ++ c)) = op ++ (0#8 ++ 0#8 ++ 0#8)) :
    ∃ f k l : BitVec 8, w = op ++ (f ++ k ++ l) ∧ f &&& a = 0#8 ∧ k &&& b = 0#8 ∧ l &&& c = 0#8 := by
  obtain ⟨o, f, k, l, rfl⟩ := exists_bytes w
  obtain ⟨hop, harg⟩ := append_inj (BitVec.and_append.symm.trans h)
  obtain ⟨hflowSink, hlow⟩ := append_inj (BitVec.and_append.symm.trans harg)
  obtain ⟨hflow, hsink⟩ := append_inj (BitVec.and_append.symm.trans hflowSink)
  obtain rfl := eq_of_and_allOnes_eq hop
  exact ⟨f, k, l, rfl, hflow, hsink, hlow⟩

section
variable {w : BitVec 32} (op : BitVec 8)

/-- A row whose mask leaves out ARG: the immediate is free. -/
theorem immediate_of_row (h : w &&& (BitVec.allOnes 8 ++ (0#8 ++ 0#8 ++ 0#8)) = op ++ (0#8 ++ 0#8 ++ 0#8)) :
    ∃ imm : BitVec 24, op ++ imm = w := by
  obtain ⟨f, k, l, rfl, -⟩ := bytes_of_row h
  exact ⟨f ++ k ++ l, rfl⟩

/-- A row whose mask leaves out FLOW. -/
theorem flow_of_row
    (h : w &&& (BitVec.allOnes 8 ++ (0#8 ++ BitVec.allOnes 8 ++ BitVec.allOnes 8)) = op ++ (0#8 ++ 0#8 ++ 0#8)) :
    ∃ f : BitVec 8, op ++ (f ++ 0#8 ++ 0#8) = w := by
  obtain ⟨f, k, l, rfl, -, hsink, hlow⟩ := bytes_of_row h
  obtain rfl := eq_of_and_allOnes_eq hsink
  obtain rfl := eq_of_and_allOnes_eq hlow
  exact ⟨f, rfl⟩

/-- A row whose mask leaves out SINK. -/
theorem sink_of_row
    (h : w &&& (BitVec.allOnes 8 ++ (BitVec.allOnes 8 ++ 0#8 ++ BitVec.allOnes 8)) = op ++ (0#8 ++ 0#8 ++ 0#8)) :
    ∃ k : BitVec 8, op ++ (0#8 ++ k ++ 0#8) = w := by
  obtain ⟨f, k, l, rfl, hflow, -, hlow⟩ := bytes_of_row h
  obtain rfl := eq_of_and_allOnes_eq hflow
  obtain rfl := eq_of_and_allOnes_eq hlow
  exact ⟨k, rfl⟩

/-- A row whose mask leaves out FLOW and SINK. -/
theorem flow_sink_of_row
    (h : w &&& (BitVec.allOnes 8 ++ (0#8 ++ 0#8 ++ BitVec.allOnes 8)) = op ++ (0#8 ++ 0#8 ++ 0#8)) :
    ∃ f k : BitVec 8, op ++ (f ++ k ++ 0#8) = w := by
  obtain ⟨f, k, l, rfl, -, -, hlow⟩ := bytes_of_row h
  obtain rfl := eq_of_and_allOnes_eq hlow
  exact ⟨f, k, rfl⟩

end

/-- A row of a command without an operand has one word. -/
theorem command_of_full_row {w : BitVec 32} (i : Instr) (hi : i.isCommand = true)
    (h : w &&& BitVec.allOnes 32 = encodeCommand i) : ∃ i : Instr, i.isCommand = true ∧ encodeCommand i = w :=
  ⟨i, hi, eq_of_and_allOnes_eq h⟩

/-- A word that matches a row of the commands is the word of a command, with the operands in what the row's mask
leaves out. -/
theorem command_of_row {w : BitVec 32} :
    ∀ r ∈ commandRows, w &&& r.1 = r.2 → ∃ i : Instr, i.isCommand = true ∧ encodeCommand i = w := by
  simp only [commandRows, List.forall_mem_cons]
  refine ⟨fun h => ?exec, fun h => ?sub, fun h => ?fsub, fun h => ?fadd, command_of_full_row .frem rfl,
    fun h => ?pset, command_of_full_row .pclr rfl, fun h => ?clock, fun h => ?cunlock, command_of_full_row .vlock rfl,
    command_of_full_row .vunlock rfl, command_of_full_row .plock rfl, command_of_full_row .punlock rfl,
    command_of_full_row .hlock rfl, command_of_full_row .hunlock rfl, command_of_full_row .slock rfl,
    command_of_full_row .sunlock rfl, List.forall_mem_nil _⟩
  case exec => exact (flow_of_row 0x01 h).elim fun f hw => ⟨.exec f, rfl, hw⟩
  case sub => exact (flow_sink_of_row 0x02 h).elim fun f ⟨k, hw⟩ => ⟨.sub f k, rfl, hw⟩
  case fsub => exact (sink_of_row 0x03 h).elim fun k hw => ⟨.fsub k, rfl, hw⟩
  case fadd => exact (flow_of_row 0x04 h).elim fun f hw => ⟨.fadd f, rfl, hw⟩
  case pset => exact (immediate_of_row 0x06 h).elim fun imm hw => ⟨.pset imm, rfl, hw⟩
  case clock => exact (immediate_of_row 0x10 h).elim fun imm hw => ⟨.clock imm, rfl, hw⟩
  case cunlock => exact (immediate_of_row 0x11 h).elim fun imm hw => ⟨.cunlock imm, rfl, hw⟩

/-- Settles O3: each row names a command, and its word is the row's match with the operands put in. -/
theorem definedCommandWords : Obligations.DefinedCommandWords := by
  refine fun w => ⟨fun ⟨i, h⟩ => matches_row_of_decodeCommand h, fun ⟨r, hr, hm⟩ => ?_⟩
  obtain ⟨i, hi⟩ := command_of_row r hr hm
  exact ⟨i, decodeCommand_ok_iff.2 hi⟩

/-- The word of every micro-operation is the match of its row under the row's mask. -/
theorem tableWord_of_task {i : Instr} (hi : i.isCommand = false) : Laws.TableWord.Statement i := by
  cases i
  case vxlt r => exact Laws.TableWord.vxlt r
  case pfenc r => exact Laws.TableWord.pfenc r
  case pfdec r => exact Laws.TableWord.pfdec r
  case sip r => exact Laws.TableWord.sip r
  case sfk1 r => exact Laws.TableWord.sfk1 r
  case sfk2 r => exact Laws.TableWord.sfk2 r
  case exec | sub | fsub | fadd | frem | pset | pclr | clock | cunlock | vlock | vunlock | plock | punlock | hlock
    | hunlock | slock | sunlock => cases hi
  all_goals rfl

/-- The row of every micro-operation is one of the twenty-six. -/
theorem tableRow_mem_taskRows {i : Instr} (hi : i.isCommand = false) :
    ∃ r ∈ taskRows, tableRow i = (r.1.toNat, r.2.toNat) := by
  have hmem : tableRow i ∈ taskRows.map fun r => (r.1.toNat, r.2.toNat) := by
    cases i <;> simp [tableRow, taskRows, Instr.isCommand] at hi ⊢
  obtain ⟨r, hr, he⟩ := List.mem_map.1 hmem
  exact ⟨r, hr, he.symm⟩

/-- A task word that decodes matches a row of the opcode table. -/
theorem matches_row_of_decodeTask {w : BitVec 16} {i : Instr} (h : decodeTask w = .ok i) :
    ∃ r ∈ taskRows, w &&& r.1 = r.2 := by
  obtain ⟨hi, rfl⟩ := decodeTask_ok_iff.1 h
  obtain ⟨r, hr, hrow⟩ := tableRow_mem_taskRows hi
  have hw : encode i &&& (tableRow i).1 = (tableRow i).2 := tableWord_of_task hi
  simp only [encode, hi, Bool.false_eq_true, if_false, hrow, ← BitVec.toNat_and] at hw
  exact ⟨r, hr, BitVec.eq_of_toNat_eq hw⟩

/-- A row whose mask leaves out REF. -/
theorem ref_of_row {w : BitVec 16} (uop : BitVec 8)
    (h : w &&& (BitVec.allOnes 8 ++ 0#4 ++ BitVec.allOnes 4) = uop ++ 0#4 ++ 0#4) :
    ∃ r : BitVec 4, uop ++ r ++ 0#4 = w := by
  rw [← taskWord_eq_append w] at h
  obtain ⟨huopRef, hlow⟩ := append_inj (BitVec.and_append.symm.trans h)
  obtain ⟨huop, -⟩ := append_inj (BitVec.and_append.symm.trans huopRef)
  exact ⟨w.extractLsb' 4 4, by rw [eq_of_and_allOnes_eq huop, eq_of_and_allOnes_eq hlow, taskWord_eq_append]⟩

/-- A row of a micro-operation without an operand has one word. -/
theorem task_of_full_row {w : BitVec 16} (i : Instr) (hi : i.isCommand = false)
    (h : w &&& BitVec.allOnes 16 = encodeTask i) : ∃ i : Instr, i.isCommand = false ∧ encodeTask i = w :=
  ⟨i, hi, eq_of_and_allOnes_eq h⟩

/-- A word that matches a row of the micro-operations is the word of one, with the operand in what the row's mask
leaves out. -/
theorem task_of_row {w : BitVec 16} :
    ∀ r ∈ taskRows, w &&& r.1 = r.2 → ∃ i : Instr, i.isCommand = false ∧ encodeTask i = w := by
  simp only [taskRows, List.forall_mem_cons]
  refine ⟨task_of_full_row .ident rfl, task_of_full_row .upper rfl, task_of_full_row .a2v rfl,
    task_of_full_row .cadd rfl, task_of_full_row .v2a rfl, task_of_full_row .vfix rfl, task_of_full_row .vmkkey rfl,
    task_of_full_row .vneg rfl, fun h => ?vxlt, task_of_full_row .pffix rfl, task_of_full_row .pfufix rfl,
    task_of_full_row .pfkey rfl, fun h => ?pfenc, fun h => ?pfdec, task_of_full_row .hfix rfl,
    task_of_full_row .hmulk rfl, task_of_full_row .hmulu rfl, task_of_full_row .hv2a rfl,
    task_of_full_row .sframe rfl, task_of_full_row .skeys rfl, fun h => ?sip, fun h => ?sfk1, fun h => ?sfk2,
    task_of_full_row .ssw rfl, task_of_full_row .srip rfl, task_of_full_row .sunfr rfl, List.forall_mem_nil _⟩
  case vxlt => exact (ref_of_row 0x23 h).elim fun r hw => ⟨.vxlt r, rfl, hw⟩
  case pfenc => exact (ref_of_row 0x33 h).elim fun r hw => ⟨.pfenc r, rfl, hw⟩
  case pfdec => exact (ref_of_row 0x34 h).elim fun r hw => ⟨.pfdec r, rfl, hw⟩
  case sip => exact (ref_of_row 0x52 h).elim fun r hw => ⟨.sip r, rfl, hw⟩
  case sfk1 => exact (ref_of_row 0x53 h).elim fun r hw => ⟨.sfk1 r, rfl, hw⟩
  case sfk2 => exact (ref_of_row 0x54 h).elim fun r hw => ⟨.sfk2 r, rfl, hw⟩

/-- Settles O4: each row names a micro-operation, and its word is the row's match with REF put in. -/
theorem definedTaskWords : Obligations.DefinedTaskWords := by
  refine fun w => ⟨fun ⟨i, h⟩ => matches_row_of_decodeTask h, fun ⟨r, hr, hm⟩ => ?_⟩
  obtain ⟨i, hi⟩ := task_of_row r hr hm
  exact ⟨i, decodeTask_ok_iff.2 hi⟩

/-- Settles O5: ten words, decoded. -/
theorem wordsOfTheSpecDecode : Obligations.WordsOfTheSpecDecode := by
  unfold Obligations.WordsOfTheSpecDecode
  decide

/-! #### The step that executes the accepted command -/

/-- A step uses up a wait in an own step of the engine. -/
theorem step_of_wait {s : State} {rest : List EnvMove} (he : s.env = .wait :: rest) :
    step s = engineStep { s with env := rest } := by
  simp only [step, worldStep, he]

theorem engineStep_of_command {s : State} {w : BitVec 32} {i : Instr} (ha : s.activity = .command w)
    (hb : buildWf s.build = true) (hd : decodeCommand w = .ok i) : engineStep s = exec i s := by
  simp only [engineStep, ha, startCommand, if_pos hb, hd]

/-- Settles O6: in both cases the step is the engine's own, and that starts the command. -/
theorem stepRunsCommand : Obligations.StepRunsCommand := by
  refine fun s w i ha he hb hd => ⟨fun hw => ?_, fun rest henv => ?_⟩
  · rw [step_of_worldWaits (busy_of_command ha) he hw, engineStep_of_command ha hb hd]
  · rw [step_of_wait henv]
    exact engineStep_of_command ha hb hd

end Sys2Proof.Proofs

/-! ### The commands of the pipeline (spec/40_pipeline.md R120 to R130) -/

namespace Sys2Proof.Proofs

open Sys2Proof Sys2Proof.Machine

/-! #### Command words written out byte by byte (R81) -/

/-- OP, FLOW, SINK and the low byte side by side are OP and ARG. -/
theorem bytes_eq_op_arg (op f k l : BitVec 8) : op ++ f ++ k ++ l = op ++ (f ++ k ++ l) := by
  rw [BitVec.append_assoc (x₁ := op ++ f), BitVec.append_assoc (x₁ := op), BitVec.append_assoc (x₁ := f)]
  rfl

/-- OP, FLOW and sixteen bits 0 (EXEC, FADD). -/
theorem flow_word_eq_op_arg (op f : BitVec 8) : op ++ f ++ 0#16 = op ++ (f ++ 0#8 ++ 0#8) :=
  calc op ++ f ++ 0#16
    _ = op ++ f ++ 0#8 ++ 0#8 := by rw [BitVec.append_assoc (x₁ := op ++ f)]; rfl
    _ = op ++ (f ++ 0#8 ++ 0#8) := bytes_eq_op_arg op f 0 0

/-- A word that is the encoding of a command decodes to it. -/
theorem decodeCommand_of_eq {w : BitVec 32} {i : Instr} (h : w = encodeCommand i) (hi : i.isCommand = true) :
    decodeCommand w = .ok i := decodeCommand_ok_iff.2 ⟨hi, h.symm⟩

/-! #### What every command's end looks like -/

/-- A command that raises a code is the exception of that code. -/
theorem raisesAtOnce_of_raise {i : Instr} {s : State} {c : Code} (hx : exec i s = .next (s.raise c 0))
    (hc : c ≠ .ok) : RaisesAtOnce i s c c.num :=
  have hr := raise_raised s 0 hc
  ⟨_, hx, hr, completedAs_of_completed hr.completed⟩

/-- A command that writes REG, OBS or PARAMS and completes OK. -/
theorem succeed_completedAs (s : State) (reg : NameMap Nat) (obs : NatMap (List Nat)) (params : NameMap Int) :
    CompletedAs s .ok 0 0 { s with reg := reg, obs := obs, params := params }.succeed :=
  completedAs_of_completed
    { complete_completed { s with reg := reg, obs := obs, params := params } .ok 0 with
      rest := ⟨rfl, cell_congr rfl rfl rfl rfl, rfl, rfl, rfl, rfl, rfl, rfl, rfl, rfl, rfl, rfl, rfl⟩ }

/-! #### EXEC and the cipher commands launch (R120, R121) -/

theorem launches_of_launchIn {i : Instr} {s : State} {f : Nat} {pm : NameMap Int}
    (hx : exec i s = .next (s.launchIn f pm)) : Launches i s f pm :=
  ⟨_, hx, launch_launched s f _ pm⟩

/-- Settles O16: the test of the flow id decides between the launch and the exception. -/
theorem execLaunchesFlow : Obligations.ExecLaunchesFlow := by
  refine ⟨fun f => decodeCommand_of_eq (flow_word_eq_op_arg 0x01 f) rfl, fun f s => ⟨fun hf => ?_, fun hf => ?_⟩⟩
  · exact launches_of_launchIn (if_neg (Nat.not_le.2 hf))
  · exact raisesAtOnce_of_raise (if_pos hf) (by decide)

/-- Settles O17: each command is the launch of its own flow; PLOCK and PUNLOCK test the length first. -/
theorem cipherCommandsLaunch : Obligations.CipherCommandsLaunch := by
  intro s imm
  refine ⟨?clock, ?cunlock, ?vlock, ?vunlock, fun hlen => ⟨?plock, ?punlock⟩, ?hlock, ?hunlock, ?slock, ?sunlock⟩
  case plock | punlock => exact launches_of_launchIn (if_neg hlen)
  all_goals exact launches_of_launchIn rfl

/-! #### SUB and FSUB subscribe (R124, R125) -/

/-- The list of the flow gets the sink if it is not in it. -/
theorem subscribe_obsOf_same (s : State) (f k : Nat) :
    (s.subscribe f k).obsOf f = if k ∈ s.obsOf f then s.obsOf f else s.obsOf f ++ [k] := by
  rw [subscribe_obsOf]
  by_cases hk : k ∈ s.obsOf f <;> simp [hk]

theorem subscribe_obsOf_other (s : State) {f g : Nat} (k : Nat) (hg : g ≠ f) :
    (s.subscribe f k).obsOf g = s.obsOf g := by
  rw [subscribe_obsOf, if_neg fun h => hg h.1]

theorem subscribe_completedAs (s : State) (f k : Nat) : CompletedAs s .ok 0 0 (s.subscribe f k).succeed :=
  succeed_completedAs s s.reg (s.subscribe f k).obs s.params

theorem exec_sub_ok {f k : BitVec 8} {s : State} (hf : f.toNat < nflows s.build) (hk : k.toNat < s.build.nsinks) :
    exec (.sub f k) s = .next (s.subscribe f.toNat k.toNat).succeed :=
  (if_neg (Nat.not_le.2 hf)).trans (if_neg (Nat.not_le.2 hk))

theorem exec_sub_invalidObserver {f k : BitVec 8} {s : State} (hf : f.toNat < nflows s.build)
    (hk : s.build.nsinks ≤ k.toNat) : exec (.sub f k) s = .next (s.raise .invalidObserver 0) :=
  (if_neg (Nat.not_le.2 hf)).trans (if_pos hk)

/-- Settles O19: the two tests in their order, and then `subscribe`. -/
theorem subSubscribes : Obligations.SubSubscribes := by
  refine ⟨fun f k => decodeCommand_of_eq (bytes_eq_op_arg 0x02 f k 0) rfl, fun f k s =>
    ⟨fun hf => ?_, fun hf hk => ?_, fun hf hk => ?_⟩⟩
  · exact raisesAtOnce_of_raise (if_pos hf) (by decide)
  · exact raisesAtOnce_of_raise (exec_sub_invalidObserver hf hk) (by decide)
  · exact ⟨_, exec_sub_ok hf hk, subscribe_completedAs .., subscribe_obsOf_same s _ _,
      fun g => subscribe_obsOf_other s _, rfl, rfl, rfl, rfl⟩

/-- FSUB with an unbound name. -/
theorem exec_fsub_notFound {k : BitVec 8} {s : State} (hn : mapGet s.reg s.nameText = none) :
    exec (.fsub k) s = .next (s.raise .notFound 0) := by
  simp only [exec, execFsub, hn]

/-- FSUB with a bound name goes on as SUB does after its first test. -/
theorem exec_fsub_bound {k : BitVec 8} {s : State} {f : Nat} (hn : mapGet s.reg s.nameText = some f) :
    exec (.fsub k) s =
      if s.build.nsinks ≤ k.toNat then .next (s.raise .invalidObserver 0)
      else .next (s.subscribe f k.toNat).succeed := by
  simp only [exec, execFsub, hn]
  rfl

/-- Settles O20: the name is looked up, the sink tested, and then the list of the bound flow is the one of SUB. -/
theorem fsubSubscribes : Obligations.FsubSubscribes := by
  refine ⟨fun k => decodeCommand_of_eq (bytes_eq_op_arg 0x03 0 k 0) rfl, fun k s =>
    ⟨fun hn => ?_, fun f hn => ⟨fun hk => ?_, fun hk => ?_⟩⟩⟩
  · exact raisesAtOnce_of_raise (exec_fsub_notFound hn) (by decide)
  · exact raisesAtOnce_of_raise ((exec_fsub_bound hn).trans (if_pos hk)) (by decide)
  · exact ⟨_, (exec_fsub_bound hn).trans (if_neg (Nat.not_le.2 hk)), subscribe_completedAs ..,
      subscribe_obsOf_same s _ _, fun g => subscribe_obsOf_other s _, rfl, rfl, rfl, rfl⟩

/-! #### FADD and FREM write REG (R126, R127) -/

theorem exec_fadd_invalidName {f : BitVec 8} {s : State} (hn : s.nameText = []) :
    exec (.fadd f) s = .next (s.raise .invalidName 0) :=
  if_pos (List.length_eq_zero_iff.2 hn)

theorem exec_fadd_named {f : BitVec 8} {s : State} (hn : s.nameText ≠ []) :
    exec (.fadd f) s =
      if nflows s.build ≤ f.toNat then .next (s.raise .invalidFlow 0)
      else .next { s with reg := mapPut nameLt s.reg s.nameText f.toNat }.succeed :=
  if_neg (mt List.length_eq_zero_iff.1 hn)

/-- Settles O21: the two tests in their order, and then the name is put in REG. -/
theorem faddBinds : Obligations.FaddBinds := by
  refine ⟨fun f => decodeCommand_of_eq (flow_word_eq_op_arg 0x04 f) rfl, fun f s =>
    ⟨fun hn => ?_, fun hn hf => ?_, fun hn hf => ?_⟩⟩
  · exact raisesAtOnce_of_raise (exec_fadd_invalidName hn) (by decide)
  · exact raisesAtOnce_of_raise ((exec_fadd_named hn).trans (if_pos hf)) (by decide)
  · exact ⟨_, (exec_fadd_named hn).trans (if_neg (Nat.not_le.2 hf)), succeed_completedAs s _ s.obs s.params,
      mapGet_mapPut_same .., fun n => mapGet_mapPut_other _ _ _, rfl, rfl, rfl, rfl⟩

/-- Settles O22: the name is taken out of REG, whether it is there or not. -/
theorem fremUnbinds : Obligations.FremUnbinds :=
  ⟨decodeCommand_of_eq rfl rfl, fun s => ⟨_, rfl, succeed_completedAs s _ s.obs s.params, mapGet_mapDel_same ..,
    fun _ => mapGet_mapDel_other _, rfl, rfl, rfl, rfl⟩⟩

/-! #### PSET and PCLR write PARAMS (R128, R129) -/

/-- Settles O23: PSET puts the name in PARAMS, PCLR empties it, and neither has a test. -/
theorem parameterCommands : Obligations.ParameterCommands := by
  refine ⟨fun imm => decodeCommand_of_eq rfl rfl, decodeCommand_of_eq rfl rfl, fun imm s => ?pset, fun s => ?pclr⟩
  case pset =>
    exact ⟨_, rfl, succeed_completedAs s s.reg s.obs _, mapGet_mapPut_same .., fun n => mapGet_mapPut_other _ _ _,
      rfl, rfl, rfl, rfl⟩
  case pclr => exact ⟨_, rfl, succeed_completedAs s s.reg s.obs [], rfl, rfl, rfl, rfl, rfl⟩

/-! #### IDENT (R130) -/

/-- Settles O24: IDENT's function returns PREV and reads no shape. -/
theorem identReturnsPrev : Obligations.IdentReturnsPrev :=
  ⟨by decide, fun _ _ _ h => returns_of_ok (u := uopIdent) (ref := none) rfl h rfl⟩

end Sys2Proof.Proofs

/-! ### Executions, task by task (spec/40_pipeline.md R115 to R119) -/

namespace Sys2Proof.Proofs

open Sys2Proof Sys2Proof.Machine

/-! #### The step that executes the task at STEP -/

theorem engineStep_of_task {s : State} {t : Task} {pm : NameMap Int} {i : Instr} (h : TaskReady s t pm)
    (hd : decodeTask t.word = .ok i) : engineStep s = exec i s := by
  obtain ⟨ts, hts, ht⟩ := Option.bind_eq_some_iff.1 h.task
  simp only [engineStep, h.running, h.noEvent, runStep, hts, ht, hd]

/-- Settles O7: in both cases the step is the engine's own, and that runs the task at STEP. -/
theorem stepRunsTask : Obligations.StepRunsTask := by
  refine fun s t pm i h hd => ⟨fun hw => ?_, fun rest henv => ?_⟩
  · rw [step_of_worldWaits (busy_of_running h.running) h.noEvent hw, engineStep_of_task h hd]
  · rw [step_of_wait henv]
    exact engineStep_of_task ⟨h.running, h.noEvent, h.task⟩ hd

/-! #### An execution without sinks and outside moves -/

/-- In `s` an execution of flow `f` with the tasks `ts` and the mapping `pm` has done `k` tasks, PREV holds `v`, no
sink listens and no outside move is to come. -/
structure Executing (f : Nat) (ts : List Task) (pm : NameMap Int) (k : Nat) (v : Value) (s : State) : Prop where
  activity : s.activity = .running pm
  evp : s.evp = none
  env : s.env = []
  noSink : s.obsOf f = []
  flow : s.flow = ⟨f, true⟩
  tasks : s.build.tasks[f]? = some ts
  stepIdx : s.stepIdx = k
  prev : s.prev = v

section
variable {s : State} {f : Nat} {ts : List Task} {pm : NameMap Int} {k : Nat} {v : Value}

theorem Executing.flowTasks (h : Executing f ts pm k v s) : s.flowTasks? = some ts := by
  rw [State.flowTasks?, h.flow, h.tasks]

theorem Executing.taskReady (h : Executing f ts pm k v s) {t : Task} (ht : ts[k]? = some t) : TaskReady s t pm :=
  ⟨h.activity, h.evp, by rw [State.task?, h.flowTasks, Option.bind_some, h.stepIdx, ht]⟩

/-- A launch with no sink and no outside move begins an execution. -/
theorem executing_launch (input : Value) (he : s.evp = none) (henv : s.env = []) (hobs : s.obsOf f = [])
    (ht : s.build.tasks[f]? = some ts) : Executing f ts pm 0 input (s.launch f input pm) :=
  ⟨rfl, he, henv, hobs, rfl, ht, rfl, rfl⟩

/-- A task that returned leaves the execution one task further. -/
theorem Executing.of_taskDone (h : Executing f ts pm k v s) {t : Task} {v' : Value} {s' : State}
    (hd : TaskDone s t v' s') : Executing f ts pm (k + 1) v' s' := by
  have hsinks : s.sinks = [] := by rw [State.sinks, h.flow, h.noSink]
  obtain ⟨hevp, hstep⟩ := hd.noSink hsinks
  exact
    { activity := hd.activity.trans h.activity
      evp := hevp
      env := hd.rest.env.trans h.env
      noSink := (obsOf_congr hd.obs f).trans h.noSink
      flow := hd.flow.trans h.flow
      tasks := hd.rest.build.symm ▸ h.tasks
      stepIdx := hstep.trans (congrArg (· + 1) h.stepIdx)
      prev := hd.prev }

/-- After the last task the step ends the execution. -/
theorem Executing.step_at_end (h : Executing f ts pm k v s) (hk : k = ts.length) : step s = .next s.finish :=
  Proofs.step_at_end h.activity h.evp h.flowTasks (h.stepIdx.trans hk) (.inl h.env)

end

/-- A run of one step more. -/
theorem run_succ_of_step {s s' : State} (h : step s = .next s') (n : Nat) :
    Host.Core.run Sys2Proof.core (n + 1) s = Host.Core.run Sys2Proof.core n s' := by
  have h' : Sys2Proof.core.step s = .next s' := h
  simp only [Host.Core.run, h']

/-! #### The built-in flows (R115) -/

/-- Flows 0 to 9 have the names and words of R115. -/
theorem flowShape_of_buildWf {b : Build} (hb : buildWf b = true) {f : Nat} (hf : f < 10) :
    b.tasks[f]?.map flowShape = builtinFlows[f]?.map flowShape := by
  have hshape : (b.tasks.take 10).map flowShape = builtinFlows.map flowShape := by
    simp only [buildWf, Bool.and_eq_true, decide_eq_true_eq] at hb
    tauto
  have h := congrArg (·[f]?) hshape
  simpa only [List.getElem?_map, List.getElem?_take, if_pos hf] using h

theorem flowShape_length (ts : List Task) : (flowShape ts).length = ts.length := List.length_map _

/-- The task at a position of a flow, by its name and its word. -/
theorem task_of_flowShape {ts : List Task} {k : Nat} {n : Str} {w : BitVec 16} (h : (flowShape ts)[k]? = some (n, w)) :
    ∃ t, ts[k]? = some t ∧ t.name = n ∧ t.word = w := by
  rw [flowShape, List.getElem?_map] at h
  obtain ⟨t, ht, he⟩ := Option.map_eq_some_iff.1 h
  obtain ⟨hn, hw⟩ := Prod.mk.inj he
  exact ⟨t, ht, hn, hw⟩

/-- The step runs the task at STEP, given by its name and its word, if the micro-operation returns. -/
theorem Executing.step_of_returns {s : State} {f : Nat} {ts : List Task} {pm : NameMap Int} {k : Nat} {v v' : Value}
    {n : Str} {w : BitVec 16} {i : Instr} (h : Executing f ts pm k v s) (hk : (flowShape ts)[k]? = some (n, w))
    (hd : decodeTask w = .ok i) (hr : ∀ t, t.name = n → TaskReady s t pm → Returns i s t v') :
    ∃ s', step s = .next s' ∧ Executing f ts pm (k + 1) v' s' := by
  obtain ⟨t, ht, hn, rfl⟩ := task_of_flowShape hk
  have hready : TaskReady s t pm := h.taskReady ht
  obtain ⟨s', hx, hdone⟩ := hr t hn hready
  exact ⟨s', ((stepRunsTask s t pm i hready hd).1 (.inl h.env)).trans hx, h.of_taskDone hdone⟩

end Sys2Proof.Proofs

/-! ### CLOCK from acceptance to completion (spec/41_caesar.md R151, R153 to R156) -/

namespace Sys2Proof.Proofs

open Sys2Proof Sys2Proof.Machine

/-! #### The four micro-operations, where they return -/

section
variable {s : State} {t : Task} {pm : NameMap Int} (h : TaskReady s t pm)
include h

theorem returns_upper {m : Str} (hp : s.prev = .str m) : Returns .upper s t (.str (m.map upper)) :=
  returns_of_ok (u := uopUpper) (ref := none) rfl h (by simp [uopUpper, operandsOf, except_bind_ok, asStr_ok, hp])

theorem returns_a2v {m : Str} (hp : s.prev = .str m) (hm : m.all isLetter = true) :
    Returns .a2v s t (.ints (m.map sym)) := by
  refine returns_of_ok (u := uopA2v) (ref := none) rfl h ?_
  simp only [uopA2v, operandsOf, except_bind_ok, asStr_ok, symbols_ok]
  exact ⟨m, hp, _, ⟨hm, rfl⟩, rfl⟩

theorem returns_cadd {vs : List Int} {k : Int} (hp : s.prev = .ints vs) (hk : mapGet pm t.name = some k) :
    Returns .cadd s t (.ints (vs.map fun v => ((mod26 (v + k)).val : Int))) := by
  refine returns_of_ok (u := uopCadd) (ref := none) rfl h ?_
  simp only [uopCadd, operandsOf, except_bind_ok, asInts_ok, present_ok]
  exact ⟨vs, hp, k, hk, rfl⟩

/-- V2A of symbols, which are neither negative nor above 25. -/
theorem returns_v2a {vs : List Symbol} (hp : s.prev = .ints (vs.map fun v => (v.val : Int))) :
    Returns .v2a s t (.str (vs.map fun v => chr26 (mod26 v.val))) := by
  have hsmall : prevTooLarge s.prev = false := by
    simp only [hp, prevTooLarge, List.any_map, List.any_eq_false, Function.comp_apply, decide_eq_true_eq]
    omega
  have hpos : (vs.map fun v => (v.val : Int)).any (fun v => decide (v < 0)) = false := by
    simp only [List.any_map, List.any_eq_false, Function.comp_apply, decide_eq_true_eq]
    omega
  refine returns_of_ok (u := uopV2a) (ref := none) (by simp only [exec, execV2a, hsmall]; rfl) h ?_
  simp only [uopV2a, operandsOf, except_bind_ok, asInts_ok]
  exact ⟨_, hp, by rw [hpos]; simp⟩

end

/-- A symbol is its own residue. -/
theorem mod26_of_symbol (v : Symbol) : mod26 v.val = v := by
  have h := mod26_val v.val
  exact Fin.ext (by omega)

/-- The names and words of flows 0 and 1 (R115). -/
def caesarShape : List (Str × BitVec 16) :=
  [(strOf "upper", 0x1000), (strOf "toValues", 0x1100), (strOf "shift", 0x1200), (strOf "toLetters", 0x1300)]

/-- An execution of a Caesar flow on a message of letters does its four tasks and ends. -/
theorem caesar_run {f : Nat} {ts : List Task} {k : Int} {m : Str} {s : State}
    (h : Executing f ts [(strOf "shift", k)] 0 (.str m) s) (hts : flowShape ts = caesarShape)
    (hm : ∀ c ∈ m, isLetter (upper c) = true) :
    ∃ u, Host.Core.run Sys2Proof.core 5 s = .next u.finish ∧
      Executing f ts [(strOf "shift", k)] 4 (.str (m.map fun c => chr26 (mod26 (sym (upper c) + k)))) u := by
  have hlen : 4 = ts.length := by rw [← flowShape_length, hts]; rfl
  have hletters : (m.map upper).all isLetter = true := by simpa using hm
  obtain ⟨s₁, hs₁, h₁⟩ := h.step_of_returns (by rw [hts]; rfl) (i := .upper) (by decide)
    fun t _ ht => returns_upper ht h.prev
  obtain ⟨s₂, hs₂, h₂⟩ := h₁.step_of_returns (by rw [hts]; rfl) (i := .a2v) (by decide)
    fun t _ ht => returns_a2v ht h₁.prev hletters
  obtain ⟨s₃, hs₃, h₃⟩ := h₂.step_of_returns (by rw [hts]; rfl) (i := .cadd) (by decide)
    fun t hn ht => returns_cadd ht h₂.prev (show mapGet _ t.name = some k by rw [hn, mapGet, if_pos rfl])
  have hsymbols : s₃.prev = .ints ((m.map fun c => mod26 (sym (upper c) + k)).map fun v => (v.val : Int)) := by
    simp [h₃.prev]
  obtain ⟨s₄, hs₄, h₄⟩ := h₃.step_of_returns (by rw [hts]; rfl) (i := .v2a) (by decide)
    fun t _ ht => returns_v2a ht hsymbols
  refine ⟨s₄, ?_, by simpa [mod26_of_symbol, Function.comp_def] using h₄⟩
  rw [run_succ_of_step hs₁, run_succ_of_step hs₂, run_succ_of_step hs₃, run_succ_of_step hs₄,
    run_succ_of_step (h₄.step_at_end hlen)]
  rfl

/-- Settles O56: the launch, the four tasks of flow 0, and the end. -/
theorem clockEncryptsText : Obligations.ClockEncryptsText := by
  intro s imm w ha hd he henv hb hobs hm
  obtain ⟨ts, hts, hshape⟩ := Option.map_eq_some_iff.1 (flowShape_of_buildWf hb (f := 0) (by decide))
  have hlaunch : step s = .next (s.launchIn 0 [(strOf "shift", imm.toInt)]) :=
    (stepRunsCommand s w _ ha he hb hd).1 (.inl henv)
  obtain ⟨u, hrun, hu⟩ := caesar_run (executing_launch (.str s.inText) he henv hobs hts) hshape hm
  exact ⟨u.finish, (run_succ_of_step hlaunch 5).trans hrun, rfl, rfl, rfl, hu.prev, hu.flow, hu.stepIdx⟩

end Sys2Proof.Proofs

/-! ### A shift and its negation (spec/41_caesar.md R157) -/

namespace Sys2Proof.Proofs

open Sys2Proof Sys2Proof.Machine

/-! #### Symbols and letters -/

theorem isLetter_chr26 (v : Symbol) : isLetter (chr26 v) = true := by
  revert v
  decide

theorem sym_chr26 (v : Symbol) : sym (chr26 v) = v.val := by
  revert v
  decide

theorem mod26_congr {x y : Int} (h : x % 26 = y % 26) : mod26 x = mod26 y := by
  rw [← mod26_val, ← mod26_val] at h
  exact Fin.ext (Int.ofNat.inj h)

/-- An integer 0 to 25 is its own residue. -/
theorem mod26_val_of_range {x : Int} (h₀ : 0 ≤ x) (h₁ : x ≤ 25) : ((mod26 x).val : Int) = x := by
  rw [mod26_val]
  omega

theorem sym_injective {c d : Byte} (h : sym c = sym d) : c = d := by
  unfold sym at h
  exact BitVec.eq_of_toNat_eq (by omega)

/-- A letter is the letter of its symbol. -/
theorem chr26_mod26_sym {c : Byte} (h : isLetter c = true) : chr26 (mod26 (sym c)) = c := by
  obtain ⟨h₀, h₁⟩ := sym_range h
  exact sym_injective (by rw [sym_chr26, mod26_val_of_range h₀ h₁])

/-- Uppercasing leaves a letter as it is. -/
theorem upper_of_isLetter {c : Byte} (h : isLetter c = true) : upper c = c := by
  rw [isLetter_iff] at h
  exact if_neg (by omega)

/-- Settles O55: the residues of `sym c + k - k` and of `sym c` are the same, and a letter is that of its symbol. -/
theorem shiftIsUndone : Obligations.ShiftIsUndone := by
  refine fun c k hc => ⟨isLetter_chr26 _, ?_⟩
  have hres : mod26 (sym (chr26 (mod26 (sym c + k))) - k) = mod26 (sym c) :=
    mod26_congr (by rw [sym_chr26, mod26_val]; omega)
  rw [hres, chr26_mod26_sym hc]

/-! #### CUNLOCK from acceptance to completion (R152) -/

/-- CUNLOCK `k`, run to its end on a message of letters, shifts every letter by `-k`. -/
theorem cunlock_run {u : State} {imm : BitVec 24} {w : BitVec 32} (ha : u.activity = .command w)
    (hd : decodeCommand w = .ok (.cunlock imm)) (he : u.evp = none) (henv : u.env = []) (hb : buildWf u.build = true)
    (hobs : u.obsOf 1 = []) (hm : ∀ c ∈ u.inText, isLetter (upper c) = true) :
    ∃ u', Host.Core.run Sys2Proof.core 6 u = .next u' ∧ u'.busy = false ∧ u'.err = ⟨.ok, 0⟩ ∧ u'.ovalid = true ∧
      u'.out = .str (u.inText.map fun c => chr26 (mod26 (sym (upper c) - imm.toInt))) := by
  obtain ⟨ts, hts, hshape⟩ := Option.map_eq_some_iff.1 (flowShape_of_buildWf hb (f := 1) (by decide))
  have hlaunch : step u = .next (u.launchIn 1 [(strOf "shift", -imm.toInt)]) :=
    (stepRunsCommand u w _ ha he hb hd).1 (.inl henv)
  obtain ⟨u', hrun, hu'⟩ := caesar_run (executing_launch (.str u.inText) he henv hobs hts) hshape hm
  exact ⟨u'.finish, (run_succ_of_step hlaunch 5).trans hrun, rfl, rfl, rfl, hu'.prev⟩

/-- Settles O57: CLOCK leaves letters, each of which CUNLOCK shifts back. -/
theorem cunlockUndoesClock : Obligations.CunlockUndoesClock := by
  intro s imm w ha hd he henv hb hobs hm
  obtain ⟨s₁, hrun, -, -, -, hout, -, -⟩ := clockEncryptsText s imm w ha hd he henv hb hobs hm
  refine ⟨s₁, _, hrun, hout, fun u v ha' hd' he' henv' hb' hobs' htext => ?_⟩
  have hletter (c : Byte) (hc : c ∈ u.inText) : isLetter c = true := by
    rw [htext] at hc
    obtain ⟨d, -, rfl⟩ := List.mem_map.1 hc
    exact isLetter_chr26 _
  obtain ⟨u₁, hrun', hbusy, herr, hov, hout'⟩ := cunlock_run ha' hd' he' henv' hb' hobs'
    fun c hc => by rw [upper_of_isLetter (hletter c hc)]; exact hletter c hc
  refine ⟨u₁, hrun', hbusy, herr, hov, hout'.trans (congrArg Value.str ?_)⟩
  rw [htext, List.map_map]
  refine List.map_congr_left fun c hc => ?_
  rw [Function.comp_apply, upper_of_isLetter (isLetter_chr26 _)]
  exact (shiftIsUndone (upper c) imm.toInt (hm c hc)).2

/-! ### A2V, CADD and V2A: the value or the exception (spec/41_caesar.md R154 to R156) -/

theorem asInts_typeError {v : Value} (h : ∀ vs, v ≠ .ints vs) : asInts v = .error .typeError :=
  asInts_error.2 ⟨rfl, h⟩

theorem all_isLetter_eq_false_iff (m : Str) :
    m.all isLetter = false ↔ ∃ c ∈ m, c.toNat < 65 ∨ 90 < c.toNat := by
  simp [isLetter, List.all_eq_false, imp_iff_not_or]

/-- Settles O26: A2V maps `sym` over a string of letters; `symbols` raises on any other. -/
theorem a2vMapsLetters : Obligations.A2vMapsLetters := by
  refine ⟨by decide, fun s t pm h => ⟨fun m hp hall => ?_, fun m hp hout => ?_, fun hp => ?_⟩⟩
  · exact returns_a2v h hp ((all_isLetter_iff m).2 hall)
  · refine raisesInTaskAs_of_error (u := uopA2v) (ref := none) rfl h (by decide) ?_
    have hsym : symbols m = .error .invalidInput := symbols_error.2 ⟨rfl, (all_isLetter_eq_false_iff m).2 hout⟩
    exact (except_bind_error ..).2 (.inr ⟨m, asStr_ok.2 hp, (except_bind_error ..).2 (.inl hsym)⟩)
  · refine raisesInTaskAs_of_error (u := uopA2v) (ref := none) rfl h (by decide) ?_
    exact (except_bind_error ..).2 (.inl (asStr_typeError hp))

/-- Settles O27: CADD takes the residues of the sums; its two operands are read one after the other. -/
theorem caddAddsParameter : Obligations.CaddAddsParameter := by
  refine ⟨by decide, fun s t pm h => ⟨fun vs k hp hk => ?_, fun vs hp hk => ?_, fun hp => ?_⟩⟩
  · simpa only [mod26_val] using returns_cadd h hp hk
  · refine raisesInTaskAs_of_error (u := uopCadd) (ref := none) rfl h (by decide) ?_
    have hpar : present (mapGet pm t.name) = .error .typeError := present_error.2 ⟨rfl, hk⟩
    exact (except_bind_error ..).2 (.inr ⟨vs, asInts_ok.2 hp, (except_bind_error ..).2 (.inl hpar)⟩)
  · refine raisesInTaskAs_of_error (u := uopCadd) (ref := none) rfl h (by decide) ?_
    exact (except_bind_error ..).2 (.inl (asInts_typeError hp))

/-- On a Value of R18 V2A is its function of the operands. -/
theorem exec_v2a_of_wf {s : State} (h : s.prev.wf = true) : exec .v2a s = runTask uopV2a none s :=
  if_neg (by simp [prevTooLarge_of_wf h])

/-- V2A on an integer list is the test for a negative element and then the letters. -/
theorem uopV2a_ints {o : Operands} {vs : List Int} (h : o.prev = .ints vs) :
    uopV2a o = if vs.any fun v => decide (v < 0) then .error .typeError
      else .ok (.str (vs.map fun v => chr26 (mod26 v))) := by
  rw [uopV2a, asInts_ok.2 h]
  rfl

theorem chr26_eq_ofInt (v : Symbol) : chr26 v = BitVec.ofInt 8 (65 + v.val) := by
  revert v
  decide

/-- Settles O28: on a Value of R18 V2A tests for a negative element and maps `chr26`. -/
theorem v2aMapsValues : Obligations.V2aMapsValues := by
  refine ⟨by decide, fun s t pm h hwf => ⟨fun vs hp hpos => ?_, fun vs hp hneg => ?_, fun hp => ?_⟩⟩
  · refine returns_of_ok (exec_v2a_of_wf hwf) h ?_
    have hnone : ¬ (vs.any fun v => decide (v < 0)) = true := by simpa using hpos
    have hletters : (vs.map fun v => chr26 (mod26 v)) = vs.map fun v => BitVec.ofInt 8 (65 + v) := by
      refine List.map_congr_left fun v hv => ?_
      have hmax : v ≤ 25 := (ints_wf.1 (hp ▸ hwf) v hv).2
      rw [chr26_eq_ofInt, mod26_val_of_range (hpos v hv) hmax]
    rw [uopV2a_ints hp, if_neg hnone, hletters]
  · refine raisesInTaskAs_of_error (exec_v2a_of_wf hwf) h (by decide) ?_
    rw [uopV2a_ints hp, if_pos (by simpa using hneg)]
  · refine raisesInTaskAs_of_error (exec_v2a_of_wf hwf) h (by decide) ?_
    exact (except_bind_error ..).2 (.inl (asInts_typeError hp))

end Sys2Proof.Proofs

/-! ### VMKKEY, VNEG and VXLT (spec/42_vigenere.md R174 to R176) -/

namespace Sys2Proof.Proofs

open Sys2Proof Sys2Proof.Machine

/-! #### VMKKEY -/

theorem vigKeyWf_of_cfgWf {c : Cfg} (h : cfgWf c = true) : vigKeyWf c.vigKey = true := by
  simp only [cfgWf, Bool.and_eq_true] at h
  obtain ⟨⟨⟨hvig, -⟩, -⟩, -⟩ := h
  exact hvig

theorem length_pos_of_vigKeyWf {key : Str} (h : vigKeyWf key = true) : 0 < key.length := by
  rw [vigKeyWf, Bool.and_eq_true, Bool.not_eq_true', List.isEmpty_eq_false_iff] at h
  exact List.length_pos_iff.2 h.1

theorem keyStream_length (key : Str) (n : Nat) : (keyStream key n).length = n := by
  simp [keyStream]

/-- The key stream repeats the values of a key word that is not empty. -/
theorem keyStream_getElem? {key : Str} (hk : 0 < key.length) {j n : Nat} (hj : j < n) :
    (keyStream key n)[j]? = key[j % key.length]?.map fun c => sym (upper c) := by
  have hlt : j % key.length < key.length := Nat.mod_lt j hk
  simp [keyStream, hj, hlt]

/-- VMKKEY under a key word that R33(a) allows is its function of the operands. -/
theorem exec_vmkkey_of_wf {s : State} (h : vigKeyWf s.build.cfg.vigKey = true) :
    exec .vmkkey s = runTask uopVmkkey none s :=
  if_pos h

/-- Settles O30: VMKKEY returns the key stream of PREV's length. -/
theorem vmkkeyRepeatsKey : Obligations.VmkkeyRepeatsKey := by
  refine ⟨by decide, fun s t pm h hcfg => ?_⟩
  have hkey := vigKeyWf_of_cfgWf hcfg
  have hx := exec_vmkkey_of_wf hkey
  refine ⟨fun vs hp => ⟨keyStream s.build.cfg.vigKey vs.length, keyStream_length _ _, fun j hj => ?_, ?_⟩, fun hp => ?_⟩
  · exact keyStream_getElem? (length_pos_of_vigKeyWf hkey) hj
  · exact returns_of_ok hx h ((except_bind_ok ..).2 ⟨vs, asInts_ok.2 hp, rfl⟩)
  · exact raisesInTaskAs_of_error hx h (by decide) ((except_bind_error ..).2 (.inl (asInts_typeError hp)))

/-! #### VNEG -/

/-- Settles O31: VNEG maps the negation over PREV and reduces nothing. -/
theorem vnegNegates : Obligations.VnegNegates := by
  refine ⟨by decide, fun s t pm h => ⟨fun vs hp => ?_, fun hp => ?_⟩⟩
  · exact returns_of_ok (u := uopVneg) (ref := none) rfl h ((except_bind_ok ..).2 ⟨vs, asInts_ok.2 hp, rfl⟩)
  · have huop : uopVneg (operandsOf s t pm none) = .error .typeError :=
      (except_bind_error ..).2 (.inl (asInts_typeError hp))
    obtain ⟨s', hx, hraised, -⟩ := raisesInTaskAs_of_error (i := .vneg) rfl h (by decide) huop
    exact ⟨s', hx, hraised⟩

/-! #### VXLT -/

/-- `translate` in codes (R11, R176). -/
theorem translate_eq_zipWith_ofInt (vals keys : List Int) :
    Machine.translate vals keys = List.zipWith (fun v k => BitVec.ofInt 8 (65 + (v + k) % 26)) vals keys := by
  simp only [Machine.translate, chr26_eq_ofInt, mod26_val]

/-- VXLT on two integer lists is the test of their lengths and then `translate`. -/
theorem uopVxlt_ints {o : Operands} {vals keys : List Int} (hp : o.prev = .ints keys)
    (hr : o.refval = some (.ints vals)) :
    uopVxlt o = if vals.length ≠ keys.length then .error .typeError else .ok (.str (Machine.translate vals keys)) := by
  rw [uopVxlt, asInts_ok.2 hp, present_ok.2 hr]
  rfl

/-- A RES entry that is missing or no integer list. -/
theorem present_asInts_typeError {α : Type} {o : Option Value} (h : ∀ vs, o ≠ some (.ints vs))
    (f : List Int → Except Code α) : (present o >>= fun v => asInts v >>= f) = .error .typeError := by
  cases o with
  | none => rfl
  | some v =>
    have hv := asInts_typeError fun vs e => h vs (congrArg some e)
    exact congrArg (· >>= f) hv

/-- Where RES has no integer list for REF, VXLT raises TypeError, whatever PREV is. -/
theorem uopVxlt_refval_typeError {o : Operands} (h : ∀ vals, o.refval ≠ some (.ints vals)) :
    uopVxlt o = .error .typeError := by
  rw [uopVxlt, except_bind_error]
  cases hp : asInts o.prev with
  | error c => exact .inl (congrArg _ (asInts_error.1 hp).1)
  | ok keys => exact .inr ⟨keys, rfl, present_asInts_typeError h _⟩

/-- Settles O32: the two operands are read one after the other, their lengths tested, and the sums mapped to letters. -/
theorem vxltTranslates : Obligations.VxltTranslates := by
  refine ⟨fun r => decodeTask_ok_iff.2 ⟨rfl, rfl⟩, fun s t pm r h => ⟨fun vals keys hp hr hlen => ?_,
    fun vals keys hp hr hlen => ?_, fun hp => ?_, fun hr => ?_⟩⟩
  · refine returns_of_ok (u := uopVxlt) (ref := some r) rfl h ?_
    rw [uopVxlt_ints hp hr, if_neg (not_not.2 hlen), translate_eq_zipWith_ofInt]
  · refine raisesInTaskAs_of_error (u := uopVxlt) (ref := some r) rfl h (by decide) ?_
    rw [uopVxlt_ints hp hr, if_pos hlen]
  · refine raisesInTaskAs_of_error (u := uopVxlt) (ref := some r) rfl h (by decide) ?_
    exact (except_bind_error ..).2 (.inl (asInts_typeError hp))
  · exact raisesInTaskAs_of_error (u := uopVxlt) (ref := some r) rfl h (by decide) (uopVxlt_refval_typeError hr)

end Sys2Proof.Proofs

/-! ### The Playfair unit (spec/43_playfair.md R190 to R200) -/

namespace Sys2Proof.Proofs

open Sys2Proof Sys2Proof.Machine

/-! #### PLOCK and PUNLOCK on an empty input (R193) -/

theorem shortCircuit_completed (s : State) : Completed s .ok 0 s.shortCircuit :=
  { complete_completed { s with out := .str [], ovalid := true } .ok 0 with
    rest := ⟨rfl, cell_congr rfl rfl rfl rfl, rfl, rfl, rfl, rfl, rfl, rfl, rfl, rfl, rfl, rfl, rfl⟩ }

/-- OUTTAG is the tag 0 of a string, with OVALID. -/
theorem shortCircuit_outTagWord (s : State) : s.shortCircuit.outTagWord = 8 :=
  (show s.shortCircuit.outTagWord = 0#28 ++ 1#1 ++ 0#3 from rfl).trans (by decide)

/-- Settles O18: both commands test the length of IN and take the short-circuit. -/
theorem playfairShortCircuit : Obligations.PlayfairShortCircuit := by
  intro i s hi hlen
  have hx : exec i s = .next s.shortCircuit := by rcases hi with rfl | rfl <;> exact if_pos hlen
  exact ⟨_, hx, completedAs_of_completed (shortCircuit_completed s), rfl, rfl, shortCircuit_outTagWord s,
    rfl, rfl, rfl, rfl⟩

/-! #### PFUFIX: digraphs (R197) -/

/-- The letters of the digraphs of a string of even length are its own. -/
theorem digraphs_letters {m : Str} (h : m.length % 2 = 0) : (digraphs m).flatMap (fun p => [p.1, p.2]) = m := by
  fun_induction digraphs m with
  | case1 a b rest ih =>
    have hrest : rest.length % 2 = 0 := by
      simp only [List.length_cons] at h
      omega
    exact congrArg (a :: b :: ·) (ih hrest)
  | case2 => cases h
  | case3 => rfl

/-- PFUFIX on a string is the test of its length and then the digraphs. -/
theorem uopPfufix_str {o : Operands} {m : Str} (h : o.prev = .str m) :
    uopPfufix o = if m.length % 2 = 1 then .error .invalidInput else .ok (.pairs (digraphs (m.map upper))) := by
  rw [uopPfufix, asStr_ok.2 h]
  rfl

/-- Settles O34: the length decides between the digraphs of the uppercased string and the exception. -/
theorem pfufixSplits : Obligations.PfufixSplits := by
  refine ⟨by decide, fun s t pm h => ⟨fun m hp hlen => ?_, fun m hp hlen => ?_, fun hp => ?_⟩⟩
  · refine ⟨digraphs (m.map upper), digraphs_letters (by rwa [List.length_map]), ?_⟩
    refine returns_of_ok (u := uopPfufix) (ref := none) rfl h ?_
    rw [uopPfufix_str hp, if_neg (by omega)]
  · refine raisesInTaskAs_of_error (u := uopPfufix) (ref := none) rfl h (by decide) ?_
    rw [uopPfufix_str hp, if_pos hlen]
  · refine raisesInTaskAs_of_error (u := uopPfufix) (ref := none) rfl h (by decide) ?_
    exact (except_bind_error ..).2 (.inl (asStr_typeError hp))

/-! #### PFFIX: the loop that inserts fillers (R196) -/

/-- The loop leaves what is before its index as it is. -/
theorem insertFillers_append (n : Nat) (pre s : Str) (i : Nat) :
    insertFillers n (pre ++ s) (pre.length + i) = pre ++ insertFillers n s i := by
  induction n generalizing s i with
  | zero => rfl
  | succ n ih =>
    simp only [insertFillers, Nat.add_assoc, List.getElem?_append_right (Nat.le_add_right ..), Nat.add_sub_cancel_left]
    split
    next a b ha hb =>
      simp only [ha, hb, ← ih]
      split
      · rw [List.take_length_add_append, List.drop_length_add_append, List.append_assoc]
      · rfl
    next => rfl

/-- A round at an equal pair: the second letter opens the next pair. -/
theorem insertFillers_equal (n : Nat) (a : Byte) (rest : Str) :
    insertFillers (n + 1) (a :: a :: rest) 0 = a :: letterX :: insertFillers n (a :: rest) 0 := by
  rw [insertFillers.eq_def]
  simp only [List.getElem?_cons_zero, List.getElem?_cons_succ, if_true]
  exact insertFillers_append n [a, letterX] (a :: rest) 0

/-- A round at two unequal letters. -/
theorem insertFillers_unequal (n : Nat) {a b : Byte} (rest : Str) (h : a ≠ b) :
    insertFillers (n + 1) (a :: b :: rest) 0 = a :: b :: insertFillers n rest 0 := by
  rw [insertFillers.eq_def]
  simp only [List.getElem?_cons_zero, List.getElem?_cons_succ, if_neg h]
  exact insertFillers_append n [a, b] rest 0

theorem padEven_cons_cons (a b : Byte) (s : Str) : padEven (a :: b :: s) = a :: b :: padEven s := by
  simp only [padEven, List.length_cons, Nat.add_assoc, Nat.add_mod_right, List.cons_append]
  split <;> rfl

/-- The spec's loop, padded and split, is the scan: in each round both take one digraph off the front. -/
theorem digraphs_padEven_insertFillers {n : Nat} {s : Str} (h : s.length ≤ n) :
    digraphs (padEven (insertFillers n s 0)) = fixScan none s := by
  induction n generalizing s with
  | zero =>
    obtain rfl := List.length_eq_zero_iff.1 (Nat.le_zero.1 h)
    rfl
  | succ n ih =>
    match s with
    | [] => rfl
    | [a] => rfl
    | a :: b :: rest =>
      have hlen : (b :: rest).length ≤ n := Nat.le_of_succ_le_succ h
      by_cases hab : a = b
      · subst hab
        rw [insertFillers_equal, padEven_cons_cons, digraphs, ih hlen]
        exact (if_pos rfl).symm
      · rw [insertFillers_unequal n rest hab, padEven_cons_cons, digraphs, ih (Nat.le_of_succ_le hlen)]
        exact (if_neg hab).symm

/-- Settles O33: the scan of PFFIX is the loop of R196 run for as many rounds as there are letters. -/
theorem pffixFixesUp : Obligations.PffixFixesUp := by
  refine ⟨by decide, fun s t pm h => ⟨fun m hp => ?_, fun hp => ?_⟩⟩
  · dsimp only
    rw [digraphs_padEven_insertFillers le_rfl]
    exact returns_of_ok (u := uopPffix) (ref := none) rfl h ((except_bind_ok ..).2 ⟨m, asStr_ok.2 hp, rfl⟩)
  · refine raisesInTaskAs_of_error (u := uopPffix) (ref := none) rfl h (by decide) ?_
    exact (except_bind_error ..).2 (.inl (asStr_typeError hp))

/-! #### PFKEY: the order of the square's letters (R195) -/

/-- The codes of the 25 letters. -/
theorem mem_squareAlphabet_iff (c : Byte) : c ∈ squareAlphabet ↔ 65 ≤ c.toNat ∧ c.toNat ≤ 90 ∧ c ≠ 74 := by
  revert c
  decide +kernel

theorem squareAlphabet_rises : squareAlphabet.Pairwise fun a b => a.toNat < b.toNat := by
  decide +kernel

/-- What is placed already stays in front, and what is added keeps its order. -/
theorem placeNew_eq_append (out t : Str) : ∃ rest, placeNew out t = out ++ rest ∧ rest.Sublist t := by
  induction t generalizing out with
  | nil => exact ⟨[], (List.append_nil out).symm, .slnil⟩
  | cons c t ih =>
    rw [placeNew_cons]
    split
    · obtain ⟨rest, hout, hsub⟩ := ih out
      exact ⟨rest, hout, hsub.cons c⟩
    · obtain ⟨rest, hout, hsub⟩ := ih (out ++ [c])
      exact ⟨c :: rest, by rw [hout, List.append_assoc]; rfl, hsub.cons_cons c⟩

/-- The letters of a string stand in the order of their first places in it: `pre` is the part that is scanned, and `out`
holds its letters in that order. -/
theorem placeNew_first_seen {word : Str} (pre t out : Str) (hword : word = pre ++ t) (hmem : ∀ c, c ∈ out ↔ c ∈ pre)
    (hord : out.Pairwise fun a b => word.idxOf a < word.idxOf b) :
    (placeNew out t).Pairwise fun a b => word.idxOf a < word.idxOf b := by
  induction t generalizing pre out with
  | nil => exact hord
  | cons c t ih =>
    have hword' : word = (pre ++ [c]) ++ t := by simp [hword]
    rw [placeNew_cons]
    split
    case isTrue hc =>
      refine ih (pre ++ [c]) out hword' (fun d => ?_) hord
      rw [List.mem_append, List.mem_singleton, hmem]
      exact ⟨.inl, fun hd => hd.elim id fun e => (hmem d).1 (e ▸ hc)⟩
    case isFalse hc =>
      refine ih (pre ++ [c]) (out ++ [c]) hword' (fun d => by simp [hmem]) ?_
      have hlast (a : Byte) (ha : a ∈ out) : word.idxOf a < word.idxOf c := by
        have hapre : a ∈ pre := (hmem a).1 ha
        have hcpre : c ∉ pre := mt (hmem c).2 hc
        rw [hword, List.idxOf_append_of_mem hapre, List.idxOf_append_of_notMem hcpre]
        exact Nat.lt_add_right _ (List.idxOf_lt_length_iff.2 hapre)
      refine List.pairwise_append.2 ⟨hord, List.pairwise_singleton .., fun a ha b hb => ?_⟩
      rw [List.mem_singleton.1 hb]
      exact hlast a ha

/-- The key square holds the letters of R195. -/
theorem toList_of_keySquare? {key : Str} {sq : Vector Byte 25} (h : keySquare? key = some sq) :
    sq.toList = squareLetters key := by
  simp only [keySquare?, Option.ite_none_right_eq_some, Option.dite_none_right_eq_some, Option.some.injEq] at h
  obtain ⟨-, hlen, hsq⟩ := h
  rw [← hsq, Vector.toList_mk]

theorem pfKeyWf_of_cfgWf {c : Cfg} (h : cfgWf c = true) : pfKeyWf c.pfKey = true := by
  simp only [cfgWf, Bool.and_eq_true] at h
  obtain ⟨⟨⟨-, hpf⟩, -⟩, -⟩ := h
  exact hpf

/-- PFKEY under a key word that has a square. -/
theorem exec_pfkey_of_square {s : State} {sq : Vector Byte 25} (h : keySquare? s.build.cfg.pfKey = some sq) :
    exec .pfkey s = runTask (fun _ => .ok (.square sq)) none s := by
  simp only [exec, execPfkey, h]

/-- Settles O35: the square's letters are a permutation of the 25; the folded key word is placed first, and what the
alphabet adds is a part of it in order. -/
theorem pfkeyBuildsSquare : Obligations.PfkeyBuildsSquare := by
  refine ⟨by decide, fun s t pm h hcfg => ?_⟩
  have hkey := pfKeyWf_of_cfgWf hcfg
  obtain ⟨sq, hsq⟩ := keySquare?_isSome hkey
  have hlist := toList_of_keySquare? hsq
  have hperm : sq.toList.Perm squareAlphabet := hlist ▸ squareLetters_perm hkey
  refine ⟨sq, returns_of_ok (exec_pfkey_of_square hsq) h rfl, hperm.nodup_iff.2 (by decide +kernel), fun c => ?_, ?_⟩
  · rw [hperm.mem_iff, mem_squareAlphabet_iff]
  · intro folded
    obtain ⟨rest, hrest, hsub⟩ := placeNew_eq_append (placeNew [] folded) squareAlphabet
    exact ⟨placeNew [] folded, rest, hlist.trans hrest, fun c => by simp [mem_placeNew],
      placeNew_first_seen [] folded [] rfl (fun _ => .rfl) .nil, squareAlphabet_rises.sublist hsub⟩

end Sys2Proof.Proofs

/-! ### The digraph rule (spec/43_playfair.md R194, R198 to R200) -/

namespace Sys2Proof.Proofs

open Sys2Proof Sys2Proof.Machine

/-! #### Positions in a square (R194) -/

theorem toList_squareAt (sq : Vector Byte 25) (r c : Fin 5) : sq.toList[5 * r.val + c.val]? = some (squareAt sq r c) := by
  have hlt : 5 * r.val + c.val < sq.toList.length := by
    rw [Vector.length_toList]
    omega
  rw [List.getElem?_eq_getElem hlt, squareAt, Vector.getElem_toList]

theorem squareAt_mem (sq : Vector Byte 25) (r c : Fin 5) : squareAt sq r c ∈ sq.toList :=
  List.mem_of_getElem? (toList_squareAt sq r c)

/-- The scan of a square stops at a letter's first place. -/
theorem find?_position {sq : Vector Byte 25} {ch : Byte} (h : sq.toList.idxOf ch < 25) :
    (List.finRange 25).find? (fun p => decide (sq[p] = ch)) = some ⟨sq.toList.idxOf ch, h⟩ := by
  have hlt : sq.toList.idxOf ch < sq.toList.length := by rwa [Vector.length_toList]
  have hhere : sq[sq.toList.idxOf ch] = ch := by rw [← Vector.getElem_toList hlt, List.getElem_idxOf]
  have hbefore (j : Nat) (hj : j < sq.toList.idxOf ch) : sq[j] ≠ ch := by
    rw [← Vector.getElem_toList (hj.trans hlt)]
    simpa using List.not_of_lt_findIdx hj
  refine (List.find?_ofFn_eq_some_of_injective Function.injective_id).2 ⟨decide_eq_true hhere, fun j hj => ?_⟩
  exact mt of_decide_eq_true (hbefore j hj)

/-- The position of a letter is that of its first place in the square. -/
theorem getPosition_of_mem {sq : Vector Byte 25} {ch : Byte} (h : ch ∈ sq.toList) :
    ∃ r c : Fin 5, getPosition sq ch = .ok (r, c) ∧ r.val = sq.toList.idxOf ch / 5 ∧ c.val = sq.toList.idxOf ch % 5 := by
  have hlt : sq.toList.idxOf ch < 25 := by simpa using List.idxOf_lt_length_iff.2 h
  exact ⟨_, _, by rw [getPosition, find?_position hlt], rfl, rfl⟩

/-- Only a letter of the square has a position. -/
theorem mem_of_getPosition {sq : Vector Byte 25} {ch : Byte} {p : Fin 5 × Fin 5} (h : getPosition sq ch = .ok p) :
    ch ∈ sq.toList := by
  unfold getPosition at h
  split at h
  next q hq =>
    have hch : sq[q] = ch := by simpa using List.find?_some hq
    rw [← hch]
    simp
  next => cases h

/-- A letter of the square is the one at its position. -/
theorem exists_squareAt {sq : Vector Byte 25} {ch : Byte} (h : ch ∈ sq.toList) : ∃ r c, squareAt sq r c = ch := by
  obtain ⟨r, c, -, hr, hc⟩ := getPosition_of_mem h
  have hpos : 5 * r.val + c.val = sq.toList.idxOf ch := by rw [hr, hc, Nat.div_add_mod]
  refine ⟨r, c, Option.some.inj ?_⟩
  rw [← toList_squareAt, hpos, List.getElem?_idxOf h]

/-- In a square of distinct letters the letter at a position has that position. -/
theorem getPosition_squareAt {sq : Vector Byte 25} (hsq : sq.toList.Nodup) (r c : Fin 5) :
    getPosition sq (squareAt sq r c) = .ok (r, c) := by
  obtain ⟨r', c', hpos, hr, hc⟩ := getPosition_of_mem (squareAt_mem sq r c)
  have hidx : sq.toList.idxOf (squareAt sq r c) = 5 * r.val + c.val := by
    obtain ⟨hlt, hget⟩ := List.getElem?_eq_some_iff.1 (toList_squareAt sq r c)
    rw [← hget, hsq.idxOf_getElem]
  have hr' : r' = r := Fin.ext (by omega)
  have hc' : c' = c := Fin.ext (by omega)
  rw [hpos, hr', hc']

/-! #### The rule and its inverse (R198) -/

/-- The rule by the two positions. -/
theorem subst_of_positions {sq : Vector Byte 25} {a b : Byte} {ra ca rb cb : Fin 5} (d : Nat)
    (ha : getPosition sq a = .ok (ra, ca)) (hb : getPosition sq b = .ok (rb, cb)) :
    subst sq d a b =
      if ra = rb then .ok (squareAt sq ra (turn ca d), squareAt sq rb (turn cb d))
      else if ca = cb then .ok (squareAt sq (turn ra d) ca, squareAt sq (turn rb d) cb)
      else .ok (squareAt sq ra cb, squareAt sq rb ca) := by
  rw [subst, ha, hb]
  rfl

/-- One to the right and four to the right are five. -/
theorem turn_turn (i : Fin 5) : turn (turn i 1) 4 = i := by
  revert i
  decide

theorem turn_injective {i j : Fin 5} (h : turn i 1 = turn j 1) : i = j := by
  rw [← turn_turn i, h, turn_turn]

/-- Settles O58: the substituted letters stand in the same of the three cases, and there the second step leads back. -/
theorem digraphRuleIsUndone : Obligations.DigraphRuleIsUndone := by
  intro sq a b hsq ha hb
  obtain ⟨ra, ca, rfl⟩ := exists_squareAt ha
  obtain ⟨rb, cb, rfl⟩ := exists_squareAt hb
  have hsubst (d : Nat) (r c r' c' : Fin 5) :=
    subst_of_positions d (getPosition_squareAt hsq r c) (getPosition_squareAt hsq r' c')
  by_cases hrow : ra = rb
  · refine ⟨_, _, (hsubst ..).trans (if_pos hrow), squareAt_mem .., squareAt_mem .., ?_⟩
    rw [hsubst, if_pos hrow, turn_turn, turn_turn]
  by_cases hcol : ca = cb
  · refine ⟨_, _, (hsubst ..).trans ((if_neg hrow).trans (if_pos hcol)), squareAt_mem .., squareAt_mem .., ?_⟩
    rw [hsubst, if_neg (mt turn_injective hrow), if_pos hcol, turn_turn, turn_turn]
  · refine ⟨_, _, (hsubst ..).trans ((if_neg hrow).trans (if_neg hcol)), squareAt_mem .., squareAt_mem .., ?_⟩
    rw [hsubst, if_neg hrow, if_neg (Ne.symm hcol)]

/-! #### PFENC and PFDEC (R199, R200) -/

/-- The digraph `q` stands for the digraph `p` under the square, with step `d`, by the places of the two letters in
the square's list (R198). -/
def StandsFor (sq : Vector Byte 25) (d : Nat) (p q : Byte × Byte) : Prop :=
  let row (c : Byte) : Nat := sq.toList.idxOf c / 5
  let col (c : Byte) : Nat := sq.toList.idxOf c % 5
  let letter (r c : Nat) : Option Byte := sq.toList[5 * r + c]?
  if row p.1 = row p.2 then
    some q.1 = letter (row p.1) ((col p.1 + d) % 5) ∧ some q.2 = letter (row p.2) ((col p.2 + d) % 5)
  else if col p.1 = col p.2 then
    some q.1 = letter ((row p.1 + d) % 5) (col p.1) ∧ some q.2 = letter ((row p.2 + d) % 5) (col p.2)
  else some q.1 = letter (row p.1) (col p.2) ∧ some q.2 = letter (row p.2) (col p.1)

/-- Letters of the square are substituted by the rule. -/
theorem subst_of_mem {sq : Vector Byte 25} {a b : Byte} (d : Nat) (ha : a ∈ sq.toList) (hb : b ∈ sq.toList) :
    ∃ q, subst sq d a b = .ok q ∧ StandsFor sq d (a, b) q := by
  obtain ⟨ra, ca, hpa, hra, hca⟩ := getPosition_of_mem ha
  obtain ⟨rb, cb, hpb, hrb, hcb⟩ := getPosition_of_mem hb
  rw [subst_of_positions d hpa hpb]
  simp only [StandsFor, ← hra, ← hca, ← hrb, ← hcb, Fin.val_inj]
  have hletter (r c : Fin 5) := (toList_squareAt sq r c).symm
  split
  · exact ⟨_, rfl, hletter .., hletter ..⟩
  · split
    · exact ⟨_, rfl, hletter .., hletter ..⟩
    · exact ⟨_, rfl, hletter .., hletter ..⟩

/-- A substituted digraph is of letters of the square. -/
theorem mem_of_subst {sq : Vector Byte 25} {d : Nat} {a b : Byte} {q : Byte × Byte} (h : subst sq d a b = .ok q) :
    a ∈ sq.toList ∧ b ∈ sq.toList := by
  obtain ⟨p, hp, h⟩ := (except_bind_ok ..).1 h
  obtain ⟨p', hp', -⟩ := (except_bind_ok ..).1 h
  exact ⟨mem_of_getPosition hp, mem_of_getPosition hp'⟩

theorem substAll_cons (sq : Vector Byte 25) (d : Nat) (p : Byte × Byte) (ps : List (Byte × Byte)) :
    substAll sq d (p :: ps) =
      subst sq d p.1 p.2 >>= fun q => substAll sq d ps >>= fun out => .ok (q.1 :: q.2 :: out) := rfl

/-- A text of letters of the square is substituted digraph by digraph. -/
theorem substAll_of_mem {sq : Vector Byte 25} (d : Nat) {ps : List (Byte × Byte)}
    (h : ∀ p ∈ ps, p.1 ∈ sq.toList ∧ p.2 ∈ sq.toList) :
    ∃ qs, List.Forall₂ (StandsFor sq d) ps qs ∧ substAll sq d ps = .ok (qs.flatMap fun q => [q.1, q.2]) := by
  induction ps with
  | nil => exact ⟨[], .nil, rfl⟩
  | cons p ps ih =>
    obtain ⟨⟨ha, hb⟩, hps⟩ := List.forall_mem_cons.1 h
    obtain ⟨q, hq, hrule⟩ := subst_of_mem d ha hb
    obtain ⟨qs, hqs, hout⟩ := ih hps
    refine ⟨q :: qs, .cons hrule hqs, ?_⟩
    rw [substAll_cons, hq, hout]
    rfl

/-- A text that is substituted is of letters of the square. -/
theorem mem_of_substAll {sq : Vector Byte 25} {d : Nat} {ps : List (Byte × Byte)} {out : Str}
    (h : substAll sq d ps = .ok out) : ∀ p ∈ ps, p.1 ∈ sq.toList ∧ p.2 ∈ sq.toList := by
  induction ps generalizing out with
  | nil => exact List.forall_mem_nil _
  | cons p ps ih =>
    rw [substAll_cons] at h
    obtain ⟨q, hq, h⟩ := (except_bind_ok ..).1 h
    obtain ⟨out', hout, -⟩ := (except_bind_ok ..).1 h
    exact List.forall_mem_cons.2 ⟨mem_of_subst hq, ih hout⟩

/-- A character outside the square raises, wherever it stands in the text. -/
theorem substAll_invalidInput {sq : Vector Byte 25} (d : Nat) {ps : List (Byte × Byte)}
    (h : ∃ p ∈ ps, p.1 ∉ sq.toList ∨ p.2 ∉ sq.toList) : substAll sq d ps = .error .invalidInput := by
  cases hs : substAll sq d ps with
  | error c => rw [substAll_error hs]
  | ok out =>
    obtain ⟨p, hp, hout⟩ := h
    obtain ⟨ha, hb⟩ := mem_of_substAll hs p hp
    exact (hout.elim (· ha) (· hb)).elim

/-- The function of PFENC and PFDEC under a square and on digraphs. -/
theorem uopSubst_pairs {d : Nat} {o : Operands} {sq : Vector Byte 25} {ps : List (Byte × Byte)}
    (hp : o.prev = .square sq) (hr : o.refval = some (.pairs ps)) :
    uopSubst d o = substAll sq d ps >>= fun out => .ok (.str out) := by
  rw [uopSubst, asSquare_ok.2 hp, present_ok.2 hr]
  rfl

theorem asSquare_typeError {v : Value} (h : ∀ sq, v ≠ .square sq) : asSquare v = .error .typeError :=
  asSquare_error.2 ⟨rfl, h⟩

/-- A RES entry that is missing or no list of digraphs. -/
theorem present_asPairs_typeError {α : Type} {o : Option Value} (h : ∀ ps, o ≠ some (.pairs ps))
    (f : List (Byte × Byte) → Except Code α) : (present o >>= fun v => asPairs v >>= f) = .error .typeError := by
  cases o with
  | none => rfl
  | some v =>
    have hv : asPairs v = .error .typeError := asPairs_error.2 ⟨rfl, fun ps e => h ps (congrArg some e)⟩
    exact congrArg (· >>= f) hv

/-- Where RES has no digraphs for REF, PFENC and PFDEC raise TypeError, whatever PREV is. -/
theorem uopSubst_refval_typeError {d : Nat} {o : Operands} (h : ∀ ps, o.refval ≠ some (.pairs ps)) :
    uopSubst d o = .error .typeError := by
  rw [uopSubst, except_bind_error]
  cases hp : asSquare o.prev with
  | error c => exact .inl (congrArg _ (asSquare_error.1 hp).1)
  | ok sq => exact .inr ⟨sq, rfl, present_asPairs_typeError h _⟩

/-- Settles O36: PFENC and PFDEC are one function with steps 1 and 4, which reads the square, then the digraphs, and
substitutes them. -/
theorem playfairSubstitutes : Obligations.PlayfairSubstitutes := by
  refine ⟨fun r => ⟨decodeTask_ok_iff.2 ⟨rfl, rfl⟩, decodeTask_ok_iff.2 ⟨rfl, rfl⟩⟩, fun s t pm r i d h hi => ?_⟩
  have hx : exec i s = runTask (uopSubst d) (some r) s := by rcases hi with ⟨rfl, rfl⟩ | ⟨rfl, rfl⟩ <;> rfl
  refine ⟨fun sq ps hp hr hmem => ?_, fun sq ps hp hr hout => ?_, fun hp => ?_, fun hr => ?_⟩
  · obtain ⟨qs, hqs, hsubst⟩ := substAll_of_mem d hmem
    refine ⟨qs, hqs, returns_of_ok hx h ?_⟩
    rw [uopSubst_pairs hp hr, hsubst]
    rfl
  · refine raisesInTaskAs_of_error hx h (by decide) ?_
    rw [uopSubst_pairs hp hr, substAll_invalidInput d hout]
    rfl
  · exact raisesInTaskAs_of_error hx h (by decide) ((except_bind_error ..).2 (.inl (asSquare_typeError hp)))
  · exact raisesInTaskAs_of_error hx h (by decide) (uopSubst_refval_typeError hr)

end Sys2Proof.Proofs

/-! ### The Hill unit (spec/44_hill.md R224 to R229) -/

namespace Sys2Proof.Proofs

open Sys2Proof Sys2Proof.Machine

/-! #### The product with a key matrix (R225, R229) -/

theorem mulRow_getElem (k : Matrix) (r : Row) (j : Fin 3) : (mulRow k r)[j] = mulEntry r k j := by
  fin_cases j <;> rfl

/-- An entry of a row in the ring of integers modulo 26, where R225 reduces nothing. -/
def residue (r : Row) (j : Fin 3) : ZMod 26 := (r[j].val : ZMod 26)

theorem residue_mulRow (k : Matrix) (r : Row) (j : Fin 3) : residue (mulRow k r) j =
    residue r 0 * residue k[0] j + residue r 1 * residue k[1] j + residue r 2 * residue k[2] j := by
  rw [residue, mulRow_getElem, mulEntry, Fin.val_ofNat, ZMod.natCast_mod]
  push_cast
  rfl

/-- Symbols are below 26, so their residues tell them apart. -/
theorem residue_injective : Function.Injective residue := by
  refine fun q r h => Vector.ext fun j hj => Fin.ext ?_
  have hmod : q[j].val % 26 = r[j].val % 26 := (ZMod.natCast_eq_natCast_iff' ..).1 (congrFun h ⟨j, hj⟩)
  rwa [Nat.mod_eq_of_lt q[j].isLt, Nat.mod_eq_of_lt r[j].isLt] at hmod

/-- `(v·K)·U = v·(K·U)`: the rows of `K·U` are those of `K`, each multiplied by `U`. -/
theorem mulRow_mulRow (k u : Matrix) (r : Row) : mulRow u (mulRow k r) = mulRow (k.map (mulRow u)) r := by
  refine residue_injective (funext fun j => ?_)
  simp only [residue_mulRow, Vector.getElem_map]
  ring

/-- The identity matrix, as `hillWf` writes it (R33(c)). -/
def identityMatrix : Matrix := #v[#v[1, 0, 0], #v[0, 1, 0], #v[0, 0, 1]]

theorem mulRow_identityMatrix (r : Row) : mulRow identityMatrix r = r := by
  refine residue_injective (funext fun j => ?_)
  rw [residue_mulRow]
  fin_cases j <;> simp [residue, identityMatrix]

theorem map_mulRow_of_hillWf {c : Cfg} (h : hillWf c = true) : c.hillKey.map (mulRow c.hillUKey) = identityMatrix :=
  Vector.toList_inj.1 ((Vector.toList_map ..).trans (of_decide_eq_true h))

/-- Settles O59: the product with HILL_KEY and then HILL_UKEY is the one with their product, the identity. -/
theorem hillProductIsUndone : Obligations.HillProductIsUndone := by
  intro c rs hwf
  have hrow (r : Row) : mulRow c.hillUKey (mulRow c.hillKey r) = r := by
    rw [mulRow_mulRow, map_mulRow_of_hillWf hwf, mulRow_identityMatrix]
  simp [matmul, Function.comp_def, hrow]

/-! #### HMULK, HMULU and HV2A: operations on rows (R226 to R228) -/

theorem asRows_typeError {v : Value} (h : ∀ rs, v ≠ .rows rs) : asRows v = .error .typeError :=
  asRows_error.2 ⟨rfl, h⟩

/-- The one function of HMULK and HMULU: PREV times a key matrix. -/
def uopMultiply (k : Matrix) (o : Operands) : Except Code Value :=
  asRows o.prev >>= fun rs => .ok (.rows (matmul rs k))

theorem forall₂_matmul (k : Matrix) (rs : List Row) : List.Forall₂ (fun (r q : Row) => ∀ j : Fin 3, (q[j]).val =
    ((r[0]).val * (k[0][j]).val + (r[1]).val * (k[1][j]).val + (r[2]).val * (k[2][j]).val) % 26) rs (matmul rs k) := by
  rw [matmul, List.forall₂_map_right_iff, List.forall₂_same]
  exact fun r _ j => congrArg Fin.val (mulRow_getElem k r j)

/-- Settles O38: HMULK and HMULU are one function with the two key matrices. -/
theorem hillMultiplies : Obligations.HillMultiplies := by
  refine ⟨by decide, by decide, fun s t pm i k h hi => ?_⟩
  have hx : exec i s = runTask (uopMultiply k) none s := by rcases hi with ⟨rfl, rfl⟩ | ⟨rfl, rfl⟩ <;> rfl
  refine ⟨fun rs hp => ⟨matmul rs k, forall₂_matmul k rs, ?_⟩, fun hp => ?_⟩
  · exact returns_of_ok hx h ((except_bind_ok ..).2 ⟨rs, asRows_ok.2 hp, rfl⟩)
  · exact raisesInTaskAs_of_error hx h (by decide) ((except_bind_error ..).2 (.inl (asRows_typeError hp)))

/-- Settles O39: HV2A spells PREV's rows with `rowsText`. -/
theorem hv2aSpellsRows : Obligations.Hv2aSpellsRows := by
  refine ⟨by decide, fun s t pm h => ⟨fun rs hp => ?_, fun hp => ?_⟩⟩
  · exact returns_of_ok (u := uopHv2a) (ref := none) rfl h ((except_bind_ok ..).2 ⟨rs, asRows_ok.2 hp, rfl⟩)
  · have huop : uopHv2a (operandsOf s t pm none) = .error .typeError :=
      (except_bind_error ..).2 (.inl (asRows_typeError hp))
    obtain ⟨s', hx, hraised, -⟩ := raisesInTaskAs_of_error (i := .hv2a) rfl h (by decide) huop
    exact ⟨s', hx, hraised⟩

/-! #### HFIX: padding and rows (R224) -/

theorem letterSymbol_val {c : Byte} (h : isLetter c = true) : (letterSymbol c).val = c.toNat - 65 := by
  obtain ⟨h₀, h₁⟩ := sym_range h
  have hval : ((letterSymbol c).val : Int) = c.toNat - 65 := mod26_val_of_range h₀ h₁
  omega

/-- The values of the rows, in order, are those of the letters: whole rows leave none over. -/
theorem chunkRows_values {m : Str} (hlen : m.length % 3 = 0) (hall : m.all isLetter = true) :
    ((chunkRows m).flatMap fun r => r.toList.map Fin.val) = m.map fun c => c.toNat - 65 := by
  fun_induction chunkRows m with
  | case1 a b c rest ih =>
    simp only [List.all_cons, Bool.and_eq_true] at hall
    obtain ⟨ha, hb, hc, hrest⟩ := hall
    have hlen' : rest.length % 3 = 0 := by
      simp only [List.length_cons] at hlen
      omega
    simp [ih hlen' hrest, letterSymbol_val, ha, hb, hc]
  | case2 => cases hlen
  | case3 => cases hlen
  | case4 => rfl

/-- HFIX on a string is the test of the padded string's letters and then its rows. -/
theorem uopHfix_str {o : Operands} {m : Str} (h : o.prev = .str m) :
    uopHfix o = if (padX (m.map upper)).all isLetter then .ok (.rows (chunkRows (padX (m.map upper))))
      else .error .invalidInput := by
  rw [uopHfix, asStr_ok.2 h]
  rfl

/-- Settles O37: the padding completes the last row, and its letters decide between the rows and the exception. -/
theorem hfixMakesRows : Obligations.HfixMakesRows := by
  refine ⟨by decide, fun s t pm h => ⟨fun m hp => ?_, fun hp => ?_⟩⟩
  · refine ⟨(3 - m.length % 3) % 3, by omega, by omega, ?_⟩
    have hpad : m.map upper ++ List.replicate ((3 - m.length % 3) % 3) letterX = padX (m.map upper) := by
      rw [padX, List.length_map]
    have hlen : (padX (m.map upper)).length % 3 = 0 := by
      rw [← hpad, List.length_append, List.length_map, List.length_replicate]
      omega
    rw [hpad]
    refine ⟨fun hin => ?_, fun hout => ?_⟩
    · have hall := (all_isLetter_iff _).2 hin
      refine ⟨_, chunkRows_values hlen hall, returns_of_ok (u := uopHfix) (ref := none) rfl h ?_⟩
      rw [uopHfix_str hp, if_pos hall]
    · refine raisesInTaskAs_of_error (u := uopHfix) (ref := none) rfl h (by decide) ?_
      rw [uopHfix_str hp, (all_isLetter_eq_false_iff _).2 hout]
      rfl
  · refine raisesInTaskAs_of_error (u := uopHfix) (ref := none) rfl h (by decide) ?_
    exact (except_bind_error ..).2 (.inl (asStr_typeError hp))

end Sys2Proof.Proofs

/-! ### The S-DES unit: framing, the swap and the inverse block encoding (spec/45_sdes.md R245, R249, R252 to R256) -/

namespace Sys2Proof.Proofs

open Sys2Proof Sys2Proof.Machine

/-! #### Permutation tables that undo each other (R33(e)) -/

/-- Applying two tables in turn is the identity where the entries of the first, read through the second, are the
positions themselves. -/
theorem permBits_permBits_cancel {n m : Nat} {t : Table n m} {u : Table m n} (h : ∀ j : Fin n, t[u[j]] = j)
    (b : BitVec n) : permBits (permBits b t) u = b := by
  refine BitVec.eq_of_getMsbD_eq fun j hj => ?_
  have hbit : (permBits (permBits b t) u).getMsb ⟨j, hj⟩ = b.getMsb ⟨j, hj⟩ := by
    rw [permBits_getMsb, permBits_getMsb, h]
  rwa [getMsb_eq_getMsbD, getMsb_eq_getMsbD] at hbit

theorem rip_ip_of_sdesWf {c : Cfg} (h : sdesWf c = true) (i : Fin 8) : c.rip[c.ip[i]] = i := by
  rw [sdesWf, Bool.and_eq_true] at h
  obtain ⟨-, hall⟩ := h
  exact of_decide_eq_true (List.all_eq_true.1 hall i (List.mem_finRange i))

/-- R33(e) says that RIP undoes IP; on the 8 positions IP then undoes RIP too. -/
theorem ip_rip_of_sdesWf {c : Cfg} (h : sdesWf c = true) (j : Fin 8) : c.ip[c.rip[j]] = j := by
  have hleft : Function.LeftInverse (fun j : Fin 8 => c.rip[j]) (fun i : Fin 8 => c.ip[i]) := rip_ip_of_sdesWf h
  exact hleft.rightInverse_of_surjective (Finite.surjective_of_injective hleft.injective) j

/-! #### Halves of a block -/

theorem leftHalf_append (x y : BitVec 4) : leftHalf (x ++ y) = x := BitVec.extractLsb'_append_eq_left

theorem rightHalf_append (x y : BitVec 4) : rightHalf (x ++ y) = y := BitVec.extractLsb'_append_eq_right

theorem leftHalf_append_rightHalf (b : BitVec 8) : leftHalf b ++ rightHalf b = b :=
  (BitVec.extractLsb'_append_extractLsb'_eq_extractLsb' (Nat.zero_add 4).symm).trans BitVec.extractLsb'_eq_self

/-- Swapping the halves twice gives the block back. -/
theorem swapHalves_swapHalves (b : BitVec 8) : swapHalves (swapHalves b) = b := by
  rw [swapHalves, swapHalves, leftHalf_append, rightHalf_append, leftHalf_append_rightHalf]

/-- Half of 8 positions is 4, so a rotation by 4 exchanges the halves. -/
theorem swapHalves_eq_rotateLeft (b : BitVec 8) : swapHalves b = b.rotateLeft 4 := by
  refine BitVec.eq_of_getMsbD_eq fun j hj => ?_
  rw [swapHalves, BitVec.getMsbD_append, BitVec.getMsbD_rotateLeft]
  by_cases h : j < 4
  · have hmod : (4 + j) % 8 = 4 + j := Nat.mod_eq_of_lt (by omega)
    simp [h, hj, hmod, rightHalf_getMsbD]
  · have hmod : (4 + j) % 8 = j - 4 := by omega
    have hlt : j - 4 < 4 := by omega
    simp [h, hj, hmod, leftHalf_getMsbD _ hlt]

/-! #### The round function and the block encoding are undone (R249, R256) -/

/-- `fK` keeps the right half, so a second round xors the same bits into the left half and cancels them. -/
theorem fK_fK (c : Cfg) (k b : BitVec 8) : fK c k (fK c k b) = b := by
  have hright : rightHalf (fK c k b) = rightHalf b := rightHalf_append ..
  have hleft : leftHalf (fK c k b) = roundBits c (rightHalf b) k ^^^ leftHalf b := leftHalf_append ..
  calc fK c k (fK c k b)
      = (roundBits c (rightHalf b) k ^^^ (roundBits c (rightHalf b) k ^^^ leftHalf b)) ++ rightHalf b := by
        rw [fK, hright, hleft]
    _ = leftHalf b ++ rightHalf b := by rw [← BitVec.xor_assoc, BitVec.xor_self, BitVec.zero_xor]
    _ = b := leftHalf_append_rightHalf b

/-- Encoding with the subkeys exchanged takes the five steps back one by one. -/
theorem encodeBlock_encodeBlock {c : Cfg} (h : sdesWf c = true) (ka kb b : BitVec 8) :
    encodeBlock c kb ka (encodeBlock c ka kb b) = b := by
  simp only [encodeBlock, permBits_permBits_cancel (rip_ip_of_sdesWf h), fK_fK, swapHalves_swapHalves,
    permBits_permBits_cancel (ip_rip_of_sdesWf h)]

/-- Settles O60: a round cancels itself, and RIP, the rounds and the swap are undone in turn. -/
theorem sdesBlockIsUndone : Obligations.SdesBlockIsUndone :=
  fun c h ka kb b => ⟨fK_fK c ka b, encodeBlock_encodeBlock h ka kb b⟩

/-! #### SFRAME, SSW and SUNFR -/

theorem raisesInTask_of_error {i : Instr} {u : Operands → Except Code Value} {ref : Option (BitVec 4)} {s : State}
    {t : Task} {pm : NameMap Int} {c : Code} (hx : exec i s = runTask u ref s) (h : TaskReady s t pm)
    (hc : c ≠ .ok) (hu : u (operandsOf s t pm ref) = .error c) : RaisesInTask i s c :=
  ⟨_, hx.trans (runTask_error h hu), raise_raised s s.stepIdx hc⟩

/-- Settles O40: both directions hand the 8-bit words on unchanged, under the other tag. -/
theorem sdesFraming : Obligations.SdesFraming := by
  refine ⟨by decide, by decide, fun s t pm h => ⟨fun m hp => ?_, fun hp => ?_, fun bs hp => ?_, fun hp => ?_⟩⟩
  · exact returns_of_ok (u := uopSframe) (ref := none) rfl h ((except_bind_ok ..).2 ⟨m, asStr_ok.2 hp, rfl⟩)
  · refine raisesInTask_of_error (u := uopSframe) (ref := none) rfl h (by decide) ?_
    exact (except_bind_error ..).2 (.inl (asStr_typeError hp))
  · exact returns_of_ok (u := uopSunfr) (ref := none) rfl h ((except_bind_ok ..).2 ⟨bs, asBlocks_ok.2 hp, rfl⟩)
  · refine raisesInTask_of_error (u := uopSunfr) (ref := none) rfl h (by decide) ?_
    exact (except_bind_error ..).2 (.inl (asBlocks_typeError hp))

/-- Settles O44: SSW maps `swapHalves`, the rotation by 4, over the blocks. -/
theorem sswSwapsHalves : Obligations.SswSwapsHalves := by
  refine ⟨by decide, fun s t pm h => ⟨fun bs hp => ?_, fun hp => ?_⟩⟩
  · rw [← funext swapHalves_eq_rotateLeft]
    exact returns_of_ok (u := uopSsw) (ref := none) rfl h ((except_bind_ok ..).2 ⟨bs, asBlocks_ok.2 hp, rfl⟩)
  · refine raisesInTask_of_error (u := uopSsw) (ref := none) rfl h (by decide) ?_
    exact (except_bind_error ..).2 (.inl (asBlocks_typeError hp))

end Sys2Proof.Proofs

/-! ### Waiting, reset and the end of every execution (spec/70_reset_and_hazards.md R310, R311, R322) -/

namespace Sys2Proof.Proofs

open Sys2Proof Sys2Proof.Machine

/-! #### The engine waits (R311, R322) -/

/-- Idle, or with an event pending, the engine's own step changes nothing. -/
theorem engineStep_of_waiting {s : State}
    (h : s.activity = .idle ∨ ((∃ pm, s.activity = .running pm) ∧ s.evp.isSome = true)) : engineStep s = .next s := by
  rcases h with ha | ⟨⟨pm, ha⟩, he⟩
  · simp only [engineStep, ha]
  · obtain ⟨p, hp⟩ := Option.isSome_iff_exists.1 he
    simp only [engineStep, ha, hp]

theorem step_of_no_move {s : State} (he : s.env = []) : step s = engineStep s := by
  simp only [step, worldStep, he]

/-- Settles O13: in both cases the step is the engine's own, and that waits. -/
theorem engineWaits : Obligations.EngineWaits := by
  refine fun s h => ⟨fun he => ?_, fun rest he => ?_⟩
  · rw [step_of_no_move he, engineStep_of_waiting h]
  · rw [step_of_wait he]
    exact engineStep_of_waiting h

/-- Idle with no outside move, the engine stays as it is for any number of steps. -/
theorem run_of_idle {s : State} (ha : s.activity = .idle) (he : s.env = []) (n : Nat) :
    Host.Core.run Sys2Proof.core n s = .next s := by
  induction n with
  | zero => rfl
  | succ n ih => rw [run_succ_of_step ((engineWaits s (.inl ha)).1 he), ih]

/-! #### Reset (R49, R310) -/

theorem step_of_reset {s : State} {rest : List EnvMove} (he : s.env = .reset :: rest) :
    step s = .next { s with env := rest }.resetNow := by
  simp only [step, worldStep, he]

/-- The build and the model's own fields have no part in the registers. -/
theorem resetNow_csr (s : State) (idx : Nat) : s.resetNow.csr? idx = State.reset.csr? idx := rfl

/-- Settles O15: the step is `resetNow`, whose lengths are 0, so no cell is within R62. -/
theorem resetAtAnyTime : Obligations.ResetAtAnyTime := by
  refine fun s rest he => ⟨_, step_of_reset he, fun idx hidx => ?_, rfl, rfl, rfl, rfl, fun f => rfl, rfl, rfl, rfl,
    fun sp => ?_, rfl, rfl, fun sp i => ?_, rfl, rfl, rfl⟩
  · rw [resetNow_csr, reset_csr idx hidx]
  · cases sp <;> rfl
  · have hlen : (State.len { s with env := rest }.resetNow sp).toNat = 0 := by cases sp <;> rfl
    rw [hostCell?_eq rfl, hlen, if_neg (Nat.not_lt_zero i)]

/-! #### An execution without sinks ends (R322) -/

section
variable {s : State} {f : Nat} {ts : List Task} {pm : NameMap Int} {k : Nat} {v : Value}

/-- An execution that meets the invariant, with no event pending, no sink and no outside move. -/
theorem executing_of_inv (h : s.Inv) (ha : s.activity = .running pm) (he : s.evp = none) (hs : s.sinks = [])
    (henv : s.env = []) (hts : s.flowTasks? = some ts) : Executing s.flow.id ts pm s.stepIdx s.prev s := by
  obtain ⟨hvalid, -⟩ := exec_of_no_event h ha he
  have hflow : s.flow = ⟨s.flow.id, true⟩ := by rw [← hvalid]
  exact ⟨ha, he, henv, hs, hflow, hts, rfl, rfl⟩

/-- Before the end of the flow, a step does the task at STEP, or the task's exception leaves the engine idle. -/
theorem Executing.step_of_lt (h : Executing f ts pm k v s) (hinv : s.Inv) (hk : k < ts.length) :
    ∃ s', step s = .next s' ∧
      ((s'.Inv ∧ ∃ v', Executing f ts pm (k + 1) v' s') ∨ (s'.activity = .idle ∧ s'.env = [])) := by
  have ht : ts[k]? = some ts[k] := List.getElem?_eq_getElem hk
  have hready : TaskReady s ts[k] pm := h.taskReady ht
  obtain ⟨i, hd⟩ := decodeTask_of_flowWf (flowWf_of_buildWf hinv.build (List.mem_of_getElem? h.flowTasks)) ht
  have hi : i.isCommand = false := isCommand_of_decodeTask hd
  obtain ⟨s', hx⟩ := exec_uop_goesOn hi hready (cfgWf_of_buildWf hinv.build) hinv.values.1
  have hstep : step s = .next s' := ((stepRunsTask s ts[k] pm i hready hd).1 (.inl h.env)).trans hx
  refine ⟨s', hstep, ?_⟩
  obtain ⟨t, -, -, ⟨v', hs', -⟩ | ⟨c, -, hs'⟩⟩ := exec_uop_cases hi hx
  · have hdone : TaskDone s t v' s' := hs' ▸ publish_done s t v'
    exact .inl ⟨stepKeepsInvariant s s' hinv hstep, v', h.of_taskDone hdone⟩
  · exact .inr ⟨by rw [hs']; rfl, by rw [hs']; exact h.env⟩

end

/-- Induction on the number `n` of tasks still to do: each step does one of them, or ends the execution early, after
which the engine stays idle. -/
theorem Executing.ends {n : Nat} {s : State} {f : Nat} {ts : List Task} {pm : NameMap Int} {k : Nat} {v : Value}
    (h : Executing f ts pm k v s) (hinv : s.Inv) (hk : k + n = ts.length) :
    ∃ s', Host.Core.run Sys2Proof.core (n + 1) s = .next s' ∧ s'.activity = .idle := by
  induction n generalizing s k v with
  | zero => exact ⟨s.finish, run_succ_of_step (h.step_at_end hk) 0, rfl⟩
  | succ n ih =>
    obtain ⟨s₁, hstep, ⟨hinv₁, v₁, h₁⟩ | ⟨hidle, henv⟩⟩ := h.step_of_lt hinv (by omega)
    · rw [run_succ_of_step hstep]
      exact ih h₁ hinv₁ (by omega)
    · exact ⟨s₁, by rw [run_succ_of_step hstep, run_of_idle hidle henv], hidle⟩

/-- Settles O54: STEP is at most the flow's length by the invariant, so the remaining tasks can be counted down. -/
theorem executionTerminates : Obligations.ExecutionTerminates := by
  intro s pm ts h ha he hs henv hts
  obtain ⟨-, -, ts', hts', hle, -⟩ := exec_of_no_event h ha he
  obtain rfl : ts' = ts := Option.some.inj (hts'.symm.trans hts)
  have hexec : Executing s.flow.id ts' pm s.stepIdx s.prev s := executing_of_inv h ha he hs henv hts
  obtain ⟨s', hrun, hidle⟩ := hexec.ends h (Nat.add_sub_of_le hle)
  exact ⟨s', hrun, by simp [State.busy, hidle]⟩

end Sys2Proof.Proofs
